-- ==== Sys2Proof/Word.lean ====
section
/-! DEFINITION. The value types of B2C-v7 (spec/00_scope.md R11, R12; spec/30_encoding.md R90, R91). A field
element is written as the `Nat` that stands for it (R12); the arithmetic modulo `FIELD_P` is written where a
rule asks for it. -/

namespace Sys2Proof

/-- A Word: an unsigned integer in [0, 2^64 − 1] (R12). -/
abbrev Word := BitVec 64

/-- A Byte: an unsigned integer in [0, 255] (R12). -/
abbrev Byte := BitVec 8

/-- A 32-bit command word (R90, R91). -/
abbrev CommandWord := BitVec 32

end Sys2Proof
end

