-- ==== Sys2Proof/Syntax.lean ====
section
/-! DEFINITION. The fourteen commands of spec/30_encoding.md R95 and the operands of
spec/10_state.md R21. -/

namespace Sys2Proof

/-- An operand (R21, R100): the reserved indices 48–63 name none. -/
inductive Operand where
  /-- `v0`–`v15`, indices 0–15: the CompressionVector. -/
  | v (i : Fin 16)
  /-- `m0`–`m15`, indices 16–31: the message words. -/
  | m (i : Fin 16)
  /-- `h0`–`h7`, indices 32–39: the GlobalState. -/
  | h (i : Fin 8)
  /-- `iv0`–`iv7`, indices 40–47: the IV constants, read-only to commands (R24). -/
  | iv (i : Fin 8)
  deriving DecidableEq, Repr

/-- One constructor per row of the opcode map (R95). -/
inductive Instr where
  | init
  | ldblk (blk : BitVec 26)
  | vinit (blk : BitVec 26)
  | out
  | row (rd rs1 : Operand)
  | add (rd rs1 rs2 : Operand)
  | addp (rd rs2 : Operand)
  | xor (rd rs1 rs2 : Operand)
  | xorp (rd rs2 : Operand)
  | not (rd rs1 : Operand)
  | rotr16 (rd rs1 : Operand)
  | rotr24 (rd rs1 : Operand)
  | rotr32 (rd rs1 : Operand)
  | rotr63 (rd rs1 : Operand)
  deriving DecidableEq, Repr

end Sys2Proof
end

