-- ==== Sys2Proof/WellFormed.lean ====
section
/-! DEFINITION. Which terms of `Instr` a legal command word spells (spec/30_encoding.md R97 (d)). The
other grounds of R97 (reserved opcode, nonzero reserved field, reserved index) have no term. -/

namespace Sys2Proof

/-- Whether a command may name the operand as its destination: `iv0`–`iv7` are read-only (R24). -/
def Operand.writable : Operand → Bool
  | .v _ | .m _ | .h _ => true
  | .iv _ => false

/-- The destination a format-R command names (R92). -/
def Instr.dest? : Instr → Option Operand
  | .init | .ldblk _ | .vinit _ | .out => none
  | .row rd _ | .add rd _ _ | .addp rd _ | .xor rd _ _ | .xorp rd _ | .not rd _
  | .rotr16 rd _ | .rotr24 rd _ | .rotr32 rd _ | .rotr63 rd _ => some rd

/-- The source operands a command names, in the order they are checked (R92, R278). -/
def Instr.sources : Instr → List Operand
  | .init | .ldblk _ | .vinit _ | .out => []
  | .row _ rs1 | .not _ rs1 | .rotr16 _ rs1 | .rotr24 _ rs1 | .rotr32 _ rs1 | .rotr63 _ rs1 => [rs1]
  | .add _ rs1 rs2 | .xor _ rs1 rs2 => [rs1, rs2]
  | .addp _ rs2 | .xorp _ rs2 => [rs2]

/-- A legal command: its destination, if it names one, is no `iv` operand (R97 (d)). -/
def Instr.wf (i : Instr) : Bool := i.dest?.all Operand.writable

end Sys2Proof
end

