-- ==== Sys2Proof/Decode.lean ====
section
/-! DEFINITION. The decoder of 32-bit command words, total and rejecting by name, and after it the
encoder (spec/30_encoding.md R91–R101). -/

namespace Sys2Proof

/-- Why a word is no command: the four grounds of R97. Every one of them makes the machine raise
`IllegalCommand`. -/
inductive DecodeError where
  /-- R97 (a), R99: the opcode is not in the map. -/
  | reservedOpcode
  /-- R97 (b): a field that must be zero is not. -/
  | nonzeroReservedField
  /-- R97 (c): an operand index in 48–63. -/
  | reservedOperand
  /-- R97 (d): the destination is `iv0`–`iv7`. -/
  | readOnlyDestination
  deriving DecidableEq, Repr

/-! ## Fields (R91, R92, R93) -/

def opcodeField (w : CommandWord) : BitVec 6 := w.extractLsb' 26 6
def rdField (w : CommandWord) : BitVec 6 := w.extractLsb' 20 6
def rs1Field (w : CommandWord) : BitVec 6 := w.extractLsb' 14 6
def rs2Field (w : CommandWord) : BitVec 6 := w.extractLsb' 8 6
def zeroField (w : CommandWord) : BitVec 8 := w.extractLsb' 0 8
def blkField (w : CommandWord) : BitVec 26 := w.extractLsb' 0 26

/-- The operand an index names (R21, R100); none for the reserved indices 48–63. -/
def Operand.ofIndex (x : BitVec 6) : Option Operand :=
  let n := x.toNat
  if h : n < 16 then some (.v ⟨n, h⟩)
  else if h : n - 16 < 16 then some (.m ⟨n - 16, h⟩)
  else if h : n - 32 < 8 then some (.h ⟨n - 32, h⟩)
  else if h : n - 40 < 8 then some (.iv ⟨n - 40, h⟩)
  else none

/-- The index of an operand (R21). -/
def Operand.index : Operand → BitVec 6
  | .v i => BitVec.ofNat 6 i.val
  | .m i => BitVec.ofNat 6 (16 + i.val)
  | .h i => BitVec.ofNat 6 (32 + i.val)
  | .iv i => BitVec.ofNat 6 (40 + i.val)

/-- A source field (R97 (c)). -/
def decodeSource (x : BitVec 6) : Except DecodeError Operand :=
  match Operand.ofIndex x with
  | some o => .ok o
  | none => .error .reservedOperand

/-- The destination field (R97 (c), (d)). -/
def decodeDest (x : BitVec 6) : Except DecodeError Operand :=
  match Operand.ofIndex x with
  | some o => if o.writable then .ok o else .error .readOnlyDestination
  | none => .error .reservedOperand

/-! ## Formats -/

/-- Format N: bits 25:0 are zero (R94). -/
def decodeN (i : Instr) (w : CommandWord) : Except DecodeError Instr :=
  if blkField w = 0 then .ok i else .error .nonzeroReservedField

/-- Format R with three operands (R92). -/
def decodeThree (mk : Operand → Operand → Operand → Instr) (w : CommandWord) :
    Except DecodeError Instr :=
  if zeroField w ≠ 0 then .error .nonzeroReservedField
  else do
    let rd ← decodeDest (rdField w)
    let rs1 ← decodeSource (rs1Field w)
    let rs2 ← decodeSource (rs2Field w)
    .ok (mk rd rs1 rs2)

/-- Format R, unary: `rs2` must be zero and names no operand (R92, R98). -/
def decodeUnary (mk : Operand → Operand → Instr) (w : CommandWord) : Except DecodeError Instr :=
  if zeroField w ≠ 0 ∨ rs2Field w ≠ 0 then .error .nonzeroReservedField
  else do
    let rd ← decodeDest (rdField w)
    let rs1 ← decodeSource (rs1Field w)
    .ok (mk rd rs1)

/-- Format R, operand reuse: `rs1` must be zero and names no operand (R92, R98). -/
def decodeReuse (mk : Operand → Operand → Instr) (w : CommandWord) : Except DecodeError Instr :=
  if zeroField w ≠ 0 ∨ rs1Field w ≠ 0 then .error .nonzeroReservedField
  else do
    let rd ← decodeDest (rdField w)
    let rs2 ← decodeSource (rs2Field w)
    .ok (mk rd rs2)

/-- The decoder (R95, R97): every 32-bit word is a command or illegal. -/
def decode (w : CommandWord) : Except DecodeError Instr :=
  match (opcodeField w).toNat with
  | 0x01 => decodeN .init w
  | 0x02 => .ok (.ldblk (blkField w))
  | 0x03 => .ok (.vinit (blkField w))
  | 0x04 => decodeN .out w
  | 0x05 => decodeUnary .row w
  | 0x08 => decodeThree .add w
  | 0x09 => decodeReuse .addp w
  | 0x0A => decodeThree .xor w
  | 0x0B => decodeReuse .xorp w
  | 0x0C => decodeUnary .not w
  | 0x10 => decodeUnary .rotr16 w
  | 0x11 => decodeUnary .rotr24 w
  | 0x12 => decodeUnary .rotr32 w
  | 0x13 => decodeUnary .rotr63 w
  | _ => .error .reservedOpcode

/-! ## The encoder, from the same tables -/

/-- The opcode of a command (R95). -/
def Instr.opcode : Instr → BitVec 6
  | .init => 0x01
  | .ldblk _ => 0x02
  | .vinit _ => 0x03
  | .out => 0x04
  | .row _ _ => 0x05
  | .add _ _ _ => 0x08
  | .addp _ _ => 0x09
  | .xor _ _ _ => 0x0A
  | .xorp _ _ => 0x0B
  | .not _ _ => 0x0C
  | .rotr16 _ _ => 0x10
  | .rotr24 _ _ => 0x11
  | .rotr32 _ _ => 0x12
  | .rotr63 _ _ => 0x13

/-- A format-R word from its fields (R91). -/
def formatR (op rd rs1 rs2 : BitVec 6) : CommandWord := op ++ rd ++ rs1 ++ rs2 ++ 0#8

/-- A format-B word, or with a zero field a format-N word (R91). -/
def formatB (op : BitVec 6) (blk : BitVec 26) : CommandWord := op ++ blk

/-- The command word of a command (R91–R95). -/
def encode (i : Instr) : CommandWord :=
  match i with
  | .init | .out => formatB i.opcode 0
  | .ldblk blk | .vinit blk => formatB i.opcode blk
  | .add rd rs1 rs2 | .xor rd rs1 rs2 => formatR i.opcode rd.index rs1.index rs2.index
  | .addp rd rs2 | .xorp rd rs2 => formatR i.opcode rd.index 0 rs2.index
  | .row rd rs1 | .not rd rs1 | .rotr16 rd rs1 | .rotr24 rd rs1 | .rotr32 rd rs1
  | .rotr63 rd rs1 => formatR i.opcode rd.index rs1.index 0

/-- The command read from a word numbered as spec/opcode_table.json numbers it: every row has 32 bits,
and bits above `nbits` are zero. -/
def decodeTableWord (nbits w : Nat) : Option Instr :=
  (decode (BitVec.ofNat 32 (w % 2 ^ nbits))).toOption

end Sys2Proof
end

