-- ==== Sys2Proof/Config.lean ====
section
/-! DEFINITION. What is fixed for one machine (spec/00_scope.md R9, R10), and the one free value. -/

namespace Sys2Proof

/-- The parameters a model takes (R9, R39). They are fields of the state that no command writes, so
that a statement about every state holds for every value of them. `KEY_LEN` is not among them: it is
the number of key cells (R211: "`kk` is `|Y|` by definition"). -/
structure Params where
  /-- `FIELD_P`, the order of the prime field; OPEN, above 2^65 (R10). -/
  fieldP : Nat
  /-- `CIRCUIT_ROWS`, the usable rows of the backend's trace; OPEN (R319). -/
  circuitRows : Nat
  /-- `HOST_RANGE_CHECK`, on by default (R220). -/
  hostRangeCheck : Bool
  /-- `INPUT_LEN`, the input byte count N (R39). -/
  inputLen : Nat
  /-- `OUT_LEN`, the requested digest length nn (R39). -/
  outLen : Nat
  deriving DecidableEq, Repr

/-- `MAX_BLOCKS`, the range of the block-index field (R9, R93). -/
def maxBlocks : Nat := 2 ^ 26

/-- FREE VALUE (log entry 7). The Word of a message operand whose eight limb cells do not all hold
Bytes and whose field sum is no Word: R220 lets the run continue and states no Word (I8, "any value").
The arguments are `FIELD_P` and the eight limb values. -/
opaque Config.outOfRangeWord : Nat → (Fin 8 → Nat) → Word

end Sys2Proof
end

