-- ==== Sys2Proof/Machine/State.lean ====
section
/-! DEFINITION. The state of B2C-v7 as plain data (spec/10_state.md R20–R45), the fault codes
(spec/60_exceptions.md R272), and the state a run starts from (R45). -/

namespace Sys2Proof.Machine

/-- The fault codes (R272). The spec describes the state a fault leaves (R42, R271), so a command that
raises one answers a NEXT state with `State.fault` set; no step answers the outcome `fault`. Every
constructor is exact, hence safe, unless its docstring says otherwise. -/
inductive Fault where
  /-- Code 1, raised by INIT: `nn ∉ [1, 64]`. Safe. -/
  | preconditionOutputSize
  /-- Code 2, raised by INIT: `kk > 64`. Safe. -/
  | preconditionKeySize
  /-- Code 3, raised by INIT: more than `MAX_BLOCKS` blocks. Safe. -/
  | preconditionInputLength
  /-- Code 4, raised by LDBLK with `HOST_RANGE_CHECK` on: a source cell of the block holds no Byte. Safe. -/
  | rangeViolation
  /-- Code 5, raised by the fetch of an illegal word, and by a command whose destination is an `iv`
  operand. Safe. -/
  | illegalCommand
  /-- Code 6, raised by every command that reads an operand: it is unbound. Safe. -/
  | unboundOperand
  /-- Code 7, raised by ADDP and XORP: `P` holds nothing, or for XORP a binding of kind `Word`. Safe. -/
  | reuseHazard
  /-- Code 8, raised by every command and by the host operations: the tables are not loaded, the gadget
  state does not accept the command, or the host operations are out of order. Safe. -/
  | sequenceViolation
  /-- Code 9, raised by LDBLK and VINIT: `blk ≥ nblocks(N, kk)`. Safe. -/
  | badBlockIndex
  /-- Code 10, raised by INIT when `|X| ≠ N`, by `EmitRow` when the trace is full, and by LDBLK in states
  no run reaches (log entry 8). Safe. -/
  | internalInvariant
  deriving DecidableEq, Repr

/-- Why an instruction has no meaning. -/
inductive Refusal where
  /-- Raised by an arm of `exec` whose instruction has no meaning yet. Safe: nothing is claimed of it. -/
  | notModelled (mnemonic : String)
  deriving DecidableEq, Repr

/-- The name of a circuit cell (R30, R33, R35, R60). -/
inductive Cell where
  /-- `F[r]`, the full-value cell of a trace row. -/
  | f (r : Nat)
  /-- `L_i[r]`, a byte-limb cell of a trace row. -/
  | l (i : Fin 8) (r : Nat)
  /-- `K[r]`, the fixed cell of a trace row. -/
  | k (r : Nat)
  /-- `X[i]`, an input cell. -/
  | x (i : Nat)
  /-- `Y[i]`, a key cell. -/
  | y (i : Nat)
  /-- `I[k]`, an instance cell. -/
  | inst (k : Fin 64)
  deriving DecidableEq, Repr

/-- The five selectors (R30). -/
inductive Selector where
  | qDec | qAdd | qXor | qRot63 | qNot
  deriving DecidableEq, Repr

/-- The selector flags of one row (R30). -/
structure Selectors where
  qDec : Bool := false
  qAdd : Bool := false
  qXor : Bool := false
  qRot63 : Bool := false
  qNot : Bool := false
  deriving DecidableEq, Repr

/-- One trace row (R30): the cells F, L0–L7 and K, each holding a field element or unassigned (R31,
R41), and the selector flags. -/
structure TraceRow where
  f : Option Nat
  l : Vector (Option Nat) 8
  k : Option Nat
  sel : Selectors
  deriving DecidableEq, Repr

/-- The kind of a binding (R22). -/
inductive Kind where
  /-- The row is decomposed: `q_dec` is set and the limbs hold the value's bytes. -/
  | row
  /-- A constant, a NOT result or an F-only copy. -/
  | word
  deriving DecidableEq, Repr

/-- A binding `(val, cell, kind)` (R22); the cell is `F[row]`. -/
structure Binding where
  val : Word
  row : Nat
  kind : Kind
  deriving DecidableEq, Repr

/-- The gadget state `S` (R37). -/
inductive GadgetState where
  | uninitialized | constantsLoaded | processingBlock | finalized
  deriving DecidableEq, Repr

/-- The state of the machine (R20). An operand that nothing has bound holds `none`, which is the spec's
own state "unbound" (R22, R23), no value left out. -/
structure State where
  /-- `v0`–`v15` (R21). -/
  v : Vector (Option Binding) 16
  /-- `m0`–`m15` (R21). -/
  m : Vector (Option Binding) 16
  /-- `h0`–`h7` (R21). -/
  h : Vector (Option Binding) 8
  /-- `iv0`–`iv7` (R21, R24). -/
  iv : Vector (Option Binding) 8
  /-- `P`, the previous result (R26). -/
  p : Option Binding
  /-- The index of the next command (R28). -/
  pc : Nat
  /-- The program, fixed before the run (R28, R77, R90). -/
  program : List CommandWord
  /-- The gadget state `S` (R37). -/
  gadget : GadgetState
  /-- Set by the host's `configure` (R38). -/
  configured : Bool
  /-- Set by the host's `load`, which fills `T_R` and `T_X` (R36, R38). -/
  loaded : Bool
  /-- The fault mark (R42). -/
  fault : Option Fault
  /-- The trace, row 0 first (R30). -/
  trace : List TraceRow
  /-- `cur`, the index of the next row to be emitted (R31). -/
  cur : Nat
  /-- `Eq`, the copy constraints, oldest first (R34). -/
  eq : List (Cell × Cell)
  /-- `Z`, the zero cell, as the row of its F cell (R212). -/
  z : Option Nat
  /-- `I[0..63]`, supplied by the public input (R35). -/
  inst : Vector Nat 64
  /-- `X[0..]`, the input cells (R33). -/
  x : List Nat
  /-- `Y[0..]`, the key cells (R33). -/
  y : List Nat
  /-- The configuration and the parameters, which no command writes (R9, R39). -/
  params : Params
  deriving DecidableEq, Repr

/-- The parameters of the state a run starts from: N = 0 and nn = 64, `HOST_RANGE_CHECK` on as R220
says, and values for the two OPEN ones (DESIGN CHOICE, log entries 2 and 3). -/
def Params.reset : Params where
  fieldP := 2 ^ 127 - 1
  circuitRows := 65536
  hostRangeCheck := true
  inputLen := 0
  outLen := 64

/-- The state at the start of a run (R45). What the host supplies (the program, the configuration, the
external cells, the instance values) is chosen in log entries 2 to 5. -/
def State.reset : State where
  v := Vector.replicate 16 none
  m := Vector.replicate 16 none
  h := Vector.replicate 8 none
  iv := Vector.replicate 8 none
  p := none
  pc := 0
  program := []
  gadget := .uninitialized
  configured := false
  loaded := false
  fault := none
  trace := []
  cur := 0
  eq := []
  z := none
  inst := Vector.replicate 64 0
  x := []
  y := []
  params := Params.reset

end Sys2Proof.Machine
end

