-- ==== Sys2Proof/Machine/Flags.lean ====
section
/-! DEFINITION. B2C has no flags and no condition codes (spec/10_state.md R29). The two Bits its
commands compute are trace cells, not flags: the carry of an addition (spec/42_addition.md R142) and
the high bit of a rotation by 63 (spec/44_rotation.md R189). -/

namespace Sys2Proof.Machine

/-- `carry = (lhs + rhs) >> 64` (R142). -/
def carryOf (a b : Word) : Nat := (a.toNat + b.toNat) >>> 64

/-- `hi = a >> 63` (R189). -/
def highBit (a : Word) : Nat := a.toNat >>> 63

end Sys2Proof.Machine
end

