-- ==== Sys2Proof/Machine/Operands.lean ====
section
/-! DEFINITION. Bytes of a Word, reading and binding operands, and reading one cell
(spec/00_scope.md R13; spec/10_state.md R21–R24, R33, R35, R36, R39). -/

namespace Sys2Proof.Machine

/-! ## Words, bytes and limbs (R13, R63) -/

/-- `byte(a, i) = a[8i+7 : 8i]` (R13). -/
def byteAt (a : Word) (i : Fin 8) : Byte := a.extractLsb' (8 * i.val) 8

/-- `rotr(a, n) = (a >> n) | (a << (64 − n))` (R13). -/
def rotr (a : Word) (n : Nat) : Word := (a >>> n) ||| (a <<< (64 - n))

/-- `Σ l[i]·256^i` over eight limbs (R13, R121). -/
def limbSum (l : Fin 8 → Nat) : Nat :=
  l 0 + l 1 * 256 + l 2 * 256 ^ 2 + l 3 * 256 ^ 3 + l 4 * 256 ^ 4 + l 5 * 256 ^ 5 + l 6 * 256 ^ 6
    + l 7 * 256 ^ 7

/-- `le(a)` as the limb cells of a row (R13, R63). -/
def leLimbs (a : Word) : Vector (Option Nat) 8 :=
  Vector.ofFn fun i => some (byteAt a i).toNat

/-- Eight unassigned limb cells (R31). -/
def noLimbs : Vector (Option Nat) 8 := Vector.replicate 8 none

/-! ## The cell of a binding (R22) -/

def Binding.cell (b : Binding) : Cell := .f b.row

/-! ## Operands (R21–R23) -/

/-- The binding an operand holds (R22). -/
def State.binding (o : Operand) (s : State) : Option Binding :=
  match o with
  | .v i => s.v[i]
  | .m i => s.m[i]
  | .h i => s.h[i]
  | .iv i => s.iv[i]

/-- `W[i]`: reading an unbound operand as a source raises `UnboundOperand` (R14, R23). -/
def State.readOperand (o : Operand) (s : State) : Except Fault Binding :=
  match s.binding o with
  | some b => .ok b
  | none => .error .unboundOperand

/-- `W[i] <- b` (R14). -/
def State.bind (o : Operand) (b : Binding) (s : State) : State :=
  match o with
  | .v i => { s with v := s.v.set i (some b) }
  | .m i => { s with m := s.m.set i (some b) }
  | .h i => { s with h := s.h.set i (some b) }
  | .iv i => { s with iv := s.iv.set i (some b) }

/-- The operands named must be bound, checked in the order given (R226, R248, R278). -/
def requireBound : List Operand → State → Except Fault Unit
  | [], _ => .ok ()
  | o :: os, s =>
    match s.binding o with
    | some _ => requireBound os s
    | none => .error .unboundOperand

/-- `h0..h7` in index order (R278). -/
def hOperands : List Operand := [.h 0, .h 1, .h 2, .h 3, .h 4, .h 5, .h 6, .h 7]

/-! ## Views of the state -/

/-- `kk`, the key byte count, is the number of key cells (R33, R39, R211). -/
def State.keyLen (s : State) : Nat := s.y.length

/-- `T_R`: empty until `load`, then 256 rows, value i at row i (R36, R66). -/
def State.rangeTable (s : State) : List Nat := if s.loaded then List.range 256 else []

/-- `T_X`: empty until `load`, then the row `(a, b, a ⊕ b)` at index `256·a + b` (R36, R67). -/
def State.xorTable (s : State) : List (Nat × Nat × Nat) :=
  if s.loaded then (List.range 65536).map fun n => (n / 256, n % 256, (n / 256) ^^^ (n % 256)) else []

/-- The model's read of one cell: the value it holds, or nothing where no command has assigned it
(R41) or it does not exist. -/
def State.cell? (s : State) (c : Cell) : Option Nat :=
  match c with
  | .f r => s.trace[r]?.bind TraceRow.f
  | .l i r => s.trace[r]?.bind fun row => row.l[i]
  | .k r => s.trace[r]?.bind TraceRow.k
  | .x i => s.x[i]?
  | .y i => s.y[i]?
  | .inst k => some s.inst[k]

end Sys2Proof.Machine
end

