-- ==== Sys2Proof/Machine/Ops.lean ====
section
/-! DEFINITION. The primitives of spec/00_scope.md R14 and the row-building helpers of
spec/41_decomposition.md R124, R125 and spec/46_blake2b_gadget.md R210; raising a fault
(spec/60_exceptions.md R271); the permission table (R280); and the frame every command runs in. -/

namespace Sys2Proof.Machine

/-! ## Faults (R42, R271, R272) -/

/-- Taking a fault: the code is recorded and nothing else changes, so `pc` still names the command
(R42, R271). There is no return from a fault (R282). -/
def raiseFault (c : Fault) (s : State) : State := { s with fault := some c }

/-- The number of a fault code (R272). -/
def Fault.code : Fault → Nat
  | .preconditionOutputSize => 1
  | .preconditionKeySize => 2
  | .preconditionInputLength => 3
  | .rangeViolation => 4
  | .illegalCommand => 5
  | .unboundOperand => 6
  | .reuseHazard => 7
  | .sequenceViolation => 8
  | .badBlockIndex => 9
  | .internalInvariant => 10

/-- A check that raises a fault when it fails. -/
def require (ok : Bool) (c : Fault) : Except Fault Unit := if ok then .ok () else .error c

/-! ## Trace (R31, R34) -/

/-- Row `cur` is assigned and `cur` advances (R31). -/
def State.pushRow (row : TraceRow) (s : State) : State :=
  { s with trace := s.trace ++ [row], cur := s.cur + 1 }

/-- `EmitRow`: the row is assigned; a full trace raises `InternalInvariant` instead (R31, R319). -/
def emitRow (row : TraceRow) (s : State) : Except Fault State :=
  if s.cur < s.params.circuitRows then .ok (s.pushRow row) else .error .internalInvariant

/-- `Copy(c1, c2)` appends a pair to `Eq` (R34). -/
def State.copy (c1 c2 : Cell) (s : State) : State := { s with eq := s.eq ++ [(c1, c2)] }

/-- Several `Copy` in order (R34). -/
def State.copyAll (ps : List (Cell × Cell)) (s : State) : State := { s with eq := s.eq ++ ps }

/-- A row's flags with one more selector set. -/
def Selectors.enable (q : Selector) (f : Selectors) : Selectors :=
  match q with
  | .qDec => { f with qDec := true }
  | .qAdd => { f with qAdd := true }
  | .qXor => { f with qXor := true }
  | .qRot63 => { f with qRot63 := true }
  | .qNot => { f with qNot := true }

/-- Whether a selector is set. -/
def Selectors.isSet (q : Selector) (f : Selectors) : Bool :=
  match q with
  | .qDec => f.qDec
  | .qAdd => f.qAdd
  | .qXor => f.qXor
  | .qRot63 => f.qRot63
  | .qNot => f.qNot

/-- `Sel(q, r)` sets selector `q` on row `r` (R14). -/
def State.sel (q : Selector) (r : Nat) (s : State) : State :=
  { s with trace := s.trace.modify r fun row => { row with sel := row.sel.enable q } }

/-- The form of the trace: exactly `cur` rows (R31), and no more than the backend holds (R319). -/
def State.traceWf (s : State) : Bool := s.cur == s.trace.length && decide (s.cur ≤ s.params.circuitRows)

/-- Every cell of a row that holds something holds a field element (R12, R61). -/
def TraceRow.inField (p : Nat) (row : TraceRow) : Bool :=
  row.f.all (decide <| · < p) && row.l.toList.all (fun c => c.all (decide <| · < p)) &&
    row.k.all (decide <| · < p)

/-- Every cell of the machine holds a field element, an integer in [0, `FIELD_P` − 1]: the trace, the
external cells and the instance column (R12, R33, R61; log entry 17). -/
def State.cellsInField (s : State) : Bool :=
  s.trace.all (TraceRow.inField s.params.fieldP) && s.x.all (decide <| · < s.params.fieldP) &&
    s.y.all (decide <| · < s.params.fieldP) && s.inst.toList.all (decide <| · < s.params.fieldP)

/-- The canonical form of the cells: the form of the trace, and field elements in every cell. -/
def Memory.wf (s : State) : Bool := s.traceWf && s.cellsInField

/-! ## Rows -/

/-- A decomposed row: F holds the Word, L0..L7 its bytes, `q_dec` set (R63, R122). -/
def decRow (a : Word) : TraceRow :=
  { f := some a.toNat, l := leLimbs a, k := none, sel := { qDec := true } }

/-- A row that holds a Word only (R122, R125). -/
def wordRow (a : Word) : TraceRow := { f := some a.toNat, l := noLimbs, k := none, sel := {} }

/-- A row that holds a Word, with a Bit in `L0` (R125, R141). -/
def carryRow (a : Word) (carry : Nat) : TraceRow :=
  { wordRow a with l := noLimbs.set 0 (some carry) }

/-- A row that holds a build-time constant, `F = K = val` (R210). -/
def fixedRow (a : Word) : TraceRow := { wordRow a with k := some a.toNat }

/-- `MatRow(val, c)` (R124). The row it emits is the value of `cur` before it. -/
def matRow (a : Word) (c : Cell) (s : State) : Except Fault State := do
  let t ← emitRow (decRow a) s
  .ok (t.copy (.f s.cur) c)

/-- `CopyWordRow(val, c)` without a carry (R125). -/
def copyWordRow (a : Word) (c : Cell) (s : State) : Except Fault State := do
  let t ← emitRow (wordRow a) s
  .ok (t.copy (.f s.cur) c)

/-- `CopyWordRow(val, c, carry)` (R125). -/
def copyCarryRow (a : Word) (c : Cell) (carry : Nat) (s : State) : Except Fault State := do
  let t ← emitRow (carryRow a carry) s
  .ok (t.copy (.f s.cur) c)

/-- `ConstRow(val)` (R210). -/
def constRow (a : Word) (s : State) : Except Fault State := do
  let t ← emitRow (fixedRow a) s
  .ok (t.copy (.f s.cur) (.k s.cur))

/-- Several `ConstRow` in order. -/
def constRows : List Word → State → Except Fault State
  | [], s => .ok s
  | a :: as, s => do
    let t ← constRow a s
    constRows as t

/-- `W[rd] <- b; P <- W[rd]` (R26). -/
def publish (rd : Operand) (b : Binding) (s : State) : State := { s.bind rd b with p := some b }

/-! ## Which commands each gadget state accepts (R280) -/

def acceptsInit : GadgetState → Bool
  | .uninitialized => true
  | .constantsLoaded | .processingBlock | .finalized => false

def acceptsLdblk : GadgetState → Bool
  | .constantsLoaded | .processingBlock => true
  | .uninitialized | .finalized => false

def acceptsVinit : GadgetState → Bool
  | .processingBlock => true
  | .uninitialized | .constantsLoaded | .finalized => false

def acceptsOut : GadgetState → Bool
  | .processingBlock => true
  | .uninitialized | .constantsLoaded | .finalized => false

def acceptsWord : GadgetState → Bool
  | .constantsLoaded | .processingBlock => true
  | .uninitialized | .finalized => false

/-! ## The frame of a command -/

/-- The end of a command: `pc <- pc + 1` when it completes (R28), the state before it with the fault
recorded when it raises one (R42, R72, R271). -/
def finish (s : State) (r : Except Fault State) : Host.Outcome State Fault Refusal :=
  match r with
  | .ok t => .next { t with pc := t.pc + 1 }
  | .error c => .next (raiseFault c s)

/-- A command in the order of checks of R278: legality, the tables loaded, the gadget state, and then
the command's own rule. -/
def command (legal : Bool) (accepts : GadgetState → Bool) (body : State → Except Fault State)
    (s : State) : Host.Outcome State Fault Refusal :=
  finish s do
    require legal .illegalCommand
    require s.loaded .sequenceViolation
    require (accepts s.gadget) .sequenceViolation
    body s

end Sys2Proof.Machine
end

