-- ==== Sys2Proof/Machine/Addition.lean ====
section
/-! DEFINITION. ADD and ADDP (spec/42_addition.md R140–R149). -/

namespace Sys2Proof.Machine

/-- The rows r+1 and r+2 of an addition (R141) and its result, the lhs being on row `r0`. -/
def addOnto (rd : Operand) (a : Word) (b : Binding) (r0 : Nat) (s : State) : Except Fault State := do
  let t ← copyCarryRow b.val b.cell (carryOf a b.val) s
  let u ← emitRow (decRow (a + b.val)) t
  .ok (publish rd ⟨a + b.val, t.cur, .row⟩ (u.sel .qAdd r0))

/-- R146: both operands are copied. -/
def addBody (rd rs1 rs2 : Operand) (s : State) : Except Fault State := do
  let a ← s.readOperand rs1
  let b ← s.readOperand rs2
  let t ← copyWordRow a.val a.cell s
  addOnto rd a.val b s.cur t

/-- R148: the lhs is `P`, whose row `cur − 1` is not emitted again. -/
def addpBody (rd rs2 : Operand) (s : State) : Except Fault State := do
  let b ← s.readOperand rs2
  match s.p with
  | none => .error .reuseHazard
  | some a => addOnto rd a.val b (s.cur - 1) s

/-- ADD (R146). -/
def execAdd (rd rs1 rs2 : Operand) (s : State) : Host.Outcome State Fault Refusal :=
  command rd.writable acceptsWord (addBody rd rs1 rs2) s

/-- ADDP (R148). -/
def execAddp (rd rs2 : Operand) (s : State) : Host.Outcome State Fault Refusal :=
  command rd.writable acceptsWord (addpBody rd rs2) s

end Sys2Proof.Machine
end

