-- ==== Sys2Proof/Machine/Decomposition.lean ====
section
/-! DEFINITION. ROW (spec/41_decomposition.md R123). -/

namespace Sys2Proof.Machine

/-- R123: a Word materialised as a decomposed row tied to the source's cell. -/
def rowBody (rd rs1 : Operand) (s : State) : Except Fault State := do
  let b ← s.readOperand rs1
  let t ← matRow b.val b.cell s
  .ok (publish rd ⟨b.val, s.cur, .row⟩ t)

/-- ROW (R123). -/
def execRow (rd rs1 : Operand) (s : State) : Host.Outcome State Fault Refusal :=
  command rd.writable acceptsWord (rowBody rd rs1) s

end Sys2Proof.Machine
end

