-- ==== Sys2Proof/Machine/Blocks.lean ====
section
/-! DEFINITION. Blocks: their count, classes, padding, byte sources and counter
(spec/46_blake2b_gadget.md R215–R221). -/

namespace Sys2Proof.Machine

/-- `nblocks(N, kk)` (R215). -/
def nblocks (n kk : Nat) : Nat :=
  if n = 0 then 1
  else if kk = 0 then (n + 127) / 128
  else 1 + (n + 127) / 128

/-- The block count of the configuration. -/
def State.blockCount (s : State) : Nat := nblocks s.params.inputLen s.keyLen

/-- `is_key(b)` (R216). -/
def isKeyBlock (kk b : Nat) : Bool := decide (0 < kk) && b == 0

/-- `is_final(b)` (R216). -/
def isFinalBlock (n kk b : Nat) : Bool := b + 1 == nblocks n kk

/-- `pad(b)`, the padding-zero count (R216). -/
def padCount (n kk b : Nat) : Nat :=
  if isKeyBlock kk b then 128 - kk
  else if isFinalBlock n kk b then if n = 0 then 128 else (128 - n % 128) % 128
  else 0

/-- `t(b)`, the processed-byte counter (R221). -/
def counter (n kk b : Nat) : Nat :=
  if isFinalBlock n kk b then n + (if 0 < kk then 128 else 0) else 128 * (b + 1)

/-- Where byte `k` of a block comes from (R217). -/
inductive ByteSource where
  /-- An input cell. -/
  | input (i : Nat)
  /-- A key cell. -/
  | key (i : Nat)
  /-- The zero cell `Z`. -/
  | zero
  deriving DecidableEq, Repr

/-- `BlockSource(b, k)` (R217). -/
def blockSource (n kk b k : Nat) : ByteSource :=
  if isKeyBlock kk b then if k < kk then .key k else .zero
  else
    let i := 128 * (b - (if 0 < kk then 1 else 0)) + k
    if i < n then .input i else .zero

/-- The source of byte `k` of block `b` in this configuration. -/
def State.source (s : State) (b k : Nat) : ByteSource := blockSource s.params.inputLen s.keyLen b k

/-- The value of a source: `CellRead(X[i])`, `CellRead(Y[k])` or 0 (R217, R218). LDBLK reads no cell
that does not exist, because it checks `sourcesExist` first. -/
def State.sourceValue (s : State) : ByteSource → Nat
  | .input i => s.x.getD i 0
  | .key i => s.y.getD i 0
  | .zero => 0

/-- The cell of a source; `Z` is the F cell of the zero row (R212). -/
def State.sourceCell (s : State) : ByteSource → Cell
  | .input i => .x i
  | .key i => .y i
  | .zero => .f (s.z.getD 0)

/-- What INIT established and LDBLK relies on: there are N input cells (R211) and there is a zero cell
(R212). It holds in every state in which a run reaches LDBLK (log entry 8). -/
def State.sourcesExist (s : State) : Bool := s.x.length == s.params.inputLen && s.z.isSome

/-- The value of byte `i` of message word `j` of block `b` (R64). -/
def State.messageByte (s : State) (b : Nat) (j : Fin 16) (i : Fin 8) : Nat :=
  s.sourceValue (s.source b (8 * j.val + i.val))

/-- Eight limbs that are all Bytes (R12, R220). -/
def allBytes (l : Fin 8 → Nat) : Bool := decide (∀ i, l i < 256)

/-- The F cell of a message row: `word(l)` for Bytes, and for other field elements the sum modulo
`FIELD_P` (R218, R220). -/
def messageFelt (p : Nat) (l : Fin 8 → Nat) : Nat :=
  if allBytes l then limbSum l else limbSum l % p

/-- The Word a message operand is bound to: the value of its F cell where that is a Word (R12, R22), and
otherwise the free value (log entry 7). -/
def messageWord (p : Nat) (l : Fin 8 → Nat) : Word :=
  if messageFelt p l < 2 ^ 64 then BitVec.ofNat 64 (messageFelt p l) else Config.outOfRangeWord p l

end Sys2Proof.Machine
end

