-- ==== Sys2Proof/Machine/Constants.lean ====
section
/-! DEFINITION. The BLAKE2b constants: IV, SIGMA, ABCD and the parameter word
(spec/46_blake2b_gadget.md R213, R214, R227, R229). -/

namespace Sys2Proof.Machine

/-- `IV[0..7]` (R213). -/
def ivWord : Fin 8 → Word
  | 0 => 0x6A09E667F3BCC908
  | 1 => 0xBB67AE8584CAA73B
  | 2 => 0x3C6EF372FE94F82B
  | 3 => 0xA54FF53A5F1D36F1
  | 4 => 0x510E527FADE682D1
  | 5 => 0x9B05688C2B3E6C1F
  | 6 => 0x1F83D9ABFB41BD6B
  | 7 => 0x5BE0CD19137E2179

/-- `ParamWord(kk, nn)` (R214). -/
def paramWord (kk nn : Nat) : Word :=
  ivWord 0 ^^^ 0x01010000 ^^^ (BitVec.ofNat 64 kk <<< 8) ^^^ BitVec.ofNat 64 nn

/-- A row of `SIGMA` (R227). -/
def sigmaRow : Fin 10 → Vector (Fin 16) 16
  | 0 => #v[0, 1, 2, 3, 4, 5, 6, 7, 8, 9, 10, 11, 12, 13, 14, 15]
  | 1 => #v[14, 10, 4, 8, 9, 15, 13, 6, 1, 12, 0, 2, 11, 7, 5, 3]
  | 2 => #v[11, 8, 12, 0, 5, 2, 15, 13, 10, 14, 3, 6, 7, 1, 9, 4]
  | 3 => #v[7, 9, 3, 1, 13, 12, 11, 14, 2, 6, 5, 10, 4, 0, 15, 8]
  | 4 => #v[9, 0, 5, 7, 2, 4, 10, 15, 14, 1, 11, 12, 6, 8, 3, 13]
  | 5 => #v[2, 12, 6, 10, 0, 11, 8, 3, 4, 13, 7, 5, 15, 14, 1, 9]
  | 6 => #v[12, 5, 1, 15, 14, 13, 4, 10, 0, 7, 6, 3, 9, 2, 8, 11]
  | 7 => #v[13, 11, 7, 14, 12, 1, 3, 9, 5, 0, 15, 4, 8, 6, 2, 10]
  | 8 => #v[6, 15, 14, 9, 11, 3, 0, 8, 12, 2, 13, 7, 1, 4, 10, 5]
  | 9 => #v[10, 2, 8, 4, 7, 6, 1, 5, 15, 11, 9, 14, 3, 12, 13, 0]

/-- The vector positions `(a, b, c, d)` of mix `j` (R229). -/
def abcd : Fin 8 → Fin 16 × Fin 16 × Fin 16 × Fin 16
  | 0 => (0, 4, 8, 12)
  | 1 => (1, 5, 9, 13)
  | 2 => (2, 6, 10, 14)
  | 3 => (3, 7, 11, 15)
  | 4 => (0, 5, 10, 15)
  | 5 => (1, 6, 11, 12)
  | 6 => (2, 7, 8, 13)
  | 7 => (3, 4, 9, 14)

/-- The two message words mix `j` of round `r` takes (R228, R230). -/
def mixWords (r : Nat) (j : Fin 8) : Fin 16 × Fin 16 :=
  let s := sigmaRow ⟨r % 10, Nat.mod_lt r (by decide)⟩
  (s[2 * j.val], s[2 * j.val + 1])

end Sys2Proof.Machine
end

