-- ==== Sys2Proof/Machine/Negation.lean ====
section
/-! DEFINITION. NOT (spec/45_negation.md R200–R206). -/

namespace Sys2Proof.Machine

/-- The two rows of a negation with `q_not` on the first (R201), shared by NOT and VINIT (R226). The
result row is the row after `cur`. -/
def negRows (x : Binding) (s : State) : Except Fault State := do
  let t ← copyWordRow x.val x.cell s
  let u ← emitRow (wordRow (~~~x.val)) t
  .ok (u.sel .qNot s.cur)

/-- R205: the complement, of kind `Word`. -/
def notBody (rd rs1 : Operand) (s : State) : Except Fault State := do
  let x ← s.readOperand rs1
  let t ← negRows x s
  .ok (publish rd ⟨~~~x.val, s.cur + 1, .word⟩ t)

/-- NOT (R205). -/
def execNot (rd rs1 : Operand) (s : State) : Host.Outcome State Fault Refusal :=
  command rd.writable acceptsWord (notBody rd rs1) s

end Sys2Proof.Machine
end

