-- ==== Sys2Proof/Machine/Gadget.lean ====
section
/-! DEFINITION. INIT, LDBLK, VINIT and OUT (spec/46_blake2b_gadget.md R210–R226, R248, R249). -/

namespace Sys2Proof.Machine

/-! ## INIT -/

/-- The constants INIT assigns, one row each: the IV, the parameter word and zero (R211). -/
def initConstants (kk nn : Nat) : List Word :=
  [ivWord 0, ivWord 1, ivWord 2, ivWord 3, ivWord 4, ivWord 5, ivWord 6, ivWord 7,
   paramWord kk nn, 0]

/-- `iv0..iv7` after INIT, the first IV row being row `r` (R212). -/
def ivBindings (r : Nat) : Vector (Option Binding) 8 :=
  Vector.ofFn fun i => some ⟨ivWord i, r + i.val, .word⟩

/-- `h0..h7` after INIT: the parameter word, and the bindings of `iv1..iv7` (R212). -/
def hBindings (p : Word) (r : Nat) : Vector (Option Binding) 8 :=
  Vector.ofFn fun i =>
    if i = 0 then some ⟨p, r + 8, .word⟩ else some ⟨ivWord i, r + i.val, .word⟩

/-- R211. -/
def initBody (s : State) : Except Fault State := do
  let nn := s.params.outLen
  let kk := s.keyLen
  require (decide (1 ≤ nn) && decide (nn ≤ 64)) .preconditionOutputSize
  require (decide (kk ≤ 64)) .preconditionKeySize
  require (s.x.length == s.params.inputLen) .internalInvariant
  require (decide (s.blockCount ≤ maxBlocks)) .preconditionInputLength
  let t ← constRows (initConstants kk nn) s
  .ok { t with
    iv := ivBindings s.cur
    h := hBindings (paramWord kk nn) s.cur
    z := some (s.cur + 9)
    p := none
    gadget := .constantsLoaded }

/-- INIT (R211). -/
def execInit (s : State) : Host.Outcome State Fault Refusal := command true acceptsInit initBody s

/-! ## LDBLK -/

/-- The row of message word `j` of block `b` (R218, R220). -/
def messageRow (s : State) (b : Nat) (j : Fin 16) : TraceRow where
  f := some (messageFelt s.params.fieldP (s.messageByte b j))
  l := Vector.ofFn fun i => some (s.messageByte b j i)
  k := none
  sel := { qDec := true }

/-- The eight copy constraints of message row `r`: each limb is tied to its source (R218). -/
def messageCopies (s : State) (b : Nat) (j : Fin 16) (r : Nat) : List (Cell × Cell) :=
  (List.finRange 8).map fun i => (.l i r, s.sourceCell (s.source b (8 * j.val + i.val)))

/-- The rows of a block from word `j` on, in order. -/
def messageRows (s : State) (b : Nat) : List (Fin 16) → State → Except Fault State
  | [], t => .ok t
  | j :: js, t => do
    let u ← emitRow (messageRow s b j) t
    messageRows s b js (u.copyAll (messageCopies s b j t.cur))

/-- Whether every source of the block holds a Byte (R220). -/
def blockInRange (s : State) (b : Nat) : Bool :=
  (List.finRange 16).all fun j => allBytes (s.messageByte b j)

/-- `m0..m15` after LDBLK, the first message row being row `r` (R218). -/
def messageBindings (s : State) (b r : Nat) : Vector (Option Binding) 16 :=
  Vector.ofFn fun j => some ⟨messageWord s.params.fieldP (s.messageByte b j), r + j.val, .row⟩

/-- R218. -/
def ldblkBody (b : Nat) (s : State) : Except Fault State := do
  require (decide (b < s.blockCount)) .badBlockIndex
  require s.sourcesExist .internalInvariant
  require (!s.params.hostRangeCheck || blockInRange s b) .rangeViolation
  let t ← messageRows s b (List.finRange 16) s
  .ok { t with m := messageBindings s b s.cur, p := none, gadget := .processingBlock }

/-- LDBLK (R218). -/
def execLdblk (blk : BitVec 26) (s : State) : Host.Outcome State Fault Refusal :=
  command true acceptsLdblk (ldblkBody blk.toNat) s

/-! ## VINIT -/

/-- The constant bound to `v12` (R222). -/
def counterWord (s : State) (b : Nat) : Word :=
  ivWord 4 ^^^ BitVec.ofNat 64 (counter s.params.inputLen s.keyLen b)

/-- `v0..v15` (R225): `h`, `iv0..iv3`, the counter's constant, `iv5`, the finalisation word, `iv7`. -/
def vectorBindings (s : State) (c f : Option Binding) : Vector (Option Binding) 16 :=
  #v[s.h[0], s.h[1], s.h[2], s.h[3], s.h[4], s.h[5], s.h[6], s.h[7],
     s.iv[0], s.iv[1], s.iv[2], s.iv[3], c, s.iv[5], f, s.iv[7]]

/-- `v14` (R224): a negation of `iv6` on the final block, `iv6` itself on any other. Answers the binding
and the state after. -/
def finalWord (b : Nat) (x : Binding) (s : State) : Except Fault (Binding × State) :=
  if isFinalBlock s.params.inputLen s.keyLen b then do
    let t ← negRows x s
    .ok (⟨~~~x.val, s.cur + 1, .word⟩, t)
  else .ok (x, s)

/-- The `iv` operands VINIT copies from; bound in every state in which a run reaches VINIT (R23). -/
def vinitIvOperands : List Operand := [.iv 0, .iv 1, .iv 2, .iv 3, .iv 5, .iv 7]

/-- R226. -/
def vinitBody (b : Nat) (s : State) : Except Fault State := do
  require (decide (b < s.blockCount)) .badBlockIndex
  requireBound hOperands s
  requireBound vinitIvOperands s
  let x ← s.readOperand (.iv 6)
  let t ← constRow (counterWord s b) s
  let (f, u) ← finalWord b x t
  .ok { u with
    v := vectorBindings s (some ⟨counterWord s b, s.cur, .word⟩) (some f)
    p := none }

/-- VINIT (R226). -/
def execVinit (blk : BitVec 26) (s : State) : Host.Outcome State Fault Refusal :=
  command true acceptsVinit (vinitBody blk.toNat) s

/-! ## OUT -/

/-- OUT decomposes the GlobalState words of kind `Word`, in index order (R248). -/
def decomposeH : List (Fin 8) → State → Except Fault State
  | [], s => .ok s
  | j :: js, s => do
    let b ← s.readOperand (.h j)
    match b.kind with
    | .row => decomposeH js s
    | .word =>
      let t ← matRow b.val b.cell s
      decomposeH js (t.bind (.h j) ⟨b.val, s.cur, .row⟩)

/-- The index of the word that holds digest byte `k` (R65). -/
def digestWord (k : Fin 64) : Fin 8 := ⟨k.val / 8, by omega⟩

/-- The place of digest byte `k` in its word (R65). -/
def digestLane (k : Fin 64) : Fin 8 := ⟨k.val % 8, by omega⟩

/-- `D[k]`, the digest byte cell (R248); nothing while its word is unbound. -/
def State.digestCell? (s : State) (k : Fin 64) : Option Cell :=
  s.h[digestWord k].map fun b => .l (digestLane k) b.row

/-- `digest[k]` (R65, R248). -/
def State.digestByte? (s : State) (k : Fin 64) : Option Byte :=
  s.h[digestWord k].map fun b => byteAt b.val (digestLane k)

/-- The instance copies of OUT: `D[k]` to `I[k]` for `k < nn` (R248, R249). -/
def digestCopies (s : State) : List (Cell × Cell) :=
  ((List.finRange 64).filter fun k => decide (k.val < s.params.outLen)).filterMap fun k =>
    (s.digestCell? k).map fun d => (d, .inst k)

/-- R248. -/
def outBody (s : State) : Except Fault State := do
  requireBound hOperands s
  let t ← decomposeH (List.finRange 8) s
  .ok { t.copyAll (digestCopies t) with p := none, gadget := .finalized }

/-- OUT (R248). -/
def execOut (s : State) : Host.Outcome State Fault Refusal := command true acceptsOut outBody s

/-- What a run returns, `D[0..63]` and `digest[0..63]`; nothing until `S = Finalized` (R28, R248, I17),
and nothing where a fault is recorded (R288). -/
def State.output (s : State) : Option (List Cell × List Byte) :=
  match s.fault, s.gadget with
  | none, .finalized =>
    some ((List.finRange 64).filterMap s.digestCell?, (List.finRange 64).filterMap s.digestByte?)
  | none, .uninitialized | none, .constantsLoaded | none, .processingBlock | some _, _ => none

end Sys2Proof.Machine
end

