-- ==== Sys2Proof/Machine/Rotation.lean ====
section
/-! DEFINITION. ROTR16, ROTR24, ROTR32 and ROTR63 (spec/44_rotation.md R180–R194). -/

namespace Sys2Proof.Machine

/-- The eight copy constraints of a rotation by `k` limbs, output row `o`, input row `r` (R181). -/
def limbCopies (k : Fin 8) (o r : Nat) : List (Cell × Cell) :=
  [(.l 0 o, .l (0 + k) r), (.l 1 o, .l (1 + k) r), (.l 2 o, .l (2 + k) r), (.l 3 o, .l (3 + k) r),
   (.l 4 o, .l (4 + k) r), (.l 5 o, .l (5 + k) r), (.l 6 o, .l (6 + k) r), (.l 7 o, .l (7 + k) r)]

/-- The decomposed row a limb rotation reads: the source's own, or a new one for a source of kind
`Word` (R181). Answers the row and the state after. -/
def decomposedSource (b : Binding) (s : State) : Except Fault (Nat × State) :=
  match b.kind with
  | .row => .ok (b.row, s)
  | .word => do
    let t ← matRow b.val b.cell s
    .ok (s.cur, t)

/-- `LimbRot(rd, rs1, k)` (R181). The limb index wraps modulo 8 because it is a `Fin 8`. -/
def limbRotBody (k : Fin 8) (rd rs1 : Operand) (s : State) : Except Fault State := do
  let b ← s.readOperand rs1
  let (r, t) ← decomposedSource b s
  let res := rotr b.val (8 * k.val)
  let u ← emitRow (decRow res) t
  .ok (publish rd ⟨res, t.cur, .row⟩ (u.copyAll (limbCopies k t.cur r)))

/-- The row that holds the input of a rotation by 63: `P`'s row when the source is bound to `P`'s cell,
otherwise a new copy (R189, R193). -/
def rot63Source (b : Binding) (s : State) : Except Fault (Nat × State) :=
  if s.p.any (fun q => q.cell == b.cell) then .ok (s.cur - 1, s)
  else do
    let t ← copyWordRow b.val b.cell s
    .ok (s.cur, t)

/-- The row of the high bit: F holds the Bit, no limbs, no selector (R189). -/
def highBitRow (a : Word) : TraceRow :=
  { f := some (highBit a), l := noLimbs, k := none, sel := {} }

/-- R193. -/
def rotr63Body (rd rs1 : Operand) (s : State) : Except Fault State := do
  let b ← s.readOperand rs1
  let (r, t) ← rot63Source b s
  let u ← emitRow (highBitRow b.val) t
  let w ← emitRow (decRow (rotr b.val 63)) u
  .ok (publish rd ⟨rotr b.val 63, u.cur, .row⟩ (w.sel .qRot63 r))

/-- ROTR16 (R186): two limbs. -/
def execRotr16 (rd rs1 : Operand) (s : State) : Host.Outcome State Fault Refusal :=
  command rd.writable acceptsWord (limbRotBody 2 rd rs1) s

/-- ROTR24 (R187): three limbs. -/
def execRotr24 (rd rs1 : Operand) (s : State) : Host.Outcome State Fault Refusal :=
  command rd.writable acceptsWord (limbRotBody 3 rd rs1) s

/-- ROTR32 (R188): four limbs. -/
def execRotr32 (rd rs1 : Operand) (s : State) : Host.Outcome State Fault Refusal :=
  command rd.writable acceptsWord (limbRotBody 4 rd rs1) s

/-- ROTR63 (R193). -/
def execRotr63 (rd rs1 : Operand) (s : State) : Host.Outcome State Fault Refusal :=
  command rd.writable acceptsWord (rotr63Body rd rs1) s

end Sys2Proof.Machine
end

