-- ==== Sys2Proof/Machine/Xor.lean ====
section
/-! DEFINITION. XOR and XORP (spec/43_xor.md R160–R170). -/

namespace Sys2Proof.Machine

/-- The rows r+1 and r+2 of an XOR (R161) and its result, the lhs being on the decomposed row `r0`. -/
def xorOnto (rd : Operand) (a : Word) (b : Binding) (r0 : Nat) (s : State) : Except Fault State := do
  let t ← matRow b.val b.cell s
  let u ← emitRow (decRow (a ^^^ b.val)) t
  .ok (publish rd ⟨a ^^^ b.val, t.cur, .row⟩ (u.sel .qXor r0))

/-- R167: both operands are copied into rows. -/
def xorBody (rd rs1 rs2 : Operand) (s : State) : Except Fault State := do
  let a ← s.readOperand rs1
  let b ← s.readOperand rs2
  let t ← matRow a.val a.cell s
  xorOnto rd a.val b s.cur t

/-- R169: the lhs is `P`, which must be of kind `Row`. -/
def xorpBody (rd rs2 : Operand) (s : State) : Except Fault State := do
  let b ← s.readOperand rs2
  match s.p with
  | none => .error .reuseHazard
  | some a =>
    match a.kind with
    | .word => .error .reuseHazard
    | .row => xorOnto rd a.val b (s.cur - 1) s

/-- XOR (R167). -/
def execXor (rd rs1 rs2 : Operand) (s : State) : Host.Outcome State Fault Refusal :=
  command rd.writable acceptsWord (xorBody rd rs1 rs2) s

/-- XORP (R169). -/
def execXorp (rd rs2 : Operand) (s : State) : Host.Outcome State Fault Refusal :=
  command rd.writable acceptsWord (xorpBody rd rs2) s

end Sys2Proof.Machine
end

