-- ==== Sys2Proof/Machine/Dispatch.lean ====
section
/-! DEFINITION. One command: one arm per row of the opcode map (spec/30_encoding.md R95). -/

namespace Sys2Proof.Machine

def exec (i : Instr) (s : State) : Host.Outcome State Fault Refusal :=
  match i with
  | .init => Sys2Proof.Machine.execInit s
  | .ldblk blk => Sys2Proof.Machine.execLdblk blk s
  | .vinit blk => Sys2Proof.Machine.execVinit blk s
  | .out => Sys2Proof.Machine.execOut s
  | .row rd rs1 => Sys2Proof.Machine.execRow rd rs1 s
  | .add rd rs1 rs2 => Sys2Proof.Machine.execAdd rd rs1 rs2 s
  | .addp rd rs2 => Sys2Proof.Machine.execAddp rd rs2 s
  | .xor rd rs1 rs2 => Sys2Proof.Machine.execXor rd rs1 rs2 s
  | .xorp rd rs2 => Sys2Proof.Machine.execXorp rd rs2 s
  | .not rd rs1 => Sys2Proof.Machine.execNot rd rs1 s
  | .rotr16 rd rs1 => Sys2Proof.Machine.execRotr16 rd rs1 s
  | .rotr24 rd rs1 => Sys2Proof.Machine.execRotr24 rd rs1 s
  | .rotr32 rd rs1 => Sys2Proof.Machine.execRotr32 rd rs1 s
  | .rotr63 rd rs1 => Sys2Proof.Machine.execRotr63 rd rs1 s

end Sys2Proof.Machine
end

