-- ==== Sys2Proof/Machine/Fetch.lean ====
section
/-! DEFINITION. Fetching a command word from the program (spec/10_state.md R28; spec/30_encoding.md
R90), and placing one there. -/

namespace Sys2Proof.Machine

/-- The command word the next step executes: the one at `pc`. There is none once a fault is recorded
(R42, R271) or the program has ended (R28). -/
def State.fetch (s : State) : Option CommandWord :=
  match s.fault with
  | some _ => none
  | none => s.program[s.pc]?

/-- A program with the word `w` at index `n`; a shorter one is filled with the illegal word 0 (R97). -/
def placeWord (n : Nat) (w : CommandWord) (p : List CommandWord) : List CommandWord :=
  (p ++ List.replicate (n + 1 - p.length) 0).set n w

/-- The host's preparation for running the word at `pc` (R303; log entry 9): it stands in the program,
the tables are loaded, and no fault is recorded. -/
def State.prepareWord (w : CommandWord) (s : State) : State :=
  { s with
    program := placeWord s.pc w s.program
    configured := true
    loaded := true
    fault := none }

end Sys2Proof.Machine
end

