-- ==== Sys2Proof/Machine/Step.lean ====
section
/-! DEFINITION. One step of the machine (spec/10_state.md R28, R42; spec/30_encoding.md R90, R97). -/

namespace Sys2Proof.Machine

/-- One step: the command at `pc` is fetched, decoded and executed (R90). An illegal word raises
`IllegalCommand` (R97). A run that has ended, by a fault or at the end of the program (R28), stays as it
is (R271; for the end of the program log entry 10). -/
def step (s : State) : Host.Outcome State Fault Refusal :=
  match s.fetch with
  | none => .next s
  | some w =>
    match decode w with
    | .ok i => exec i s
    | .error _ => .next (raiseFault .illegalCommand s)

/-- `s` with the command word `w` where `step` fetches next and ready to run (log entry 9). -/
def State.withFetchWord (s : State) (nbits w : Nat) : State :=
  s.prepareWord (BitVec.ofNat 32 (w % 2 ^ nbits))

end Sys2Proof.Machine
end

