-- ==== Sys2Proof/Machine/Blake2b.lean ====
section
/-! DEFINITION. The value functions the commands and pseudo-instructions are to compute: G
(spec/46_blake2b_gadget.md R235), the compression function (R246) and the keyed hash (R251). They speak
of Words only, of no row and no cell. -/

namespace Sys2Proof.Machine.Blake2b

/-- The G function on the vector positions `a, b, c, d` with message words `x, y` (R235). -/
def g (a b c d : Fin 16) (x y : Word) (v : Vector Word 16) : Vector Word 16 :=
  let v := v.set a (v[a] + v[b] + x)
  let v := v.set d (rotr (v[d] ^^^ v[a]) 32)
  let v := v.set c (v[c] + v[d])
  let v := v.set b (rotr (v[b] ^^^ v[c]) 24)
  let v := v.set a (v[a] + v[b] + y)
  let v := v.set d (rotr (v[d] ^^^ v[a]) 16)
  let v := v.set c (v[c] + v[d])
  v.set b (rotr (v[b] ^^^ v[c]) 63)

/-- Mix `j` of round `r` (R229, R230). -/
def mix (m : Vector Word 16) (r : Nat) (j : Fin 8) (v : Vector Word 16) : Vector Word 16 :=
  let (a, b, c, d) := abcd j
  let (x, y) := mixWords r j
  g a b c d m[x] m[y] v

/-- A round: the eight mixes in order (R228, R229). -/
def round (m : Vector Word 16) (r : Nat) (v : Vector Word 16) : Vector Word 16 :=
  (List.finRange 8).foldl (fun v j => mix m r j v) v

/-- The twelve rounds (R228). -/
def rounds (m v : Vector Word 16) : Vector Word 16 :=
  (List.range 12).foldl (fun v r => round m r v) v

/-- The initial compression vector (R225), `t` the counter and `f` the final-block flag. -/
def initVector (h : Vector Word 8) (t : Nat) (f : Bool) : Vector Word 16 :=
  #v[h[0], h[1], h[2], h[3], h[4], h[5], h[6], h[7],
     ivWord 0, ivWord 1, ivWord 2, ivWord 3, ivWord 4 ^^^ BitVec.ofNat 64 t, ivWord 5,
     if f then ~~~ivWord 6 else ivWord 6, ivWord 7]

/-- The compression function `F(h, m, t, f)` (R246): `h_i ⊕ v'_i ⊕ v'_(i+8)`. -/
def compress (h : Vector Word 8) (m : Vector Word 16) (t : Nat) (f : Bool) : Vector Word 8 :=
  let v := rounds m (initVector h t f)
  Vector.ofFn fun i => h[i] ^^^ v[i.val] ^^^ v[i.val + 8]

/-- The value of a byte source, the input and key bytes given (R217). -/
def sourceByte (x y : List Byte) : ByteSource → Byte
  | .input i => x.getD i 0
  | .key i => y.getD i 0
  | .zero => 0

/-- The message words of block `b` (R64, R217). -/
def blockWords (x y : List Byte) (b : Nat) : Vector Word 16 :=
  Vector.ofFn fun j => BitVec.ofNat 64 <| limbSum fun i =>
    (sourceByte x y (blockSource x.length y.length b (8 * j.val + i.val))).toNat

/-- The GlobalState before the first block (R212). -/
def initState (kk nn : Nat) : Vector Word 8 :=
  Vector.ofFn fun i => if i = 0 then paramWord kk nn else ivWord i

/-- The GlobalState after the first `k` blocks. -/
def stateAfter (x y : List Byte) (nn k : Nat) : Vector Word 8 :=
  (List.range k).foldl
    (fun h b => compress h (blockWords x y b) (counter x.length y.length b)
      (isFinalBlock x.length y.length b))
    (initState y.length nn)

/-- The 64 bytes of the keyed hash, of which the first `nn` are the digest (R65, R251). -/
def hash (x y : List Byte) (nn : Nat) : List Byte :=
  let h := stateAfter x y nn (nblocks x.length y.length)
  (List.finRange 64).map fun k => byteAt h[k.val / 8] ⟨k.val % 8, by omega⟩

end Sys2Proof.Machine.Blake2b
end

