-- ==== Sys2Proof/Machine/Pseudo.lean ====
section
/-! DEFINITION. The pseudo-instructions MIX, COMPRESS and HASH as the command sequences they expand to
(spec/30_encoding.md R103; spec/46_blake2b_gadget.md R236, R245, R250), and running a sequence of
commands one after the other. -/

namespace Sys2Proof.Machine

/-- Commands run in order. None runs once a fault is recorded, before the sequence or by one of its
commands (R42, R271, R275). -/
def runInstrs : List Instr → State → Host.Outcome State Fault Refusal
  | [], s => .next s
  | i :: is, s =>
    match s.fault with
    | some _ => .next s
    | none =>
      match exec i s with
      | .next t => runInstrs is t
      | .fault c => .fault c
      | .refused r => .refused r

/-- `MIX va, vb, vc, vd, mx, my` (R236). -/
def mixInstrs (a b c d x y : Fin 16) : List Instr :=
  [.add (.v a) (.v a) (.v b),
   .addp (.v a) (.m x),
   .xorp (.v d) (.v d),
   .rotr32 (.v d) (.v d),
   .addp (.v c) (.v c),
   .xorp (.v b) (.v b),
   .rotr24 (.v b) (.v b),
   .addp (.v a) (.v a),
   .addp (.v a) (.m y),
   .xorp (.v d) (.v d),
   .rotr16 (.v d) (.v d),
   .addp (.v c) (.v c),
   .xorp (.v b) (.v b),
   .rotr63 (.v b) (.v b)]

/-- Mix `j` of round `r` (R229, R230). -/
def roundMix (r : Nat) (j : Fin 8) : List Instr :=
  let (a, b, c, d) := abcd j
  let (x, y) := mixWords r j
  mixInstrs a b c d x y

/-- The 96 mixes of the twelve rounds (R228, R245). -/
def allMixes : List Instr :=
  (List.range 12).flatMap fun r => (List.finRange 8).flatMap (roundMix r)

/-- The state update `h_i = h_i ⊕ v_i ⊕ v_(i+8)` (R240). -/
def updateInstrs (i : Fin 8) : List Instr :=
  [.xor (.h i) (.h i) (.v ⟨i.val, by omega⟩), .xorp (.h i) (.v ⟨i.val + 8, by omega⟩)]

/-- `COMPRESS blk` (R245). -/
def compressInstrs (blk : BitVec 26) : List Instr :=
  .vinit blk :: (allMixes ++ (List.finRange 8).flatMap updateInstrs)

/-- `HASH` for the configuration `(N, kk)` (R103, R250). For a block index of 2^26 or more, which R93's
field cannot hold and for which the spec gives no word, the index is taken modulo 2^26 (DESIGN CHOICE, log
entry 20); only a configuration of more than `MAX_BLOCKS` blocks (R9) has one, and INIT ends its run before
any of these commands (R211). -/
def hashInstrs (n kk : Nat) : List Instr :=
  .init ::
    ((List.range (nblocks n kk)).flatMap fun b =>
      .ldblk (BitVec.ofNat 26 b) :: compressInstrs (BitVec.ofNat 26 b)) ++ [.out]

/-- The program of a sequence of commands (R90). -/
def assemble (is : List Instr) : List CommandWord := is.map encode

end Sys2Proof.Machine
end

