-- ==== Sys2Proof/Machine/HostOps.lean ====
section
/-! DEFINITION. What the host does (spec/60_exceptions.md R287, R288; spec/70_reset_and_hazards.md R303):
the operations that prepare a circuit instance, a run of the program to its end, and the entry point
`hash`. None of them is a command. The columns, selectors, gates and lookups that `configure` fixes are the
fixed definitions of Machine/State.lean and Machine/Accept.lean, so only its flag is state. -/

namespace Sys2Proof.Machine

/-! ## `configure` and `load` (R287) -/

/-- A fault of a host operation is reported with `pc = 0` (R287). -/
def hostFault (s : State) : State := { raiseFault .sequenceViolation s with pc := 0 }

/-- A host operation: it raises `SequenceViolation` out of order, and a machine with a fault recorded
stays as it is (R271; log entry 11). -/
def hostOperation (inOrder : Bool) (done s : State) : State :=
  match s.fault with
  | some _ => s
  | none => if inOrder then done else hostFault s

/-- `configure()` (R287). -/
def State.configure (s : State) : State :=
  hostOperation (!s.configured) { s with configured := true } s

/-- `load()` (R287); the tables are a function of `loaded` (log entry 6). -/
def State.load (s : State) : State :=
  hostOperation (s.configured && !s.loaded) { s with loaded := true } s

/-- The public input supplies the instance column (R35, R45). -/
def State.supplyInstance (s : State) (values : Vector (Fin s.params.fieldP) 64) : State :=
  { s with inst := values.map Fin.val }

/-! ## A run (R28, R288) -/

/-- So many steps, one after the other. -/
def runSteps : Nat → State → Host.Outcome State Fault Refusal
  | 0, s => .next s
  | n + 1, s =>
    match step s with
    | .next t => runSteps n t
    | .fault c => .fault c
    | .refused r => .refused r

/-- A run of the program to its end: every step advances `pc` by 1 or records a fault, and a run that has
ended stays as it is (R28, R271), so that one step for each command left is enough. -/
def State.run (s : State) : Host.Outcome State Fault Refusal := runSteps (s.program.length - s.pc) s

/-! ## `hash` (R288) -/

/-- The setting part of `hash(input_cells, key_cells, output_size)`: the state of R45 with the external
cells, the configuration and the HASH expansion for it. The phase flags, the instance column and the
parameters of the circuit instance stay (R36, R38, R45; log entry 16), and a machine with a fault recorded
stays as it is (R271; log entry 11). -/
def State.prepareHash (s : State) (input key : List (Fin s.params.fieldP)) (outputSize : Nat) : State :=
  match s.fault with
  | some _ => s
  | none =>
    { State.reset with
      program := assemble (hashInstrs input.length key.length)
      configured := s.configured
      loaded := s.loaded
      inst := s.inst
      x := input.map Fin.val
      y := key.map Fin.val
      params := { s.params with inputLen := input.length, outLen := outputSize } }

/-- `hash(input_cells, key_cells, output_size)`: the state its run ends in. -/
def State.hash (s : State) (input key : List (Fin s.params.fieldP)) (outputSize : Nat) :
    Host.Outcome State Fault Refusal :=
  (s.prepareHash input key outputSize).run

/-- What the host reads after a run: `Error(fault, pc)` where a fault is recorded (R273, R288), and
otherwise the cells `D[0..63]` with the bytes they hold; nothing where the run has produced no digest
(R28). -/
def State.reply (s : State) : Option (Except (Fault × Nat) (List Cell × List Byte)) :=
  match s.fault with
  | some c => some (.error (c, s.pc))
  | none => s.output.map .ok

end Sys2Proof.Machine
end

