-- ==== Sys2Proof/Machine/Accept.lean ====
section
/-! DEFINITION. The constraint layer's acceptance relation: the five gates and their lookups
(spec/41_decomposition.md R121; spec/42_addition.md R143; spec/43_xor.md R163; spec/44_rotation.md R190;
spec/45_negation.md R202), `Accept` (spec/10_state.md R40) and the honest witness (R41). -/

namespace Sys2Proof.Machine

/-- An assignment of a field element to every cell (R40). -/
abbrev Witness := Cell → Nat

/-- `q_dec` on row `r` (R121). -/
def gateDec (s : State) (w : Witness) (r : Nat) : Prop :=
  w (.f r) ≡ limbSum (fun i => w (.l i r)) [MOD s.params.fieldP] ∧
    ∀ i : Fin 8, w (.l i r) ∈ s.rangeTable

/-- `q_add` on row `r` (R143). -/
def gateAdd (p : Nat) (w : Witness) (r : Nat) : Prop :=
  (p : Int) ∣ (w (.f r) : Int) + w (.f (r + 1)) - w (.f (r + 2)) - w (.l 0 (r + 1)) * 2 ^ 64 ∧
    (p : Int) ∣ (w (.l 0 (r + 1)) : Int) * (1 - w (.l 0 (r + 1)))

/-- `q_xor` on row `r` (R163). -/
def gateXor (s : State) (w : Witness) (r : Nat) : Prop :=
  ∀ i : Fin 8, (w (.l i r), w (.l i (r + 1)), w (.l i (r + 2))) ∈ s.xorTable

/-- `q_rot63` on row `r` (R190). -/
def gateRot63 (p : Nat) (w : Witness) (r : Nat) : Prop :=
  (p : Int) ∣ 2 * (w (.f r) : Int) - w (.f (r + 2)) - w (.f (r + 1)) * (2 ^ 64 - 1) ∧
    (p : Int) ∣ (w (.f (r + 1)) : Int) * (1 - w (.f (r + 1)))

/-- `q_not` on row `r` (R202). -/
def gateNot (p : Nat) (w : Witness) (r : Nat) : Prop :=
  (p : Int) ∣ (w (.f r) : Int) + w (.f (r + 1)) - (2 ^ 64 - 1)

/-- The gate a selector enables (R30). -/
def gateHolds (s : State) (w : Witness) (q : Selector) (r : Nat) : Prop :=
  match q with
  | .qDec => gateDec s w r
  | .qAdd => gateAdd s.params.fieldP w r
  | .qXor => gateXor s w r
  | .qRot63 => gateRot63 s.params.fieldP w r
  | .qNot => gateNot s.params.fieldP w r

/-- Parts (a), (b) and (c) of R40, for a witness of field elements. A field element is its integer in
[0, `FIELD_P` − 1] (R12), so `w(c1) ≡ w(c2)` is equality. -/
structure Satisfies (s : State) (w : Witness) : Prop where
  /-- `w` assigns field elements. -/
  field : ∀ c, w c < s.params.fieldP
  /-- (a) every copy constraint. -/
  copies : ∀ q ∈ s.eq, w q.1 = w q.2
  /-- (b) every fixed cell. -/
  fixed : ∀ (r : Nat) (row : TraceRow) (a : Nat), s.trace[r]? = some row → row.k = some a → w (.k r) = a
  /-- (c) the gate of every selector set. -/
  gates : ∀ (r : Nat) (row : TraceRow) (q : Selector), s.trace[r]? = some row → row.sel.isSet q = true → gateHolds s w q r

/-- `Accept(trace, w, pub)` (R40), `pub` the `nn` public digest bytes; (d) binds the instance cells. The
backend's `Verify` answers `Accept` exactly when this holds (R276). -/
def Accept (s : State) (w : Witness) (pub : List Nat) : Prop :=
  Satisfies s w ∧ pub.length = s.params.outLen ∧
    ∀ k : Fin 64, k.val < s.params.outLen → pub[k.val]? = some (w (.inst k))

/-- The honest witness: a cell that holds a value has it, every other cell is free (R41). -/
def State.honest (s : State) (free : Witness) : Witness := fun c => (s.cell? c).getD (free c)

end Sys2Proof.Machine
end

