-- ==== Sys2Proof/Safety.lean ====
section
/-! DEFINITION. What claims are stated in terms of: when a command may run, what one command leaves
alone, and the invariants of the machine. -/

namespace Sys2Proof.Machine

/-- The tables are loaded and the gadget state accepts word commands (R280). -/
def ReadyForWords (s : State) : Prop := s.loaded = true ∧ acceptsWord s.gadget = true

/-- The trace has room for `n` more rows (R31, R319). -/
def Room (n : Nat) (s : State) : Prop := s.cur + n ≤ s.params.circuitRows

/-- The ten word commands (R280). -/
def isWordCommand (i : Instr) : Bool := i.dest?.isSome

/-! The permission table (R280), column by column: `none` is SV, and `some g` the gadget state after. -/

def permitInit : GadgetState → Option GadgetState
  | .uninitialized => some .constantsLoaded
  | .constantsLoaded => none
  | .processingBlock => none
  | .finalized => none

def permitLdblk : GadgetState → Option GadgetState
  | .uninitialized => none
  | .constantsLoaded => some .processingBlock
  | .processingBlock => some .processingBlock
  | .finalized => none

def permitVinit : GadgetState → Option GadgetState
  | .uninitialized => none
  | .constantsLoaded => none
  | .processingBlock => some .processingBlock
  | .finalized => none

def permitOut : GadgetState → Option GadgetState
  | .uninitialized => none
  | .constantsLoaded => none
  | .processingBlock => some .finalized
  | .finalized => none

def permitWord : GadgetState → Option GadgetState
  | .uninitialized => none
  | .constantsLoaded => some .constantsLoaded
  | .processingBlock => some .processingBlock
  | .finalized => none

/-- The column of the permission table for a command (R280). -/
def permission : Instr → GadgetState → Option GadgetState
  | .init => permitInit
  | .ldblk _ => permitLdblk
  | .vinit _ => permitVinit
  | .out => permitOut
  | .row _ _ | .add _ _ _ | .addp _ _ | .xor _ _ _ | .xorp _ _ | .not _ _ | .rotr16 _ _
  | .rotr24 _ _ | .rotr32 _ _ | .rotr63 _ _ => permitWord

/-- The rows a command emits when it completes (R318). -/
def rowCost (i : Instr) (s : State) : Nat :=
  match i with
  | .init => 10
  | .ldblk _ => 16
  | .vinit blk => if isFinalBlock s.params.inputLen s.keyLen blk.toNat then 3 else 1
  | .out => (List.finRange 8).countP fun j => s.h[j].any fun b => b.kind == .word
  | .row _ _ => 1
  | .add _ _ _ => 3
  | .addp _ _ => 2
  | .xor _ _ _ => 3
  | .xorp _ _ => 2
  | .not _ _ => 2
  | .rotr16 _ rs1 | .rotr24 _ rs1 | .rotr32 _ rs1 =>
    if (s.binding rs1).any (fun b => b.kind == .word) then 2 else 1
  | .rotr63 _ rs1 => if s.p.any (fun q => (s.binding rs1).any fun b => q.cell == b.cell) then 2 else 3

/-- The checks a command makes of the state after legality and R280 and before it emits a row (R278). -/
def ChecksPass (i : Instr) (s : State) : Prop :=
  match i with
  | .init => 1 ≤ s.params.outLen ∧ s.params.outLen ≤ 64 ∧ s.keyLen ≤ 64 ∧
      s.x.length = s.params.inputLen ∧ s.blockCount ≤ maxBlocks
  | .ldblk blk => blk.toNat < s.blockCount ∧ s.sourcesExist = true ∧
      (s.params.hostRangeCheck = true → ∀ k < 128, s.sourceValue (s.source blk.toNat k) < 256)
  | .vinit blk => blk.toNat < s.blockCount ∧ (∀ j : Fin 8, s.h[j] ≠ none) ∧ ∀ j : Fin 8, s.iv[j] ≠ none
  | .out => ∀ j : Fin 8, s.h[j] ≠ none
  | .addp _ rs2 => s.binding rs2 ≠ none ∧ s.p ≠ none
  | .xorp _ rs2 => s.binding rs2 ≠ none ∧ ∃ b, s.p = some b ∧ b.kind = .row
  | .add _ rs1 rs2 | .xor _ rs1 rs2 => s.binding rs1 ≠ none ∧ s.binding rs2 ≠ none
  | .row _ rs1 | .not _ rs1 | .rotr16 _ rs1 | .rotr24 _ rs1 | .rotr32 _ rs1 | .rotr63 _ rs1 =>
    s.binding rs1 ≠ none

/-- One row of the opcode map (R95): `match`, `mask`, and which operand fields the command uses. -/
structure OpcodeRow where
  bits : CommandWord
  mask : CommandWord
  usesRd : Bool
  usesRs1 : Bool
  usesRs2 : Bool
  deriving DecidableEq, Repr

/-- The opcode map (R95), as spec/opcode_table.json gives it. -/
def opcodeMap : List OpcodeRow :=
  [⟨0x04000000, 0xFFFFFFFF, false, false, false⟩,
   ⟨0x08000000, 0xFC000000, false, false, false⟩,
   ⟨0x0C000000, 0xFC000000, false, false, false⟩,
   ⟨0x10000000, 0xFFFFFFFF, false, false, false⟩,
   ⟨0x14000000, 0xFC003FFF, true, true, false⟩,
   ⟨0x20000000, 0xFC0000FF, true, true, true⟩,
   ⟨0x24000000, 0xFC0FC0FF, true, false, true⟩,
   ⟨0x28000000, 0xFC0000FF, true, true, true⟩,
   ⟨0x2C000000, 0xFC0FC0FF, true, false, true⟩,
   ⟨0x30000000, 0xFC003FFF, true, true, false⟩,
   ⟨0x40000000, 0xFC003FFF, true, true, false⟩,
   ⟨0x44000000, 0xFC003FFF, true, true, false⟩,
   ⟨0x48000000, 0xFC003FFF, true, true, false⟩,
   ⟨0x4C000000, 0xFC003FFF, true, true, false⟩]

/-- A word spells a command when `w & mask = match` for a row and the operand fields that the row uses
pass the checks of R97 (c) and (d): sources are below 48, the destination is below 40 (R95, R98). -/
def spellsCommand (w : CommandWord) : Prop :=
  ∃ row ∈ opcodeMap, w &&& row.mask = row.bits ∧
    (row.usesRd = true → (rdField w).toNat < 40) ∧
    (row.usesRs1 = true → (rs1Field w).toNat < 48) ∧
    (row.usesRs2 = true → (rs2Field w).toNat < 48)

/-! ## Frames -/

/-- What no command writes: the program, the phase flags, the external and instance cells and the
parameters (R36, R38, R39, R69, R77). -/
structure SameHost (s t : State) : Prop where
  program : t.program = s.program
  configured : t.configured = s.configured
  loaded : t.loaded = s.loaded
  inst : t.inst = s.inst
  x : t.x = s.x
  y : t.y = s.y
  params : t.params = s.params

/-- The trace and `Eq` only grow: the cells of every row there is keep their contents, assigned or not,
no selector of a row is cleared, and the copy constraints stand (R31, R34, R62). -/
structure Extends (s t : State) : Prop where
  rows : s.trace.length ≤ t.trace.length
  cells : ∀ (r : Nat) (row : TraceRow), s.trace[r]? = some row →
    ∃ row' : TraceRow, t.trace[r]? = some row' ∧ row'.f = row.f ∧ row'.l = row.l ∧ row'.k = row.k
  selectors : ∀ (r : Nat) (row row' : TraceRow) (q : Selector), s.trace[r]? = some row → t.trace[r]? = some row' →
    row.sel.isSet q = true → row'.sel.isSet q = true
  copies : s.eq <+: t.eq

/-- A run has come no further than its program's end (R28). -/
def PcInProgram (s : State) : Prop := s.pc ≤ s.program.length

/-! ## Invariants -/

/-- The widths the value layer gives the trace cells it assigns (R61): an F cell and a K cell hold a Word,
a limb cell a Byte. -/
def CellWidths (s : State) : Prop :=
  ∀ row ∈ s.trace, (∀ a, row.f = some a → a < 2 ^ 64) ∧
    (∀ (i : Fin 8) (a : Nat), row.l[i] = some a → a < 256) ∧ ∀ a, row.k = some a → a < 2 ^ 64

/-- The row a binding names exists, and it is a decomposed row exactly when the binding's kind says so
(R22). -/
def BindingRow (s : State) (b : Binding) : Prop :=
  ∃ row : TraceRow, s.trace[b.row]? = some row ∧ (row.sel.qDec = true ↔ b.kind = .row)

/-- Every binding names a row of its kind (R22), and `P`'s row is the last row emitted (R27). -/
def BindingRows (s : State) : Prop :=
  (∀ o b, s.binding o = some b → BindingRow s b) ∧
    ∀ b, s.p = some b → BindingRow s b ∧ b.row + 1 = s.cur

/-- The cells of a binding's row hold its value, and for a decomposed row its bytes (R22). -/
def BindingHolds (s : State) (b : Binding) : Prop :=
  ∃ row : TraceRow, s.trace[b.row]? = some row ∧ row.f = some b.val.toNat ∧
    (b.kind = .row → row.l = leLimbs b.val)

/-- Every binding's cell holds its value (R22). -/
def BindingValues (s : State) : Prop :=
  (∀ o b, s.binding o = some b → BindingHolds s b) ∧ ∀ b, s.p = some b → BindingHolds s b

/-- What the gadget state says of the rest of the state (R37, R45, R211, R212, R218): before INIT nothing
is bound; after it the preconditions hold, `iv` holds the IV constants, `h` is bound and `Z` is the zero
row; and once a block has been loaded `m` is bound. -/
structure GadgetInv (s : State) : Prop where
  before : s.gadget = .uninitialized →
    (∀ o, s.binding o = none) ∧ s.p = none ∧ s.z = none
  loaded : s.gadget ≠ .uninitialized → s.loaded = true
  sizes : s.gadget ≠ .uninitialized → 1 ≤ s.params.outLen ∧ s.params.outLen ≤ 64 ∧ s.keyLen ≤ 64 ∧
    s.x.length = s.params.inputLen ∧ s.blockCount ≤ maxBlocks
  iv : s.gadget ≠ .uninitialized → ∀ i : Fin 8, ∃ r, s.iv[i] = some ⟨ivWord i, r, .word⟩
  h : s.gadget ≠ .uninitialized → ∀ i : Fin 8, s.h[i].isSome = true
  z : s.gadget ≠ .uninitialized →
    ∃ (r : Nat) (row : TraceRow), s.z = some r ∧ s.trace[r]? = some row ∧ row.f = some 0
  m : s.gadget = .processingBlock ∨ s.gadget = .finalized → ∀ i : Fin 16, s.m[i].isSome = true

/-- The honest witness satisfies every constraint so far, whatever the free cells hold, but for the
instance copies; those exist only after OUT and tie digest byte cells (R41, R43, R248). -/
structure HonestInv (s : State) : Prop where
  copies : ∀ free, ∀ q ∈ s.eq, (∀ k, q.2 ≠ .inst k) → s.honest free q.1 = s.honest free q.2
  fixed : ∀ free (r : Nat) (row : TraceRow) (a : Nat), s.trace[r]? = some row → row.k = some a → s.honest free (.k r) = a
  gates : ∀ free (r : Nat) (row : TraceRow) (q : Selector), s.trace[r]? = some row → row.sel.isSet q = true →
    gateHolds s (s.honest free) q r
  instances : ∀ q ∈ s.eq, ∀ k, q.2 = .inst k →
    s.gadget = .finalized ∧ k.val < s.params.outLen ∧ s.digestCell? k = some q.1

/-- A witness that holds the machine's own input and key values. -/
def AgreesOnInputs (s : State) (w : Witness) : Prop :=
  (∀ i a, s.x[i]? = some a → w (.x i) = a) ∧ ∀ i a, s.y[i]? = some a → w (.y i) = a

/-- In every witness that satisfies the constraints, the cell of every binding holds a Word, and the zero
cell holds 0 (R127, R212). -/
def RangeInv (s : State) : Prop :=
  ∀ w, Satisfies s w →
    (∀ o b, s.binding o = some b → w b.cell < 2 ^ 64) ∧
    (∀ b, s.p = some b → w b.cell < 2 ^ 64) ∧
    ∀ z, s.z = some z → w (.f z) = 0

/-- The constraints determine the values: a witness that satisfies them and holds the machine's inputs
has in every binding's cell the value the machine computed (R44). -/
def Determined (s : State) : Prop :=
  ∀ w, Satisfies s w → AgreesOnInputs s w →
    (∀ o b, s.binding o = some b → w b.cell = b.val.toNat) ∧
    ∀ b, s.p = some b → w b.cell = b.val.toNat

/-- OUT has tied every digest byte cell it exposes to its instance cell (R248, R249). -/
def DigestExposed (s : State) : Prop :=
  s.gadget = .finalized →
    (∀ j : Fin 8, ∃ b, s.h[j] = some b ∧ b.kind = .row) ∧
    ∀ k : Fin 64, k.val < s.params.outLen →
      ∃ d, s.digestCell? k = some d ∧ (d, Cell.inst k) ∈ s.eq

end Sys2Proof.Machine
end

