-- ==== Sys2Proof/Certificates/Slice0/Obligations.lean ====
section
/-! DEFINITION. The statements about B2C-v7, from the numbered rules of spec/. Each docstring says which
rule a statement formalises; where it rests on a choice of the model, the docstring names the log entry. -/

open Sys2Proof Sys2Proof.Machine

/-! ## Encoding -/

/-- R91–R94, R100: decoding the word of a legal command gives the command back, with every operand at
every value its field admits. -/
def Obligations.DecodeEncodeRoundTrip : Prop :=
  ∀ i : Instr, i.wf = true → decode (encode i) = .ok i

/-- R91–R94: a word that decodes is the word of the legal command it decodes to. -/
def Obligations.DecodedWordIsItsEncoding : Prop :=
  ∀ (w : CommandWord) (i : Instr), decode w = .ok i → i.wf = true ∧ encode i = w

/-- R95, R97: the words that decode are exactly those the opcode map spells. -/
def Obligations.LegalWordsAreTheOpcodeMap : Prop :=
  ∀ w : CommandWord, (∃ i, decode w = .ok i) ↔ spellsCommand w

/-- R104: the worked encodings, in both directions. -/
def Obligations.WorkedWordsDecode : Prop :=
  ∀ q ∈ [((0x04000000 : CommandWord), Instr.init),
      (0x08000000, .ldblk 0),
      (0x08000005, .ldblk 5),
      (0x0C000001, .vinit 1),
      (0x10000000, .out),
      (0x20000400, .add (.v 0) (.v 0) (.v 4)),
      (0x24001000, .addp (.v 0) (.m 0)),
      (0x2CC00C00, .xorp (.v 12) (.v 12)),
      (0x48C30000, .rotr32 (.v 12) (.v 12)),
      (0x4C410000, .rotr63 (.v 4) (.v 4)),
      (0x30EB8000, .not (.v 14) (.iv 6)),
      (0x16080000, .row (.h 0) (.h 0)),
      (0x2A080000, .xor (.h 0) (.h 0) (.v 0)),
      (0x2E000800, .xorp (.h 0) (.v 8))],
    decode q.1 = .ok q.2 ∧ encode q.2 = q.1

/-! ## Stepping, faults and the start state -/

/-- R90: a step of a machine without a fault runs the command its program holds at `pc`. The second
clause rests on the model's own helper `withFetchWord` (DESIGN CHOICE, log entry 9), of which no rule
speaks: the word it places is run by the very next step. -/
def Obligations.StepRunsDecodedCommand : Prop :=
  (∀ (s : State) (w : CommandWord) (i : Instr), s.fault = none → s.program[s.pc]? = some w →
    decode w = .ok i → step s = exec i s) ∧
  ∀ (s : State) (nbits w : Nat) (i : Instr), decodeTableWord nbits w = some i →
    step (s.withFetchWord nbits w) = exec i (s.withFetchWord nbits w)

/-- R97: executing an illegal word raises `IllegalCommand` with no other effect. The second clause rests on
log entry 18 (DEDUCED): a term whose destination is an `iv` operand, which no word decodes to and of which
R97 does not speak, does the same. -/
def Obligations.IllegalCommandsFault : Prop :=
  (∀ (s : State) (w : CommandWord) (e : DecodeError), s.fault = none →
    s.program[s.pc]? = some w → decode w = .error e →
    step s = .next { s with fault := some .illegalCommand }) ∧
  ∀ (s : State) (i : Instr), i.wf = false →
    exec i s = .next { s with fault := some .illegalCommand }

/-- R42, R271, R274, R275: a step that records a fault changes nothing else, so `pc` still names the
command; a state with a fault recorded is returned unchanged by a step and by every sequence of commands;
and a sequence goes on from where its first part ends only when that part has recorded no fault. -/
def Obligations.FaultsArePreciseAndFinal : Prop :=
  (∀ s t : State, s.fault = none → step s = .next t → t.fault ≠ none →
    ∃ c, t = { s with fault := some c }) ∧
  (∀ s : State, s.fault ≠ none → step s = .next s) ∧
  (∀ (is : List Instr) (s : State), s.fault ≠ none → runInstrs is s = .next s) ∧
  ∀ (is js : List Instr) (s t : State), runInstrs is s = .next t →
    (t.fault ≠ none → runInstrs (is ++ js) s = .next t) ∧
    (t.fault = none → runInstrs (is ++ js) s = runInstrs js t)

/-- R28, R271, R282: a command always answers a next state, in which `pc` has advanced by exactly 1 or a
fault is recorded. -/
def Obligations.CommandsAdvanceOrFault : Prop :=
  ∀ (i : Instr) (s : State), ∃ t, exec i s = .next t ∧
    (t.pc = s.pc + 1 ∧ t.fault = s.fault ∨ ∃ c, t = { s with fault := some c })

/-- R45: the start state. What R45 leaves to the host is not stated here. -/
def Obligations.StartState : Prop :=
  (∀ o, State.reset.binding o = none) ∧ State.reset.p = none ∧ State.reset.pc = 0 ∧
  State.reset.gadget = .uninitialized ∧ State.reset.configured = false ∧
  State.reset.loaded = false ∧ State.reset.fault = none ∧ State.reset.trace = [] ∧
  State.reset.cur = 0 ∧ State.reset.eq = [] ∧ State.reset.z = none ∧
  State.reset.rangeTable = [] ∧ State.reset.xorTable = []

/-- R36, R66, R67, R287: `configure` and then `load` set the two phase flags, each once, and fill the
tables; out of order they raise `SequenceViolation`, reported with `pc = 0`. R288: `hash` sets the cells, the
configuration and the program, and starts at R45's state; a run that faults is answered `Error(fault, pc)`,
here where the tables are not loaded and where a size is out of range (R211, R252). That the phase flags
stay as they are is log entry 16 (DEDUCED); which words the program holds for a block index of 2^26 or more
is the model's choice (DESIGN CHOICE, log entry 20), and none of them runs. -/
def Obligations.HostPreparesTheMachine : Prop :=
  ∀ s : State, s.fault = none →
    (s.configured = false → s.configure = { s with configured := true }) ∧
    (s.configured = true → s.configure = { s with fault := some .sequenceViolation, pc := 0 }) ∧
    (s.configured = true → s.loaded = false → s.load = { s with loaded := true } ∧
      s.load.rangeTable.length = 256 ∧ (∀ i < 256, s.load.rangeTable[i]? = some i) ∧
      s.load.xorTable.length = 65536 ∧
      ∀ a < 256, ∀ b < 256, s.load.xorTable[256 * a + b]? = some (a, b, a ^^^ b)) ∧
    (s.configured = false ∨ s.loaded = true →
      s.load = { s with fault := some .sequenceViolation, pc := 0 }) ∧
    ∀ (input key : List (Fin s.params.fieldP)) (nn : Nat),
      ((s.prepareHash input key nn).x = input.map Fin.val ∧
        (s.prepareHash input key nn).y = key.map Fin.val ∧
        (s.prepareHash input key nn).params.inputLen = input.length ∧
        (s.prepareHash input key nn).keyLen = key.length ∧
        (s.prepareHash input key nn).params.outLen = nn ∧
        (s.prepareHash input key nn).program = assemble (hashInstrs input.length key.length) ∧
        (s.prepareHash input key nn).pc = 0 ∧ (s.prepareHash input key nn).cur = 0 ∧
        (s.prepareHash input key nn).gadget = .uninitialized) ∧
      ∃ t, s.hash input key nn = .next t ∧
        (s.loaded = false → t.reply = some (.error (.sequenceViolation, 0))) ∧
        (s.loaded = true → ¬ (1 ≤ nn ∧ nn ≤ 64) →
          t.reply = some (.error (.preconditionOutputSize, 0))) ∧
        (s.loaded = true → 1 ≤ nn → nn ≤ 64 → 64 < key.length →
          t.reply = some (.error (.preconditionKeySize, 0)))

/-- R280: a command that the permission table does not accept raises `SequenceViolation` and has no other
effect; one that it accepts runs its own rule, which never raises `SequenceViolation`; and one that completes
was accepted, and leaves the gadget state the table gives. -/
def Obligations.PermissionTable : Prop :=
  ∀ (i : Instr) (s : State), i.wf = true →
    (s.loaded = false ∨ permission i s.gadget = none →
      exec i s = .next { s with fault := some .sequenceViolation }) ∧
    (s.loaded = true → permission i s.gadget ≠ none →
      exec i s ≠ .next { s with fault := some .sequenceViolation }) ∧
    ∀ t, s.fault = none → exec i s = .next t → t.fault = none →
      s.loaded = true ∧ permission i s.gadget = some t.gadget

/-- R23, R278: an accepted word command with an unbound source raises `UnboundOperand` and has no other
effect, whatever `P` holds. -/
def Obligations.UnboundSourcesFault : Prop :=
  ∀ (i : Instr) (s : State) (o : Operand), i.wf = true → ReadyForWords s → o ∈ i.sources →
    s.binding o = none → exec i s = .next { s with fault := some .unboundOperand }

/-- R148, R169, R306: a reuse command whose `P` is unusable raises `ReuseHazard`: ADDP when `P` holds
nothing, XORP when `P` holds nothing or a binding of kind `Word`. -/
def Obligations.ReuseHazards : Prop :=
  ∀ (rd rs2 : Operand) (s : State), rd.writable = true → ReadyForWords s →
    s.binding rs2 ≠ none →
    (s.p = none → exec (.addp rd rs2) s = .next { s with fault := some .reuseHazard }) ∧
    ((∀ b, s.p = some b → b.kind = .word) →
      exec (.xorp rd rs2) s = .next { s with fault := some .reuseHazard })

/-- R211, R278: INIT's preconditions, each reported only when those before it hold. -/
def Obligations.InitPreconditionFaults : Prop :=
  ∀ s : State, s.loaded = true → s.gadget = .uninitialized →
    (¬ (1 ≤ s.params.outLen ∧ s.params.outLen ≤ 64) →
      exec .init s = .next { s with fault := some .preconditionOutputSize }) ∧
    (1 ≤ s.params.outLen ∧ s.params.outLen ≤ 64 →
      (64 < s.keyLen → exec .init s = .next { s with fault := some .preconditionKeySize }) ∧
      (s.keyLen ≤ 64 →
        (s.x.length ≠ s.params.inputLen →
          exec .init s = .next { s with fault := some .internalInvariant }) ∧
        (s.x.length = s.params.inputLen → maxBlocks < s.blockCount →
          exec .init s = .next { s with fault := some .preconditionInputLength })))

/-- R218, R220, R226, R278: `BadBlockIndex` for LDBLK and VINIT, and after it `RangeViolation` for LDBLK
when the host check is on and some source holds no Byte. -/
def Obligations.BlockCommandFaults : Prop :=
  ∀ (blk : BitVec 26) (s : State), s.loaded = true →
    (s.blockCount ≤ blk.toNat → s.gadget = .processingBlock →
      exec (.vinit blk) s = .next { s with fault := some .badBlockIndex }) ∧
    (s.gadget = .constantsLoaded ∨ s.gadget = .processingBlock →
      (s.blockCount ≤ blk.toNat →
        exec (.ldblk blk) s = .next { s with fault := some .badBlockIndex }) ∧
      (blk.toNat < s.blockCount → s.sourcesExist = true → s.params.hostRangeCheck = true →
        (∃ k < 128, 256 ≤ s.sourceValue (s.source blk.toNat k)) →
        exec (.ldblk blk) s = .next { s with fault := some .rangeViolation }))

/-- R31, R278, R319: an accepted command whose other checks pass and whose rows do not all fit in the trace
raises `InternalInvariant` and has no other effect, whether the trace is full before its first row or after a
later one. Only ADDP and XORP need anything of `P`. The checks of LDBLK and VINIT include those of log entry
8, which pass in every state a run reaches. -/
def Obligations.FullTraceFaults : Prop :=
  ∀ (i : Instr) (s : State), i.wf = true → s.loaded = true → permission i s.gadget ≠ none →
    ChecksPass i s → 0 < rowCost i s → s.params.circuitRows < s.cur + rowCost i s →
    exec i s = .next { s with fault := some .internalInvariant }

/-! ## What each command does -/

/-- R123, R124. -/
def Obligations.RowCompletes : Prop :=
  ∀ (rd rs1 : Operand) (b : Binding) (s : State), rd.writable = true → ReadyForWords s →
    s.binding rs1 = some b → Room 1 s →
    exec (.row rd rs1) s = .next { s.bind rd ⟨b.val, s.cur, .row⟩ with
      p := some ⟨b.val, s.cur, .row⟩
      pc := s.pc + 1
      cur := s.cur + 1
      trace := s.trace ++
        [{ f := some b.val.toNat, l := leLimbs b.val, k := none, sel := { qDec := true } }]
      eq := s.eq ++ [(.f s.cur, b.cell)] }

/-- R140–R142, R146: the sum modulo 2^64, the carry cell 1 exactly when the true sum is 2^64 or more, and
the rows and constraints of the addition. -/
def Obligations.AddCompletes : Prop :=
  ∀ (rd rs1 rs2 : Operand) (a b : Binding) (s : State), rd.writable = true → ReadyForWords s →
    s.binding rs1 = some a → s.binding rs2 = some b → Room 3 s → s.traceWf = true →
    exec (.add rd rs1 rs2) s = .next { s.bind rd ⟨a.val + b.val, s.cur + 2, .row⟩ with
      p := some ⟨a.val + b.val, s.cur + 2, .row⟩
      pc := s.pc + 1
      cur := s.cur + 3
      trace := s.trace ++
        [{ f := some a.val.toNat, l := noLimbs, k := none, sel := { qAdd := true } },
         { f := some b.val.toNat,
           l := noLimbs.set 0 (some (if 2 ^ 64 ≤ a.val.toNat + b.val.toNat then 1 else 0)),
           k := none, sel := {} },
         { f := some ((a.val.toNat + b.val.toNat) % 2 ^ 64), l := leLimbs (a.val + b.val),
           k := none, sel := { qDec := true } }]
      eq := s.eq ++ [(.f s.cur, a.cell), (.f (s.cur + 1), b.cell)] }

/-- R141, R142, R148: ADDP adds to `P`, whose row `cur − 1` (R27) gets the selector. -/
def Obligations.AddpCompletes : Prop :=
  ∀ (rd rs2 : Operand) (a b : Binding) (s : State), rd.writable = true → ReadyForWords s →
    s.p = some a → a.row + 1 = s.cur → s.binding rs2 = some b → Room 2 s → s.traceWf = true →
    exec (.addp rd rs2) s = .next { s.bind rd ⟨a.val + b.val, s.cur + 1, .row⟩ with
      p := some ⟨a.val + b.val, s.cur + 1, .row⟩
      pc := s.pc + 1
      cur := s.cur + 2
      trace := s.trace.modify a.row (fun row => { row with sel := row.sel.enable .qAdd }) ++
        [{ f := some b.val.toNat,
           l := noLimbs.set 0 (some (if 2 ^ 64 ≤ a.val.toNat + b.val.toNat then 1 else 0)),
           k := none, sel := {} },
         { f := some ((a.val.toNat + b.val.toNat) % 2 ^ 64), l := leLimbs (a.val + b.val),
           k := none, sel := { qDec := true } }]
      eq := s.eq ++ [(.f s.cur, b.cell)] }

/-- R161, R167. -/
def Obligations.XorCompletes : Prop :=
  ∀ (rd rs1 rs2 : Operand) (a b : Binding) (s : State), rd.writable = true → ReadyForWords s →
    s.binding rs1 = some a → s.binding rs2 = some b → Room 3 s → s.traceWf = true →
    exec (.xor rd rs1 rs2) s = .next { s.bind rd ⟨a.val ^^^ b.val, s.cur + 2, .row⟩ with
      p := some ⟨a.val ^^^ b.val, s.cur + 2, .row⟩
      pc := s.pc + 1
      cur := s.cur + 3
      trace := s.trace ++
        [{ f := some a.val.toNat, l := leLimbs a.val, k := none,
           sel := { qDec := true, qXor := true } },
         { f := some b.val.toNat, l := leLimbs b.val, k := none, sel := { qDec := true } },
         { f := some (a.val.toNat ^^^ b.val.toNat), l := leLimbs (a.val ^^^ b.val), k := none,
           sel := { qDec := true } }]
      eq := s.eq ++ [(.f s.cur, a.cell), (.f (s.cur + 1), b.cell)] }

/-- R161, R169: XORP takes `P`, of kind `Row`, as its lhs. -/
def Obligations.XorpCompletes : Prop :=
  ∀ (rd rs2 : Operand) (a b : Binding) (s : State), rd.writable = true → ReadyForWords s →
    s.p = some a → a.kind = .row → a.row + 1 = s.cur → s.binding rs2 = some b → Room 2 s →
    s.traceWf = true →
    exec (.xorp rd rs2) s = .next { s.bind rd ⟨a.val ^^^ b.val, s.cur + 1, .row⟩ with
      p := some ⟨a.val ^^^ b.val, s.cur + 1, .row⟩
      pc := s.pc + 1
      cur := s.cur + 2
      trace := s.trace.modify a.row (fun row => { row with sel := row.sel.enable .qXor }) ++
        [{ f := some b.val.toNat, l := leLimbs b.val, k := none, sel := { qDec := true } },
         { f := some (a.val.toNat ^^^ b.val.toNat), l := leLimbs (a.val ^^^ b.val), k := none,
           sel := { qDec := true } }]
      eq := s.eq ++ [(.f s.cur, b.cell)] }

/-- R200, R201, R205: the complement `2^64 − 1 − x`, of kind `Word`. -/
def Obligations.NotCompletes : Prop :=
  ∀ (rd rs1 : Operand) (x : Binding) (s : State), rd.writable = true → ReadyForWords s →
    s.binding rs1 = some x → Room 2 s → s.traceWf = true →
    exec (.not rd rs1) s = .next { s.bind rd ⟨~~~x.val, s.cur + 1, .word⟩ with
      p := some ⟨~~~x.val, s.cur + 1, .word⟩
      pc := s.pc + 1
      cur := s.cur + 2
      trace := s.trace ++
        [{ f := some x.val.toNat, l := noLimbs, k := none, sel := { qNot := true } },
         { f := some (2 ^ 64 - 1 - x.val.toNat), l := noLimbs, k := none, sel := {} }]
      eq := s.eq ++ [(.f s.cur, x.cell)] }

/-- R181, R183, R186–R188: ROTR16, ROTR24 and ROTR32 of a source of kind `Row` emit one row, whose limbs
are tied to the source row's limbs. -/
def Obligations.LimbRotationsCompleteFromRow : Prop :=
  ∀ (rd rs1 : Operand) (i : Instr) (k : Fin 8) (b : Binding) (s : State),
    (i, k) ∈ [(Instr.rotr16 rd rs1, (2 : Fin 8)), (.rotr24 rd rs1, 3), (.rotr32 rd rs1, 4)] →
    rd.writable = true → ReadyForWords s → s.binding rs1 = some b → b.kind = .row → Room 1 s →
    exec i s = .next { s.bind rd ⟨rotr b.val (8 * k), s.cur, .row⟩ with
      p := some ⟨rotr b.val (8 * k), s.cur, .row⟩
      pc := s.pc + 1
      cur := s.cur + 1
      trace := s.trace ++ [{ f := some (rotr b.val (8 * k)).toNat, l := leLimbs (rotr b.val (8 * k)),
                             k := none, sel := { qDec := true } }]
      eq := s.eq ++ (List.finRange 8).map fun j => (.l j s.cur, .l (j + k) b.row) }

/-- R181, R183, R186–R188: from a source of kind `Word` they first emit a decomposed copy of it. -/
def Obligations.LimbRotationsCompleteFromWord : Prop :=
  ∀ (rd rs1 : Operand) (i : Instr) (k : Fin 8) (b : Binding) (s : State),
    (i, k) ∈ [(Instr.rotr16 rd rs1, (2 : Fin 8)), (.rotr24 rd rs1, 3), (.rotr32 rd rs1, 4)] →
    rd.writable = true → ReadyForWords s → s.binding rs1 = some b → b.kind = .word → Room 2 s →
    exec i s = .next { s.bind rd ⟨rotr b.val (8 * k), s.cur + 1, .row⟩ with
      p := some ⟨rotr b.val (8 * k), s.cur + 1, .row⟩
      pc := s.pc + 1
      cur := s.cur + 2
      trace := s.trace ++
        [{ f := some b.val.toNat, l := leLimbs b.val, k := none, sel := { qDec := true } },
         { f := some (rotr b.val (8 * k)).toNat, l := leLimbs (rotr b.val (8 * k)), k := none,
           sel := { qDec := true } }]
      eq := s.eq ++ (.f s.cur, b.cell) ::
        (List.finRange 8).map fun j => (.l j (s.cur + 1), .l (j + k) s.cur) }

/-- R189, R191, R193: ROTR63 of the operand `P` is bound to works on `P`'s row in place. -/
def Obligations.Rotr63CompletesInPlace : Prop :=
  ∀ (rd rs1 : Operand) (a b : Binding) (s : State), rd.writable = true → ReadyForWords s →
    s.binding rs1 = some b → s.p = some a → a.cell = b.cell → a.row + 1 = s.cur → Room 2 s →
    s.traceWf = true →
    exec (.rotr63 rd rs1) s = .next { s.bind rd ⟨rotr b.val 63, s.cur + 1, .row⟩ with
      p := some ⟨rotr b.val 63, s.cur + 1, .row⟩
      pc := s.pc + 1
      cur := s.cur + 2
      trace := s.trace.modify a.row (fun row => { row with sel := row.sel.enable .qRot63 }) ++
        [{ f := some (if 2 ^ 63 ≤ b.val.toNat then 1 else 0), l := noLimbs, k := none, sel := {} },
         { f := some (rotr b.val 63).toNat, l := leLimbs (rotr b.val 63), k := none,
           sel := { qDec := true } }] }

/-- R189, R191, R193: of any other operand it works on a new copy. -/
def Obligations.Rotr63CompletesOnCopy : Prop :=
  ∀ (rd rs1 : Operand) (b : Binding) (s : State), rd.writable = true → ReadyForWords s →
    s.binding rs1 = some b → (∀ a, s.p = some a → a.cell ≠ b.cell) → Room 3 s →
    s.traceWf = true →
    exec (.rotr63 rd rs1) s = .next { s.bind rd ⟨rotr b.val 63, s.cur + 2, .row⟩ with
      p := some ⟨rotr b.val 63, s.cur + 2, .row⟩
      pc := s.pc + 1
      cur := s.cur + 3
      trace := s.trace ++
        [{ f := some b.val.toNat, l := noLimbs, k := none, sel := { qRot63 := true } },
         { f := some (if 2 ^ 63 ≤ b.val.toNat then 1 else 0), l := noLimbs, k := none, sel := {} },
         { f := some (rotr b.val 63).toNat, l := leLimbs (rotr b.val 63), k := none,
           sel := { qDec := true } }]
      eq := s.eq ++ [(.f s.cur, b.cell)] }

/-- R210–R214: INIT with its preconditions met: ten constant rows, `iv`, `h` and `Z` bound. -/
def Obligations.InitCompletes : Prop :=
  ∀ s : State, s.loaded = true → s.gadget = .uninitialized → 1 ≤ s.params.outLen →
    s.params.outLen ≤ 64 → s.keyLen ≤ 64 → s.x.length = s.params.inputLen →
    s.blockCount ≤ maxBlocks → Room 10 s →
    ∃ t, exec .init s = .next t ∧ t.pc = s.pc + 1 ∧ t.cur = s.cur + 10 ∧
      t.gadget = .constantsLoaded ∧ t.p = none ∧ t.z = some (s.cur + 9) ∧
      (∀ i : Fin 8, t.iv[i] = some ⟨ivWord i, s.cur + i, .word⟩) ∧
      t.h[0] = some ⟨paramWord s.keyLen s.params.outLen, s.cur + 8, .word⟩ ∧
      (∀ i : Fin 8, i ≠ 0 → t.h[i] = t.iv[i]) ∧
      t.trace = s.trace ++ ((List.finRange 8).map ivWord ++
          [paramWord s.keyLen s.params.outLen, 0]).map
        (fun a => { f := some a.toNat, l := noLimbs, k := some a.toNat, sel := {} }) ∧
      t.eq = s.eq ++ (List.range 10).map (fun n => (.f (s.cur + n), .k (s.cur + n)))

/-- R64, R217, R218, R220: LDBLK with its checks passed: sixteen decomposed rows whose limbs hold the
block's sources and are tied to them, and `m0..m15` bound to them. Where every limb of a word is a Byte
the word is their little-endian sum; with `HOST_RANGE_CHECK` off a word of other field elements has the
sum modulo `FIELD_P` in its F cell, and its binding rests on log entry 7 where that is no Word. -/
def Obligations.LdblkCompletes : Prop :=
  ∀ (blk : BitVec 26) (s : State), s.loaded = true →
    (s.gadget = .constantsLoaded ∨ s.gadget = .processingBlock) → blk.toNat < s.blockCount →
    s.sourcesExist = true → Room 16 s →
    (s.params.hostRangeCheck = true → ∀ k < 128, s.sourceValue (s.source blk.toNat k) < 256) →
    ∃ t, exec (.ldblk blk) s = .next t ∧ t.pc = s.pc + 1 ∧ t.cur = s.cur + 16 ∧
      t.gadget = .processingBlock ∧ t.p = none ∧
      (∃ rows : Fin 16 → TraceRow, t.trace = s.trace ++ (List.finRange 16).map rows ∧
        ∀ j : Fin 16, (rows j).k = none ∧ (rows j).sel = { qDec := true } ∧
          (∀ i : Fin 8, (rows j).l[i] =
            some (s.sourceValue (s.source blk.toNat (8 * j.val + i.val)))) ∧
          ((∀ i : Fin 8, s.sourceValue (s.source blk.toNat (8 * j.val + i.val)) < 256) →
            (rows j).f = some (limbSum fun i =>
              s.sourceValue (s.source blk.toNat (8 * j.val + i.val))) ∧
            t.m[j] = some ⟨BitVec.ofNat 64 (limbSum fun i =>
              s.sourceValue (s.source blk.toNat (8 * j.val + i.val))), s.cur + j.val, .row⟩) ∧
          (¬ (∀ i : Fin 8, s.sourceValue (s.source blk.toNat (8 * j.val + i.val)) < 256) →
            (rows j).f = some (limbSum (fun i =>
              s.sourceValue (s.source blk.toNat (8 * j.val + i.val))) % s.params.fieldP) ∧
            ∃ a, t.m[j] = some ⟨a, s.cur + j.val, .row⟩)) ∧
      t.eq = s.eq ++ (List.finRange 16).flatMap fun j => (List.finRange 8).map fun i =>
        (.l i (s.cur + j.val), s.sourceCell (s.source blk.toNat (8 * j.val + i.val)))

/-- R221–R226: VINIT of a block that is not the final one, with `h` and `iv` bound: one constant row. -/
def Obligations.VinitCompletes : Prop :=
  ∀ (blk : BitVec 26) (s : State), s.loaded = true → s.gadget = .processingBlock →
    blk.toNat + 1 < s.blockCount → (∀ i : Fin 8, s.h[i] ≠ none) → (∀ i : Fin 8, s.iv[i] ≠ none) →
    Room 1 s →
    exec (.vinit blk) s = .next { s with
      v := #v[s.h[0], s.h[1], s.h[2], s.h[3], s.h[4], s.h[5], s.h[6], s.h[7],
              s.iv[0], s.iv[1], s.iv[2], s.iv[3],
              some ⟨ivWord 4 ^^^ BitVec.ofNat 64 (128 * (blk.toNat + 1)), s.cur, .word⟩,
              s.iv[5], s.iv[6], s.iv[7]]
      p := none
      pc := s.pc + 1
      cur := s.cur + 1
      trace := s.trace ++
        [fixedRow (ivWord 4 ^^^ BitVec.ofNat 64 (128 * (blk.toNat + 1)))]
      eq := s.eq ++ [(.f s.cur, .k s.cur)] }

/-- R221–R226: VINIT of the final block: the counter is the input length, plus 128 with a key, and `v14` is
a new negation of `iv6`. -/
def Obligations.VinitOfFinalBlockCompletes : Prop :=
  ∀ (blk : BitVec 26) (x : Binding) (s : State), s.loaded = true → s.gadget = .processingBlock →
    blk.toNat + 1 = s.blockCount → (∀ i : Fin 8, s.h[i] ≠ none) → (∀ i : Fin 8, s.iv[i] ≠ none) →
    s.iv[6] = some x → Room 3 s → s.traceWf = true →
    exec (.vinit blk) s = .next { s with
      v := #v[s.h[0], s.h[1], s.h[2], s.h[3], s.h[4], s.h[5], s.h[6], s.h[7],
              s.iv[0], s.iv[1], s.iv[2], s.iv[3],
              some ⟨ivWord 4 ^^^ BitVec.ofNat 64
                (s.params.inputLen + if 0 < s.keyLen then 128 else 0), s.cur, .word⟩,
              s.iv[5], some ⟨~~~x.val, s.cur + 2, .word⟩, s.iv[7]]
      p := none
      pc := s.pc + 1
      cur := s.cur + 3
      trace := s.trace ++
        [fixedRow (ivWord 4 ^^^ BitVec.ofNat 64
           (s.params.inputLen + if 0 < s.keyLen then 128 else 0)),
         { f := some x.val.toNat, l := noLimbs, k := none, sel := { qNot := true } },
         { f := some (2 ^ 64 - 1 - x.val.toNat), l := noLimbs, k := none, sel := {} }]
      eq := s.eq ++ [(.f s.cur, .k s.cur), (.f (s.cur + 1), x.cell)] }

/-- R65, R248, R249: OUT with `h` bound: every `h_j` is then of kind `Row` with its value kept (its binding
unchanged if it was of kind `Row`), the digest bytes are the bytes of `h` in order, and exactly the
instance cells below `nn` are tied, each to its digest byte cell. -/
def Obligations.OutCompletes : Prop :=
  ∀ s : State, s.loaded = true → s.gadget = .processingBlock → (∀ j : Fin 8, s.h[j] ≠ none) →
    Room 8 s →
    ∃ t, exec .out s = .next t ∧ t.pc = s.pc + 1 ∧ t.gadget = .finalized ∧ t.p = none ∧
      (∀ (j : Fin 8) (b : Binding), s.h[j] = some b →
        ∃ r, t.h[j] = some ⟨b.val, r, .row⟩ ∧ (b.kind = .row → r = b.row) ∧
          (b.kind = .word → s.cur ≤ r ∧ (.f r, b.cell) ∈ t.eq)) ∧
      (∀ (k : Fin 64) (b : Binding), t.h[k.val / 8] = some b →
        t.digestCell? k = some (.l ⟨k.val % 8, by omega⟩ b.row) ∧
        t.digestByte? k = some (byteAt b.val ⟨k.val % 8, by omega⟩)) ∧
      ∃ rest, t.eq = s.eq ++ rest ++ ((List.finRange 64).filter
            (fun k => decide (k.val < s.params.outLen))).filterMap
          (fun k => (t.digestCell? k).map fun d => (d, .inst k)) ∧
        ∀ q ∈ rest, ∀ k, q.1 ≠ .inst k ∧ q.2 ≠ .inst k

/-- R318: the rows each command emits when it completes. -/
def Obligations.RowCosts : Prop :=
  ∀ (i : Instr) (s t : State), s.fault = none → exec i s = .next t → t.fault = none →
    t.cur = s.cur + rowCost i s

/-- R149, R170: where `P` is what an operand holds, ADDP and ADD write the same value, and XORP and XOR
write the same value. -/
def Obligations.ReuseComputesTheSameValue : Prop :=
  ∀ (rd q rs2 : Operand) (s t u : State), s.p = s.binding q → s.fault = none →
    t.fault = none → u.fault = none →
    ((exec (.addp rd rs2) s = .next t → exec (.add rd q rs2) s = .next u →
      (t.binding rd).map Binding.val = (u.binding rd).map Binding.val) ∧
    (exec (.xorp rd rs2) s = .next t → exec (.xor rd q rs2) s = .next u →
      (t.binding rd).map Binding.val = (u.binding rd).map Binding.val))

/-! ## Values -/

/-- R63: a decomposed row's Word is the little-endian sum of its limb bytes. -/
def Obligations.LimbsAreLittleEndian : Prop :=
  ∀ a : Word, (∀ i : Fin 8, (leLimbs a)[i] = some (byteAt a i).toNat) ∧
    limbSum (fun i => (byteAt a i).toNat) = a.toNat

/-- R162: what XOR and XORP write is, in each of the eight byte lanes (bits `8i+7` to `8i`, R13), the
exclusive or of that lane of the lhs and of the rhs, in the result's value and in limb cell `i` of its row. -/
def Obligations.XorActsLaneByLane : Prop :=
  ∀ (rd rs2 : Operand) (a b : Binding) (s : State), rd.writable = true → ReadyForWords s →
    s.binding rs2 = some b → s.traceWf = true →
    (∀ rs1, s.binding rs1 = some a → Room 3 s →
      ∃ t r, exec (.xor rd rs1 rs2) s = .next t ∧ t.binding rd = some r ∧ r.row = s.cur + 2 ∧
        ∀ i : Fin 8,
          r.val.toNat / 256 ^ i.val % 256 =
            (a.val.toNat / 256 ^ i.val % 256) ^^^ (b.val.toNat / 256 ^ i.val % 256) ∧
          t.cell? (.l i (s.cur + 2)) =
            some ((a.val.toNat / 256 ^ i.val % 256) ^^^ (b.val.toNat / 256 ^ i.val % 256))) ∧
    (s.p = some a → a.kind = .row → Room 2 s →
      ∃ t r, exec (.xorp rd rs2) s = .next t ∧ t.binding rd = some r ∧ r.row = s.cur + 1 ∧
        ∀ i : Fin 8,
          r.val.toNat / 256 ^ i.val % 256 =
            (a.val.toNat / 256 ^ i.val % 256) ^^^ (b.val.toNat / 256 ^ i.val % 256) ∧
          t.cell? (.l i (s.cur + 1)) =
            some ((a.val.toNat / 256 ^ i.val % 256) ^^^ (b.val.toNat / 256 ^ i.val % 256)))

/-- R182: input limb `j` becomes output limb `(j − k) mod 8`. -/
def Obligations.LimbRotationPermutesBytes : Prop :=
  ∀ (a : Word) (k : Fin 8), k ≠ 0 →
    (∀ i : Fin 8, byteAt (rotr a (8 * k)) i = byteAt a (i + k)) ∧
    ∀ j : Fin 8, byteAt (rotr a (8 * k)) (j - k) = byteAt a j

/-- R191. -/
def Obligations.Rotr63IsRotationLeftByOne : Prop :=
  ∀ a : Word, rotr a 63 = (a <<< 1) ||| (a >>> 63) ∧
    (rotr a 63).toNat = 2 * a.toNat - (a.toNat >>> 63) * (2 ^ 64 - 1)

/-- R216, R217, R219: in every block of a legal configuration the zero sources are exactly the last
`pad(b)` positions; position `k` before them reads key cell `k` in the key block, and in any other block
the `k`-th input cell of the block, the input blocks being counted after the key block; and every input cell
and every key cell is the source of exactly one position of one block. -/
def Obligations.BlocksArePaddedAndCoverTheInput : Prop :=
  ∀ n kk : Nat, kk ≤ 64 →
    (∀ b < nblocks n kk, ∀ k < 128, blockSource n kk b k = .zero ↔ 128 - padCount n kk b ≤ k) ∧
    (∀ b < nblocks n kk, ∀ k < 128 - padCount n kk b,
      blockSource n kk b k = if 0 < kk ∧ b = 0 then .key k
        else .input (128 * (b - if 0 < kk then 1 else 0) + k)) ∧
    (∀ i < n, ∃! q : Nat × Nat, q.1 < nblocks n kk ∧ q.2 < 128 ∧
      blockSource n kk q.1 q.2 = .input i) ∧
    ∀ i < kk, ∃! q : Nat × Nat, q.1 < nblocks n kk ∧ q.2 < 128 ∧
      blockSource n kk q.1 q.2 = .key i

/-! ## The gates determine their results -/

/-- R126. -/
def Obligations.DecompositionGateIsSound : Prop :=
  ∀ (s : State) (w : Witness) (r : Nat), s.loaded = true → 2 ^ 65 < s.params.fieldP →
    (∀ c, w c < s.params.fieldP) → gateDec s w r →
    (∀ i, w (.l i r) < 256) ∧ w (.f r) = limbSum (fun i => w (.l i r)) ∧ w (.f r) < 2 ^ 64

/-- R145. -/
def Obligations.AdditionGateIsSound : Prop :=
  ∀ (s : State) (w : Witness) (r : Nat), s.loaded = true → s.params.fieldP.Prime →
    2 ^ 65 < s.params.fieldP → (∀ c, w c < s.params.fieldP) → w (.f r) < 2 ^ 64 →
    w (.f (r + 1)) < 2 ^ 64 → gateDec s w (r + 2) → gateAdd s.params.fieldP w r →
    w (.f (r + 2)) = (w (.f r) + w (.f (r + 1))) % 2 ^ 64 ∧
      w (.l 0 (r + 1)) = (w (.f r) + w (.f (r + 1))) >>> 64

/-- R166. -/
def Obligations.XorGateIsSound : Prop :=
  ∀ (s : State) (w : Witness) (r : Nat), s.loaded = true → 2 ^ 65 < s.params.fieldP →
    (∀ c, w c < s.params.fieldP) → gateDec s w r → gateDec s w (r + 1) → gateDec s w (r + 2) →
    gateXor s w r → w (.f (r + 2)) = w (.f r) ^^^ w (.f (r + 1))

/-- R185. -/
def Obligations.LimbRotationIsSound : Prop :=
  ∀ (s : State) (w : Witness) (k : Fin 8) (r o : Nat), k ∈ [(2 : Fin 8), 3, 4] →
    s.loaded = true → 2 ^ 65 < s.params.fieldP → (∀ c, w c < s.params.fieldP) →
    (∀ i, w (.l i o) = w (.l (i + k) r)) → gateDec s w r → gateDec s w o →
    w (.f o) = (rotr (BitVec.ofNat 64 (w (.f r))) (8 * k)).toNat

/-- R192. -/
def Obligations.Rotation63GateIsSound : Prop :=
  ∀ (s : State) (w : Witness) (r : Nat), s.loaded = true → s.params.fieldP.Prime →
    2 ^ 65 < s.params.fieldP → (∀ c, w c < s.params.fieldP) → w (.f r) < 2 ^ 64 →
    gateDec s w (r + 2) → gateRot63 s.params.fieldP w r →
    w (.f (r + 1)) = w (.f r) >>> 63 ∧
      w (.f (r + 2)) = (rotr (BitVec.ofNat 64 (w (.f r))) 63).toNat

/-- R204: for any field above 2^64. -/
def Obligations.NegationGateIsSound : Prop :=
  ∀ (p : Nat) (w : Witness) (r : Nat), 2 ^ 64 < p → (∀ c, w c < p) → w (.f r) < 2 ^ 64 →
    gateNot p w r → w (.f (r + 1)) = 2 ^ 64 - 1 - w (.f r) ∧
      w (.f (r + 1)) = (~~~(BitVec.ofNat 64 (w (.f r)))).toNat ∧ w (.f (r + 1)) < 2 ^ 64

/-! ## Frames -/

/-- What ROW, ADD, ADDP, XOR, XORP, NOT, ROTR16, ROTR24, ROTR32 and ROTR63 leave alone (R31, R62, R123,
R146, R148, R167, R169, R181, R193, R205): every operand but `rd`, the gadget state, `Z`, what the host
sets, the cells of every row there is, and every row but `P`'s row `cur − 1` whole. `P` becomes the
binding of `rd` or, with a fault, stays. -/
def Obligations.WordCommandsFrame : Prop :=
  ∀ (i : Instr) (rd : Operand) (s t : State), i.dest? = some rd → s.traceWf = true →
    exec i s = .next t →
    (∀ o, o ≠ rd → t.binding o = s.binding o) ∧ t.gadget = s.gadget ∧ t.z = s.z ∧
    SameHost s t ∧ Extends s t ∧
    (∀ r, r + 1 < s.cur → t.trace[r]? = s.trace[r]?) ∧
    (t.p = t.binding rd ∧ t.fault = s.fault ∨ ∃ c, t = { s with fault := some c })

/-- What INIT and LDBLK leave alone (R211, R218): INIT the operands `v` and `m`; LDBLK the operands `v`,
`h`, `iv` and `Z`; both what the host sets and every row there is. -/
def Obligations.InitAndLdblkFrame : Prop :=
  ∀ s t : State,
    (exec .init s = .next t → t.v = s.v ∧ t.m = s.m ∧ SameHost s t ∧ Extends s t ∧
      ∀ r < s.trace.length, t.trace[r]? = s.trace[r]?) ∧
    ∀ blk, exec (.ldblk blk) s = .next t → t.v = s.v ∧ t.h = s.h ∧ t.iv = s.iv ∧ t.z = s.z ∧
      SameHost s t ∧ Extends s t ∧ ∀ r < s.trace.length, t.trace[r]? = s.trace[r]?

/-- What VINIT and OUT leave alone (R226, R248): VINIT the operands `m`, `h`, `iv`, `Z` and the gadget
state; OUT the operands `v`, `m`, `iv`, `Z` and the values of `h`; both what the host sets and every row
there is. -/
def Obligations.VinitAndOutFrame : Prop :=
  ∀ s t : State, s.traceWf = true →
    (∀ blk, exec (.vinit blk) s = .next t → t.m = s.m ∧ t.h = s.h ∧ t.iv = s.iv ∧ t.z = s.z ∧
      t.gadget = s.gadget ∧ SameHost s t ∧ Extends s t ∧
      ∀ r < s.trace.length, t.trace[r]? = s.trace[r]?) ∧
    (exec .out s = .next t → t.v = s.v ∧ t.m = s.m ∧ t.iv = s.iv ∧ t.z = s.z ∧
      (∀ j : Fin 8, t.h[j].map Binding.val = s.h[j].map Binding.val) ∧
      SameHost s t ∧ Extends s t ∧ ∀ r < s.trace.length, t.trace[r]? = s.trace[r]?)

/-! ## Invariants every step keeps -/

/-- R31, R34, R36, R39, R62, R69, R77: no step writes what the host sets, changes a cell of a row there is,
clears a selector or drops a copy constraint; so the constraints only grow, and a witness of the state
after a step satisfies the constraints of the state before it. -/
def Obligations.StepOnlyExtendsTheCircuit : Prop :=
  ∀ s t : State, step s = .next t →
    SameHost s t ∧ Extends s t ∧ ∀ w, Satisfies t w → Satisfies s w

/-- R12, R28, R31, R61, R319: the trace has exactly `cur` rows and at most `CIRCUIT_ROWS`, and `pc` stays
within the program; every cell holds a field element, so that the cells keep their canonical form; and with
the host range check on the trace cells keep the widths of R61. -/
def Obligations.TraceFormAndPcKept : Prop :=
  ∀ s t : State, step s = .next t →
    (s.traceWf = true → PcInProgram s → t.traceWf = true ∧ PcInProgram t) ∧
    (2 ^ 64 < s.params.fieldP → Memory.wf s = true → Memory.wf t = true) ∧
    (s.params.hostRangeCheck = true → CellWidths s → CellWidths t)

/-- R22, R27: every binding names a row that exists and is decomposed exactly when its kind is `Row`, and
`P`'s row is the last row emitted. -/
def Obligations.BindingRowsKept : Prop :=
  ∀ s t : State, s.traceWf = true → BindingRows s → step s = .next t → BindingRows t

/-- R22: with the host range check on, the F cell of a binding holds its value, and the limb cells of a
`Row` hold its bytes. -/
def Obligations.BindingValuesKept : Prop :=
  ∀ s t : State, s.traceWf = true → s.params.hostRangeCheck = true → BindingValues s →
    step s = .next t → BindingValues t

/-- R24, R37, R212, R226: the gadget state tells what is bound, `iv` holds the IV constants from INIT on,
and so VINIT and OUT never raise `UnboundOperand`. -/
def Obligations.GadgetStateInvariantKept : Prop :=
  (∀ s t : State, s.traceWf = true → GadgetInv s → step s = .next t → GadgetInv t) ∧
  ∀ (s t : State) (i : Instr), GadgetInv s → s.fault = none →
    (i = .out ∨ ∃ blk, i = .vinit blk) → exec i s = .next t → t.fault ≠ some .unboundOperand

/-- R41, R43 for every program: with the host range check on, after every step the honest witness
satisfies every gate and every copy constraint but the instance copies, whatever the free cells hold;
after OUT the instance cells below `nn` are tied to the digest byte cells. -/
def Obligations.HonestWitnessInvariantKept : Prop :=
  ∀ s t : State, s.traceWf = true → BindingRows s → BindingValues s → GadgetInv s →
    s.params.hostRangeCheck = true → 2 ^ 65 < s.params.fieldP → HonestInv s → DigestExposed s →
    step s = .next t → HonestInv t ∧ DigestExposed t

/-- R127: in every witness of the constraints the cell of every binding holds a Word. R44, R219: after an
LDBLK that completes, every witness of the constraints has a Byte in each of the 128 source cells of the
block, with any host range check: each limb of its sixteen rows is a Byte and equals its source, a padding
limb is 0, and F is the word of its limbs. -/
def Obligations.RangeInvariantKept : Prop :=
  (∀ s t : State, s.traceWf = true → BindingRows s → s.params.fieldP.Prime →
    2 ^ 65 < s.params.fieldP → RangeInv s → step s = .next t → RangeInv t) ∧
  ∀ (blk : BitVec 26) (s t : State) (w : Witness), s.traceWf = true → 2 ^ 65 < s.params.fieldP →
    RangeInv s → exec (.ldblk blk) s = .next t → t.fault = none → Satisfies t w →
    (∀ k < 128, w (s.sourceCell (s.source blk.toNat k)) < 256) ∧
    ∀ j : Fin 16, w (.f (s.cur + j.val)) = limbSum (fun i => w (.l i (s.cur + j.val))) ∧
      ∀ i : Fin 8, w (.l i (s.cur + j.val)) < 256 ∧
        w (.l i (s.cur + j.val)) = w (s.sourceCell (s.source blk.toNat (8 * j.val + i.val))) ∧
        (s.source blk.toNat (8 * j.val + i.val) = .zero → w (.l i (s.cur + j.val)) = 0)

/-- R44 for every program: after every step, a witness of the constraints that holds the machine's input
and key values has in the cell of every binding the value the machine computed. -/
def Obligations.ConstraintsDetermineValues : Prop :=
  ∀ s t : State, s.traceWf = true → BindingRows s → s.params.fieldP.Prime →
    2 ^ 65 < s.params.fieldP → RangeInv s → Determined s → step s = .next t → Determined t

/-- R40, R43, R44: in a finalised state that meets the invariants, the honest witness is accepted when the
instance cells hold the first `nn` digest bytes, with those as the public values; and whatever public
values are accepted, with any witness that holds the machine's inputs, are the first `nn` digest bytes. -/
def Obligations.AcceptedDigestIsTheComputedOne : Prop :=
  ∀ s : State, BindingRows s → BindingValues s → GadgetInv s → HonestInv s → DigestExposed s →
    Determined s → 2 ^ 65 < s.params.fieldP → s.gadget = .finalized →
    (∀ free : Witness, (∀ c, s.honest free c < s.params.fieldP) →
      (∀ k : Fin 64, k.val < s.params.outLen →
        (s.digestByte? k).map BitVec.toNat = some s.inst[k]) →
      Accept s (s.honest free) (s.inst.toList.take s.params.outLen)) ∧
    ∀ (w : Witness) (pub : List Nat), Accept s w pub → AgreesOnInputs s w →
      ∀ k : Fin 64, k.val < s.params.outLen →
        pub[k.val]? = (s.digestByte? k).map BitVec.toNat

/-- R45: the start state meets every invariant above. What it holds in the instance cells, the configuration
and the parameters is the model's choice (DESIGN CHOICE, log entries 2 to 5). -/
def Obligations.StartStateMeetsTheInvariants : Prop :=
  State.reset.traceWf = true ∧ Memory.wf State.reset = true ∧ CellWidths State.reset ∧
  PcInProgram State.reset ∧ BindingRows State.reset ∧
  BindingValues State.reset ∧ GadgetInv State.reset ∧ HonestInv State.reset ∧
  RangeInv State.reset ∧ Determined State.reset ∧ DigestExposed State.reset

/-! ## The pseudo-instructions -/

/-- R236–R238: from any state that accepts word commands with `v` and `m` bound and room for 26 rows, the
fourteen commands of MIX complete without a fault, emit 26 rows and compute G on the values of `v`;
nothing else among the operands changes. -/
def Obligations.MixComputesG : Prop :=
  ∀ (a b c d x y : Fin 16) (vs ms : Vector Word 16) (s : State), ReadyForWords s →
    s.fault = none → Room 26 s →
    (∀ i : Fin 16, s.v[i].map Binding.val = some vs[i]) →
    (∀ i : Fin 16, s.m[i].map Binding.val = some ms[i]) →
    ∃ t, runInstrs (mixInstrs a b c d x y) s = .next t ∧ t.fault = none ∧
      (∀ i : Fin 16, t.v[i].map Binding.val = some (Blake2b.g a b c d ms[x] ms[y] vs)[i]) ∧
      t.m = s.m ∧ t.h = s.h ∧ t.iv = s.iv ∧ t.gadget = s.gadget ∧ t.cur = s.cur + 26 ∧
      t.pc = s.pc + 14

/-- R225, R228–R230, R240, R245, R246: COMPRESS of a block computes the compression function of the values
of `h` and `m`, with the counter and the final-block flag of the block; `m` is unchanged, and it emits 2537
rows, or 2539 on the final block. -/
def Obligations.CompressComputesF : Prop :=
  ∀ (blk : BitVec 26) (hs : Vector Word 8) (ms : Vector Word 16) (s : State), s.loaded = true →
    s.gadget = .processingBlock → s.fault = none → blk.toNat < s.blockCount →
    Room (if isFinalBlock s.params.inputLen s.keyLen blk.toNat then 2539 else 2537) s →
    (∀ i : Fin 8, s.h[i].map Binding.val = some hs[i]) →
    (∀ i : Fin 8, s.iv[i].map Binding.val = some (ivWord i)) →
    (∀ i : Fin 16, s.m[i].map Binding.val = some ms[i]) →
    ∃ t, runInstrs (compressInstrs blk) s = .next t ∧ t.fault = none ∧
      (∀ i : Fin 8, t.h[i].map Binding.val = some (Blake2b.compress hs ms
        (counter s.params.inputLen s.keyLen blk.toNat)
        (isFinalBlock s.params.inputLen s.keyLen blk.toNat))[i]) ∧
      (∀ i : Fin 16, t.v[i].map Binding.val = some (Blake2b.rounds ms (Blake2b.initVector hs
        (counter s.params.inputLen s.keyLen blk.toNat)
        (isFinalBlock s.params.inputLen s.keyLen blk.toNat)))[i]) ∧
      t.m = s.m ∧ t.iv = s.iv ∧ t.gadget = .processingBlock ∧ t.pc = s.pc + 1361 ∧
      t.cur = s.cur + if isFinalBlock s.params.inputLen s.keyLen blk.toNat then 2539 else 2537

/-- R250, R251, R319: HASH of input bytes `x` under key bytes `y`, from a machine whose tables are loaded and
which holds those bytes and the configuration, completes without a fault and returns the keyed hash of
digest length `nn` as the value functions compute it; it executes `2 + 1362·nb` commands and emits
`12 + 2553·nb` rows. R65, R248, R288: the host's `hash` with those bytes, on an instance whose tables are
loaded, answers the 64 digest byte cells, byte `k` being limb `k mod 8` of the row of `h_(k div 8)`, which
hold that hash. -/
def Obligations.HashComputesKeyedBlake2b : Prop :=
  (∀ (x y : List Byte) (nn : Nat) (s : State), s.loaded = true → s.gadget = .uninitialized →
    s.fault = none → s.x = x.map BitVec.toNat → s.y = y.map BitVec.toNat →
    s.params.inputLen = x.length → s.params.outLen = nn → 1 ≤ nn → nn ≤ 64 → y.length ≤ 64 →
    nblocks x.length y.length ≤ maxBlocks → Room (12 + 2553 * nblocks x.length y.length) s →
    ∃ t, runInstrs (hashInstrs x.length y.length) s = .next t ∧ t.fault = none ∧
      t.gadget = .finalized ∧ t.output.map Prod.snd = some (Blake2b.hash x y nn) ∧
      t.pc = s.pc + 2 + 1362 * nblocks x.length y.length ∧
      t.cur = s.cur + 12 + 2553 * nblocks x.length y.length) ∧
  ∀ (x y : List Byte) (nn : Nat) (s : State) (input key : List (Fin s.params.fieldP)),
    s.loaded = true → s.fault = none → input.map Fin.val = x.map BitVec.toNat →
    key.map Fin.val = y.map BitVec.toNat → 1 ≤ nn → nn ≤ 64 → y.length ≤ 64 →
    nblocks x.length y.length ≤ maxBlocks →
    12 + 2553 * nblocks x.length y.length ≤ s.params.circuitRows →
    ∃ t cells, s.hash input key nn = .next t ∧
      t.reply = some (.ok (cells, Blake2b.hash x y nn)) ∧ cells.length = 64 ∧
      (∀ k : Fin 64, ∃ b, t.h[k.val / 8] = some b ∧
        cells[k.val]? = some (.l ⟨k.val % 8, by omega⟩ b.row)) ∧
      t.pc = t.program.length ∧ t.cur = 12 + 2553 * nblocks x.length y.length
end

