-- ==== Sys2Proof/Laws/Blocks.lean ====
section
/-! SUPPORT. The values of message rows: eight Bytes give the Word of their little-endian sum
(spec/46_blake2b_gadget.md R218, R220), and what the host's range check says. -/

namespace Sys2Proof.Machine

theorem limbSum_lt {l : Fin 8 → Nat} (h : ∀ i, l i < 256) : limbSum l < 2 ^ 64 := by
  have := h 0; have := h 1; have := h 2; have := h 3
  have := h 4; have := h 5; have := h 6; have := h 7
  simp only [limbSum]
  omega

theorem allBytes_iff {l : Fin 8 → Nat} : allBytes l = true ↔ ∀ i, l i < 256 := decide_eq_true_iff

theorem messageFelt_of_bytes {p : Nat} {l : Fin 8 → Nat} (h : ∀ i, l i < 256) :
    messageFelt p l = limbSum l := if_pos (allBytes_iff.mpr h)

theorem messageFelt_of_not_bytes {p : Nat} {l : Fin 8 → Nat} (h : ¬ ∀ i, l i < 256) :
    messageFelt p l = limbSum l % p := if_neg fun e => h (allBytes_iff.mp e)

theorem messageWord_of_bytes {p : Nat} {l : Fin 8 → Nat} (h : ∀ i, l i < 256) :
    messageWord p l = BitVec.ofNat 64 (limbSum l) := by
  unfold messageWord
  rw [messageFelt_of_bytes h, if_pos (limbSum_lt h)]

/-- The host's check passes exactly when each of the 128 sources of the block holds a Byte (R220). -/
theorem blockInRange_iff {s : State} {b : Nat} :
    blockInRange s b = true ↔ ∀ k < 128, s.sourceValue (s.source b k) < 256 := by
  simp only [blockInRange, List.all_eq_true, List.mem_finRange, forall_const, allBytes_iff,
    State.messageByte]
  constructor
  · intro h k hk
    have := h ⟨k / 8, by omega⟩ ⟨k % 8, by omega⟩
    rwa [show 8 * (k / 8) + k % 8 = k by omega] at this
  · intro h j i
    exact h _ (by omega)

end Sys2Proof.Machine
end

