-- ==== Sys2Proof/Laws/Decode.lean ====
section
/-! SUPPORT. The fields of encoded words, the operand indices in both directions, and one lemma for each
format's decoder that says exactly when it answers a command. -/

namespace Sys2Proof

/-! ## Fields of an encoded word (R91) -/

theorem formatR_toNat (op rd rs1 rs2 : BitVec 6) :
    (formatR op rd rs1 rs2).toNat =
      op.toNat * 2 ^ 26 + rd.toNat * 2 ^ 20 + rs1.toNat * 2 ^ 14 + rs2.toNat * 2 ^ 8 := by
  simp only [formatR, BitVec.toNat_append]
  rw [← Nat.shiftLeft_add_eq_or_of_lt (by simp), ← Nat.shiftLeft_add_eq_or_of_lt (by omega),
    ← Nat.shiftLeft_add_eq_or_of_lt (by omega), ← Nat.shiftLeft_add_eq_or_of_lt (by omega)]
  simp only [Nat.shiftLeft_eq, BitVec.toNat_ofNat]
  omega

theorem formatB_toNat (op : BitVec 6) (blk : BitVec 26) :
    (formatB op blk).toNat = op.toNat * 2 ^ 26 + blk.toNat := by
  simp only [formatB, BitVec.toNat_append]
  rw [← Nat.shiftLeft_add_eq_or_of_lt (by omega), Nat.shiftLeft_eq]

theorem opcodeField_toNat (w : CommandWord) : (opcodeField w).toNat = w.toNat / 2 ^ 26 := by
  simp only [opcodeField, BitVec.extractLsb'_toNat, Nat.shiftRight_eq_div_pow]
  omega

theorem rdField_toNat (w : CommandWord) : (rdField w).toNat = w.toNat / 2 ^ 20 % 2 ^ 6 := by
  simp only [rdField, BitVec.extractLsb'_toNat, Nat.shiftRight_eq_div_pow]

theorem rs1Field_toNat (w : CommandWord) : (rs1Field w).toNat = w.toNat / 2 ^ 14 % 2 ^ 6 := by
  simp only [rs1Field, BitVec.extractLsb'_toNat, Nat.shiftRight_eq_div_pow]

theorem rs2Field_toNat (w : CommandWord) : (rs2Field w).toNat = w.toNat / 2 ^ 8 % 2 ^ 6 := by
  simp only [rs2Field, BitVec.extractLsb'_toNat, Nat.shiftRight_eq_div_pow]

theorem zeroField_toNat (w : CommandWord) : (zeroField w).toNat = w.toNat % 2 ^ 8 := by
  simp [zeroField, BitVec.extractLsb'_toNat]

theorem blkField_toNat (w : CommandWord) : (blkField w).toNat = w.toNat % 2 ^ 26 := by
  simp [blkField, BitVec.extractLsb'_toNat]

@[simp] theorem opcodeField_formatR (op rd rs1 rs2 : BitVec 6) :
    opcodeField (formatR op rd rs1 rs2) = op := by
  apply BitVec.eq_of_toNat_eq
  rw [opcodeField_toNat, formatR_toNat]
  omega

@[simp] theorem rdField_formatR (op rd rs1 rs2 : BitVec 6) :
    rdField (formatR op rd rs1 rs2) = rd := by
  apply BitVec.eq_of_toNat_eq
  rw [rdField_toNat, formatR_toNat]
  omega

@[simp] theorem rs1Field_formatR (op rd rs1 rs2 : BitVec 6) :
    rs1Field (formatR op rd rs1 rs2) = rs1 := by
  apply BitVec.eq_of_toNat_eq
  rw [rs1Field_toNat, formatR_toNat]
  omega

@[simp] theorem rs2Field_formatR (op rd rs1 rs2 : BitVec 6) :
    rs2Field (formatR op rd rs1 rs2) = rs2 := by
  apply BitVec.eq_of_toNat_eq
  rw [rs2Field_toNat, formatR_toNat]
  omega

@[simp] theorem zeroField_formatR (op rd rs1 rs2 : BitVec 6) :
    zeroField (formatR op rd rs1 rs2) = 0 := by
  apply BitVec.eq_of_toNat_eq
  rw [zeroField_toNat, formatR_toNat]
  simp
  omega

@[simp] theorem opcodeField_formatB (op : BitVec 6) (blk : BitVec 26) :
    opcodeField (formatB op blk) = op := by
  apply BitVec.eq_of_toNat_eq
  rw [opcodeField_toNat, formatB_toNat]
  omega

@[simp] theorem blkField_formatB (op : BitVec 6) (blk : BitVec 26) :
    blkField (formatB op blk) = blk := by
  apply BitVec.eq_of_toNat_eq
  rw [blkField_toNat, formatB_toNat]
  omega

/-- A word with a zero byte at the bottom is the format-R word of its fields. -/
theorem formatR_fields {w : CommandWord} (h : zeroField w = 0) :
    formatR (opcodeField w) (rdField w) (rs1Field w) (rs2Field w) = w := by
  have h0 := congrArg BitVec.toNat h
  rw [zeroField_toNat] at h0
  have h1 : w.toNat % 2 ^ 8 = 0 := h0
  apply BitVec.eq_of_toNat_eq
  rw [formatR_toNat, opcodeField_toNat, rdField_toNat, rs1Field_toNat, rs2Field_toNat]
  omega

/-- A word is the format-B word of its fields. -/
theorem formatB_fields (w : CommandWord) : formatB (opcodeField w) (blkField w) = w := by
  apply BitVec.eq_of_toNat_eq
  rw [formatB_toNat, opcodeField_toNat, blkField_toNat]
  omega

/-! ## Operand indices (R21, R24) -/

@[simp] theorem ofIndex_index (o : Operand) : Operand.ofIndex o.index = some o := by
  cases o with
  | v i => revert i; decide
  | m i => revert i; decide
  | h i => revert i; decide
  | iv i => revert i; decide

theorem index_of_ofIndex {x : BitVec 6} {o : Operand} (h : Operand.ofIndex x = some o) :
    o.index = x := by
  revert o; revert x; decide

/-- The indices below 48 name the operands (R21). -/
theorem exists_ofIndex (x : BitVec 6) : (∃ o, Operand.ofIndex x = some o) ↔ x.toNat < 48 := by
  rw [← Option.isSome_iff_exists]
  revert x; decide

/-- The indices below 40 name the operands a command may write (R24). -/
theorem exists_writable_ofIndex (x : BitVec 6) :
    (∃ o, Operand.ofIndex x = some o ∧ o.writable = true) ↔ x.toNat < 40 := by
  have : (∃ o, Operand.ofIndex x = some o ∧ o.writable = true) ↔
      (Operand.ofIndex x).any Operand.writable = true := by
    cases Operand.ofIndex x <;> simp
  rw [this]
  revert x; decide

/-! ## When each decoder answers -/

/-- A sequence of decoding steps answers when both parts do. -/
theorem decodeBind_ok {α β : Type} {x : Except DecodeError α} {f : α → Except DecodeError β} {b : β} :
    (x >>= f) = .ok b ↔ ∃ a, x = .ok a ∧ f a = .ok b := by
  cases x <;> simp [bind, Except.bind]

theorem decodeSource_ok {x : BitVec 6} {o : Operand} :
    decodeSource x = .ok o ↔ Operand.ofIndex x = some o := by
  unfold decodeSource
  cases Operand.ofIndex x <;> simp

theorem decodeDest_ok {x : BitVec 6} {o : Operand} :
    decodeDest x = .ok o ↔ Operand.ofIndex x = some o ∧ o.writable = true := by
  unfold decodeDest
  cases Operand.ofIndex x with
  | none => simp
  | some a =>
    cases h : a.writable
    · simp [h]; rintro rfl; exact h
    · simp [h]; rintro rfl; exact h

theorem decodeN_ok {i j : Instr} {w : CommandWord} :
    decodeN i w = .ok j ↔ blkField w = 0 ∧ j = i := by
  unfold decodeN
  split <;> simp_all [eq_comm]

theorem decodeThree_ok {mk : Operand → Operand → Operand → Instr} {w : CommandWord} {i : Instr} :
    decodeThree mk w = .ok i ↔ zeroField w = 0 ∧ ∃ rd rs1 rs2,
      Operand.ofIndex (rdField w) = some rd ∧ rd.writable = true ∧
      Operand.ofIndex (rs1Field w) = some rs1 ∧ Operand.ofIndex (rs2Field w) = some rs2 ∧
      i = mk rd rs1 rs2 := by
  unfold decodeThree
  split
  case isTrue h => simp only [reduceCtorEq, h, false_and]
  case isFalse h =>
    simp only [decodeBind_ok, decodeDest_ok, decodeSource_ok, Except.ok.injEq]
    rw [not_not] at h
    constructor
    · rintro ⟨a, ⟨h1, h2⟩, b, h3, c, h4, rfl⟩; exact ⟨h, a, b, c, h1, h2, h3, h4, rfl⟩
    · rintro ⟨_, a, b, c, h1, h2, h3, h4, rfl⟩; exact ⟨a, ⟨h1, h2⟩, b, h3, c, h4, rfl⟩

theorem decodeUnary_ok {mk : Operand → Operand → Instr} {w : CommandWord} {i : Instr} :
    decodeUnary mk w = .ok i ↔ zeroField w = 0 ∧ rs2Field w = 0 ∧ ∃ rd rs1,
      Operand.ofIndex (rdField w) = some rd ∧ rd.writable = true ∧
      Operand.ofIndex (rs1Field w) = some rs1 ∧ i = mk rd rs1 := by
  unfold decodeUnary
  split
  case isTrue h =>
    rcases h with h | h <;> simp only [reduceCtorEq, h, false_and, and_false]
  case isFalse h =>
    simp only [decodeBind_ok, decodeDest_ok, decodeSource_ok, Except.ok.injEq]
    rw [not_or, not_not, not_not] at h
    constructor
    · rintro ⟨a, ⟨h1, h2⟩, b, h3, rfl⟩; exact ⟨h.1, h.2, a, b, h1, h2, h3, rfl⟩
    · rintro ⟨_, _, a, b, h1, h2, h3, rfl⟩; exact ⟨a, ⟨h1, h2⟩, b, h3, rfl⟩

theorem decodeReuse_ok {mk : Operand → Operand → Instr} {w : CommandWord} {i : Instr} :
    decodeReuse mk w = .ok i ↔ zeroField w = 0 ∧ rs1Field w = 0 ∧ ∃ rd rs2,
      Operand.ofIndex (rdField w) = some rd ∧ rd.writable = true ∧
      Operand.ofIndex (rs2Field w) = some rs2 ∧ i = mk rd rs2 := by
  unfold decodeReuse
  split
  case isTrue h =>
    rcases h with h | h <;> simp only [reduceCtorEq, h, false_and, and_false]
  case isFalse h =>
    simp only [decodeBind_ok, decodeDest_ok, decodeSource_ok, Except.ok.injEq]
    rw [not_or, not_not, not_not] at h
    constructor
    · rintro ⟨a, ⟨h1, h2⟩, b, h3, rfl⟩; exact ⟨h.1, h.2, a, b, h1, h2, h3, rfl⟩
    · rintro ⟨_, _, a, b, h1, h2, h3, rfl⟩; exact ⟨a, ⟨h1, h2⟩, b, h3, rfl⟩

/-- An opcode field with a known number is that opcode. -/
theorem opcodeField_of_toNat {w : CommandWord} {n : Nat} (h : (opcodeField w).toNat = n) :
    opcodeField w = BitVec.ofNat 6 n := by
  rw [← h]; simp

end Sys2Proof
end

