-- ==== Sys2Proof/Laws/State.lean ====
section
/-! SUPPORT. The fields of a state after each update of Machine/Ops.lean and Machine/Operands.lean, and the
binding an operand holds after one: no later proof unfolds a record update. -/

namespace Sys2Proof.Machine

/-! ## After `raiseFault` -/

@[simp] theorem raiseFault_v (c : Fault) (s : State) :
    (raiseFault c s).v = s.v := rfl
@[simp] theorem raiseFault_m (c : Fault) (s : State) :
    (raiseFault c s).m = s.m := rfl
@[simp] theorem raiseFault_h (c : Fault) (s : State) :
    (raiseFault c s).h = s.h := rfl
@[simp] theorem raiseFault_iv (c : Fault) (s : State) :
    (raiseFault c s).iv = s.iv := rfl
@[simp] theorem raiseFault_p (c : Fault) (s : State) :
    (raiseFault c s).p = s.p := rfl
@[simp] theorem raiseFault_pc (c : Fault) (s : State) :
    (raiseFault c s).pc = s.pc := rfl
@[simp] theorem raiseFault_program (c : Fault) (s : State) :
    (raiseFault c s).program = s.program := rfl
@[simp] theorem raiseFault_gadget (c : Fault) (s : State) :
    (raiseFault c s).gadget = s.gadget := rfl
@[simp] theorem raiseFault_configured (c : Fault) (s : State) :
    (raiseFault c s).configured = s.configured := rfl
@[simp] theorem raiseFault_loaded (c : Fault) (s : State) :
    (raiseFault c s).loaded = s.loaded := rfl
@[simp] theorem raiseFault_fault (c : Fault) (s : State) :
    (raiseFault c s).fault = some c := rfl
@[simp] theorem raiseFault_trace (c : Fault) (s : State) :
    (raiseFault c s).trace = s.trace := rfl
@[simp] theorem raiseFault_cur (c : Fault) (s : State) :
    (raiseFault c s).cur = s.cur := rfl
@[simp] theorem raiseFault_eq (c : Fault) (s : State) :
    (raiseFault c s).eq = s.eq := rfl
@[simp] theorem raiseFault_z (c : Fault) (s : State) :
    (raiseFault c s).z = s.z := rfl
@[simp] theorem raiseFault_inst (c : Fault) (s : State) :
    (raiseFault c s).inst = s.inst := rfl
@[simp] theorem raiseFault_x (c : Fault) (s : State) :
    (raiseFault c s).x = s.x := rfl
@[simp] theorem raiseFault_y (c : Fault) (s : State) :
    (raiseFault c s).y = s.y := rfl
@[simp] theorem raiseFault_params (c : Fault) (s : State) :
    (raiseFault c s).params = s.params := rfl
@[simp] theorem raiseFault_binding (c : Fault) (s : State) (o : Operand) :
    (raiseFault c s).binding o = s.binding o := by cases o <;> rfl

/-! ## After `copy` -/

@[simp] theorem copy_v (a b : Cell) (s : State) :
    (s.copy a b).v = s.v := rfl
@[simp] theorem copy_m (a b : Cell) (s : State) :
    (s.copy a b).m = s.m := rfl
@[simp] theorem copy_h (a b : Cell) (s : State) :
    (s.copy a b).h = s.h := rfl
@[simp] theorem copy_iv (a b : Cell) (s : State) :
    (s.copy a b).iv = s.iv := rfl
@[simp] theorem copy_p (a b : Cell) (s : State) :
    (s.copy a b).p = s.p := rfl
@[simp] theorem copy_pc (a b : Cell) (s : State) :
    (s.copy a b).pc = s.pc := rfl
@[simp] theorem copy_program (a b : Cell) (s : State) :
    (s.copy a b).program = s.program := rfl
@[simp] theorem copy_gadget (a b : Cell) (s : State) :
    (s.copy a b).gadget = s.gadget := rfl
@[simp] theorem copy_configured (a b : Cell) (s : State) :
    (s.copy a b).configured = s.configured := rfl
@[simp] theorem copy_loaded (a b : Cell) (s : State) :
    (s.copy a b).loaded = s.loaded := rfl
@[simp] theorem copy_fault (a b : Cell) (s : State) :
    (s.copy a b).fault = s.fault := rfl
@[simp] theorem copy_trace (a b : Cell) (s : State) :
    (s.copy a b).trace = s.trace := rfl
@[simp] theorem copy_cur (a b : Cell) (s : State) :
    (s.copy a b).cur = s.cur := rfl
@[simp] theorem copy_eq (a b : Cell) (s : State) :
    (s.copy a b).eq = s.eq ++ [(a, b)] := rfl
@[simp] theorem copy_z (a b : Cell) (s : State) :
    (s.copy a b).z = s.z := rfl
@[simp] theorem copy_inst (a b : Cell) (s : State) :
    (s.copy a b).inst = s.inst := rfl
@[simp] theorem copy_x (a b : Cell) (s : State) :
    (s.copy a b).x = s.x := rfl
@[simp] theorem copy_y (a b : Cell) (s : State) :
    (s.copy a b).y = s.y := rfl
@[simp] theorem copy_params (a b : Cell) (s : State) :
    (s.copy a b).params = s.params := rfl
@[simp] theorem copy_binding (a b : Cell) (s : State) (o : Operand) :
    (s.copy a b).binding o = s.binding o := by cases o <;> rfl

/-! ## After `copyAll` -/

@[simp] theorem copyAll_v (l : List (Cell × Cell)) (s : State) :
    (s.copyAll l).v = s.v := rfl
@[simp] theorem copyAll_m (l : List (Cell × Cell)) (s : State) :
    (s.copyAll l).m = s.m := rfl
@[simp] theorem copyAll_h (l : List (Cell × Cell)) (s : State) :
    (s.copyAll l).h = s.h := rfl
@[simp] theorem copyAll_iv (l : List (Cell × Cell)) (s : State) :
    (s.copyAll l).iv = s.iv := rfl
@[simp] theorem copyAll_p (l : List (Cell × Cell)) (s : State) :
    (s.copyAll l).p = s.p := rfl
@[simp] theorem copyAll_pc (l : List (Cell × Cell)) (s : State) :
    (s.copyAll l).pc = s.pc := rfl
@[simp] theorem copyAll_program (l : List (Cell × Cell)) (s : State) :
    (s.copyAll l).program = s.program := rfl
@[simp] theorem copyAll_gadget (l : List (Cell × Cell)) (s : State) :
    (s.copyAll l).gadget = s.gadget := rfl
@[simp] theorem copyAll_configured (l : List (Cell × Cell)) (s : State) :
    (s.copyAll l).configured = s.configured := rfl
@[simp] theorem copyAll_loaded (l : List (Cell × Cell)) (s : State) :
    (s.copyAll l).loaded = s.loaded := rfl
@[simp] theorem copyAll_fault (l : List (Cell × Cell)) (s : State) :
    (s.copyAll l).fault = s.fault := rfl
@[simp] theorem copyAll_trace (l : List (Cell × Cell)) (s : State) :
    (s.copyAll l).trace = s.trace := rfl
@[simp] theorem copyAll_cur (l : List (Cell × Cell)) (s : State) :
    (s.copyAll l).cur = s.cur := rfl
@[simp] theorem copyAll_eq (l : List (Cell × Cell)) (s : State) :
    (s.copyAll l).eq = s.eq ++ l := rfl
@[simp] theorem copyAll_z (l : List (Cell × Cell)) (s : State) :
    (s.copyAll l).z = s.z := rfl
@[simp] theorem copyAll_inst (l : List (Cell × Cell)) (s : State) :
    (s.copyAll l).inst = s.inst := rfl
@[simp] theorem copyAll_x (l : List (Cell × Cell)) (s : State) :
    (s.copyAll l).x = s.x := rfl
@[simp] theorem copyAll_y (l : List (Cell × Cell)) (s : State) :
    (s.copyAll l).y = s.y := rfl
@[simp] theorem copyAll_params (l : List (Cell × Cell)) (s : State) :
    (s.copyAll l).params = s.params := rfl
@[simp] theorem copyAll_binding (l : List (Cell × Cell)) (s : State) (o : Operand) :
    (s.copyAll l).binding o = s.binding o := by cases o <;> rfl

/-! ## After `sel` -/

@[simp] theorem sel_v (q : Selector) (r : Nat) (s : State) :
    (s.sel q r).v = s.v := rfl
@[simp] theorem sel_m (q : Selector) (r : Nat) (s : State) :
    (s.sel q r).m = s.m := rfl
@[simp] theorem sel_h (q : Selector) (r : Nat) (s : State) :
    (s.sel q r).h = s.h := rfl
@[simp] theorem sel_iv (q : Selector) (r : Nat) (s : State) :
    (s.sel q r).iv = s.iv := rfl
@[simp] theorem sel_p (q : Selector) (r : Nat) (s : State) :
    (s.sel q r).p = s.p := rfl
@[simp] theorem sel_pc (q : Selector) (r : Nat) (s : State) :
    (s.sel q r).pc = s.pc := rfl
@[simp] theorem sel_program (q : Selector) (r : Nat) (s : State) :
    (s.sel q r).program = s.program := rfl
@[simp] theorem sel_gadget (q : Selector) (r : Nat) (s : State) :
    (s.sel q r).gadget = s.gadget := rfl
@[simp] theorem sel_configured (q : Selector) (r : Nat) (s : State) :
    (s.sel q r).configured = s.configured := rfl
@[simp] theorem sel_loaded (q : Selector) (r : Nat) (s : State) :
    (s.sel q r).loaded = s.loaded := rfl
@[simp] theorem sel_fault (q : Selector) (r : Nat) (s : State) :
    (s.sel q r).fault = s.fault := rfl
@[simp] theorem sel_trace (q : Selector) (r : Nat) (s : State) :
    (s.sel q r).trace = s.trace.modify r fun row => { row with sel := row.sel.enable q } := rfl
@[simp] theorem sel_cur (q : Selector) (r : Nat) (s : State) :
    (s.sel q r).cur = s.cur := rfl
@[simp] theorem sel_eq (q : Selector) (r : Nat) (s : State) :
    (s.sel q r).eq = s.eq := rfl
@[simp] theorem sel_z (q : Selector) (r : Nat) (s : State) :
    (s.sel q r).z = s.z := rfl
@[simp] theorem sel_inst (q : Selector) (r : Nat) (s : State) :
    (s.sel q r).inst = s.inst := rfl
@[simp] theorem sel_x (q : Selector) (r : Nat) (s : State) :
    (s.sel q r).x = s.x := rfl
@[simp] theorem sel_y (q : Selector) (r : Nat) (s : State) :
    (s.sel q r).y = s.y := rfl
@[simp] theorem sel_params (q : Selector) (r : Nat) (s : State) :
    (s.sel q r).params = s.params := rfl
@[simp] theorem sel_binding (q : Selector) (r : Nat) (s : State) (o : Operand) :
    (s.sel q r).binding o = s.binding o := by cases o <;> rfl

/-! ## After `pushRow` -/

@[simp] theorem pushRow_v (row : TraceRow) (s : State) :
    (s.pushRow row).v = s.v := rfl
@[simp] theorem pushRow_m (row : TraceRow) (s : State) :
    (s.pushRow row).m = s.m := rfl
@[simp] theorem pushRow_h (row : TraceRow) (s : State) :
    (s.pushRow row).h = s.h := rfl
@[simp] theorem pushRow_iv (row : TraceRow) (s : State) :
    (s.pushRow row).iv = s.iv := rfl
@[simp] theorem pushRow_p (row : TraceRow) (s : State) :
    (s.pushRow row).p = s.p := rfl
@[simp] theorem pushRow_pc (row : TraceRow) (s : State) :
    (s.pushRow row).pc = s.pc := rfl
@[simp] theorem pushRow_program (row : TraceRow) (s : State) :
    (s.pushRow row).program = s.program := rfl
@[simp] theorem pushRow_gadget (row : TraceRow) (s : State) :
    (s.pushRow row).gadget = s.gadget := rfl
@[simp] theorem pushRow_configured (row : TraceRow) (s : State) :
    (s.pushRow row).configured = s.configured := rfl
@[simp] theorem pushRow_loaded (row : TraceRow) (s : State) :
    (s.pushRow row).loaded = s.loaded := rfl
@[simp] theorem pushRow_fault (row : TraceRow) (s : State) :
    (s.pushRow row).fault = s.fault := rfl
@[simp] theorem pushRow_trace (row : TraceRow) (s : State) :
    (s.pushRow row).trace = s.trace ++ [row] := rfl
@[simp] theorem pushRow_cur (row : TraceRow) (s : State) :
    (s.pushRow row).cur = s.cur + 1 := rfl
@[simp] theorem pushRow_eq (row : TraceRow) (s : State) :
    (s.pushRow row).eq = s.eq := rfl
@[simp] theorem pushRow_z (row : TraceRow) (s : State) :
    (s.pushRow row).z = s.z := rfl
@[simp] theorem pushRow_inst (row : TraceRow) (s : State) :
    (s.pushRow row).inst = s.inst := rfl
@[simp] theorem pushRow_x (row : TraceRow) (s : State) :
    (s.pushRow row).x = s.x := rfl
@[simp] theorem pushRow_y (row : TraceRow) (s : State) :
    (s.pushRow row).y = s.y := rfl
@[simp] theorem pushRow_params (row : TraceRow) (s : State) :
    (s.pushRow row).params = s.params := rfl
@[simp] theorem pushRow_binding (row : TraceRow) (s : State) (o : Operand) :
    (s.pushRow row).binding o = s.binding o := by cases o <;> rfl

/-! ## After `bind` -/

@[simp] theorem bind_p (o : Operand) (b : Binding) (s : State) :
    (s.bind o b).p = s.p := by cases o <;> rfl
@[simp] theorem bind_pc (o : Operand) (b : Binding) (s : State) :
    (s.bind o b).pc = s.pc := by cases o <;> rfl
@[simp] theorem bind_program (o : Operand) (b : Binding) (s : State) :
    (s.bind o b).program = s.program := by cases o <;> rfl
@[simp] theorem bind_gadget (o : Operand) (b : Binding) (s : State) :
    (s.bind o b).gadget = s.gadget := by cases o <;> rfl
@[simp] theorem bind_configured (o : Operand) (b : Binding) (s : State) :
    (s.bind o b).configured = s.configured := by cases o <;> rfl
@[simp] theorem bind_loaded (o : Operand) (b : Binding) (s : State) :
    (s.bind o b).loaded = s.loaded := by cases o <;> rfl
@[simp] theorem bind_fault (o : Operand) (b : Binding) (s : State) :
    (s.bind o b).fault = s.fault := by cases o <;> rfl
@[simp] theorem bind_trace (o : Operand) (b : Binding) (s : State) :
    (s.bind o b).trace = s.trace := by cases o <;> rfl
@[simp] theorem bind_cur (o : Operand) (b : Binding) (s : State) :
    (s.bind o b).cur = s.cur := by cases o <;> rfl
@[simp] theorem bind_eq (o : Operand) (b : Binding) (s : State) :
    (s.bind o b).eq = s.eq := by cases o <;> rfl
@[simp] theorem bind_z (o : Operand) (b : Binding) (s : State) :
    (s.bind o b).z = s.z := by cases o <;> rfl
@[simp] theorem bind_inst (o : Operand) (b : Binding) (s : State) :
    (s.bind o b).inst = s.inst := by cases o <;> rfl
@[simp] theorem bind_x (o : Operand) (b : Binding) (s : State) :
    (s.bind o b).x = s.x := by cases o <;> rfl
@[simp] theorem bind_y (o : Operand) (b : Binding) (s : State) :
    (s.bind o b).y = s.y := by cases o <;> rfl
@[simp] theorem bind_params (o : Operand) (b : Binding) (s : State) :
    (s.bind o b).params = s.params := by cases o <;> rfl

/-! ## After `publish` -/

@[simp] theorem publish_p (o : Operand) (b : Binding) (s : State) :
    (publish o b s).p = some b := by cases o <;> rfl
@[simp] theorem publish_pc (o : Operand) (b : Binding) (s : State) :
    (publish o b s).pc = s.pc := by cases o <;> rfl
@[simp] theorem publish_program (o : Operand) (b : Binding) (s : State) :
    (publish o b s).program = s.program := by cases o <;> rfl
@[simp] theorem publish_gadget (o : Operand) (b : Binding) (s : State) :
    (publish o b s).gadget = s.gadget := by cases o <;> rfl
@[simp] theorem publish_configured (o : Operand) (b : Binding) (s : State) :
    (publish o b s).configured = s.configured := by cases o <;> rfl
@[simp] theorem publish_loaded (o : Operand) (b : Binding) (s : State) :
    (publish o b s).loaded = s.loaded := by cases o <;> rfl
@[simp] theorem publish_fault (o : Operand) (b : Binding) (s : State) :
    (publish o b s).fault = s.fault := by cases o <;> rfl
@[simp] theorem publish_trace (o : Operand) (b : Binding) (s : State) :
    (publish o b s).trace = s.trace := by cases o <;> rfl
@[simp] theorem publish_cur (o : Operand) (b : Binding) (s : State) :
    (publish o b s).cur = s.cur := by cases o <;> rfl
@[simp] theorem publish_eq (o : Operand) (b : Binding) (s : State) :
    (publish o b s).eq = s.eq := by cases o <;> rfl
@[simp] theorem publish_z (o : Operand) (b : Binding) (s : State) :
    (publish o b s).z = s.z := by cases o <;> rfl
@[simp] theorem publish_inst (o : Operand) (b : Binding) (s : State) :
    (publish o b s).inst = s.inst := by cases o <;> rfl
@[simp] theorem publish_x (o : Operand) (b : Binding) (s : State) :
    (publish o b s).x = s.x := by cases o <;> rfl
@[simp] theorem publish_y (o : Operand) (b : Binding) (s : State) :
    (publish o b s).y = s.y := by cases o <;> rfl
@[simp] theorem publish_params (o : Operand) (b : Binding) (s : State) :
    (publish o b s).params = s.params := by cases o <;> rfl

/-- The operand a `bind` names holds the binding. -/
@[simp] theorem binding_bind_self (o : Operand) (b : Binding) (s : State) :
    (s.bind o b).binding o = some b := by
  cases o <;> simp [State.bind, State.binding]

/-- A `bind` leaves every other operand alone. -/
theorem binding_bind_of_ne (o o' : Operand) (b : Binding) (s : State) (h : o' ≠ o) :
    (s.bind o b).binding o' = s.binding o' := by
  cases o <;> cases o' <;> simp only [State.bind, State.binding]
  all_goals
    simp only [Fin.getElem_fin]
    rw [Vector.getElem_set_ne]
    intro e
    exact h (by rw [Fin.ext e])

/-- The binding of any operand after a `bind`. -/
theorem binding_bind (o o' : Operand) (b : Binding) (s : State) :
    (s.bind o b).binding o' = if o' = o then some b else s.binding o' := by
  split
  case isTrue e => subst e; exact binding_bind_self _ b s
  case isFalse e => exact binding_bind_of_ne o o' b s e

@[simp] theorem publish_binding (o o' : Operand) (b : Binding) (s : State) :
    (publish o b s).binding o' = (s.bind o b).binding o' := by
  cases o' <;> rfl

/-- A `bind` of an operand that is not an `iv` leaves `iv` alone (R24). -/
theorem bind_iv_of_writable (o : Operand) (b : Binding) (s : State) (h : o.writable = true) :
    (s.bind o b).iv = s.iv := by
  cases o <;> first | rfl | simp [Operand.writable] at h

end Sys2Proof.Machine
end

