-- ==== Sys2Proof/Laws/Ops.lean ====
section
/-! SUPPORT. One lemma for each shared operation that says everything it can do: when it answers, the
state it answers (`…_ok`), and, for the frame of a command, the two ways it can end (`command_next`).
Provers cite these instead of unfolding the operations. -/

namespace Sys2Proof.Machine

/-! ## Except -/

/-- A sequence answers when both parts do. -/
theorem except_bind_ok {α β : Type} {x : Except Fault α} {f : α → Except Fault β} {b : β} :
    (x >>= f) = .ok b ↔ ∃ a, x = .ok a ∧ f a = .ok b := by
  cases x <;> simp [bind, Except.bind]

theorem require_ok {c : Bool} {e : Fault} {u : Unit} : require c e = .ok u ↔ c = true := by
  cases c <;> simp [require]

theorem require_of_true {c : Bool} (e : Fault) (h : c = true) : require c e = .ok () := by
  simp [require, h]

theorem require_of_false {c : Bool} (e : Fault) (h : c = false) : require c e = .error e := by
  simp [require, h]

/-! ## Operands -/

theorem readOperand_ok {o : Operand} {s : State} {b : Binding} :
    s.readOperand o = .ok b ↔ s.binding o = some b := by
  unfold State.readOperand
  cases s.binding o <;> simp

theorem readOperand_none {o : Operand} {s : State} (h : s.binding o = none) :
    s.readOperand o = .error .unboundOperand := by
  simp [State.readOperand, h]

theorem requireBound_ok {os : List Operand} {s : State} {u : Unit} :
    requireBound os s = .ok u ↔ ∀ o ∈ os, ∃ b, s.binding o = some b := by
  induction os with
  | nil => simp [requireBound]
  | cons o os ih =>
    unfold requireBound
    cases h : s.binding o <;> simp [ih, h]

theorem requireBound_error {os : List Operand} {s : State} {e : Fault}
    (h : requireBound os s = .error e) : e = .unboundOperand := by
  induction os with
  | nil => simp [requireBound] at h
  | cons o os ih =>
    unfold requireBound at h
    cases hb : s.binding o <;> simp [hb] at h
    · exact h.symm
    · exact ih h

/-! ## Rows -/

theorem emitRow_ok {row : TraceRow} {s t : State} :
    emitRow row s = .ok t ↔ s.cur < s.params.circuitRows ∧ t = s.pushRow row := by
  unfold emitRow
  split <;> simp_all [eq_comm]

theorem emitRow_full {row : TraceRow} {s : State} (h : ¬ s.cur < s.params.circuitRows) :
    emitRow row s = .error .internalInvariant := by
  simp [emitRow, h]

theorem matRow_ok {a : Word} {c : Cell} {s t : State} :
    matRow a c s = .ok t ↔
      s.cur < s.params.circuitRows ∧ t = (s.pushRow (decRow a)).copy (.f s.cur) c := by
  simp only [matRow, except_bind_ok, emitRow_ok, Except.ok.injEq]
  aesop

theorem copyWordRow_ok {a : Word} {c : Cell} {s t : State} :
    copyWordRow a c s = .ok t ↔
      s.cur < s.params.circuitRows ∧ t = (s.pushRow (wordRow a)).copy (.f s.cur) c := by
  simp only [copyWordRow, except_bind_ok, emitRow_ok, Except.ok.injEq]
  aesop

theorem copyCarryRow_ok {a : Word} {c : Cell} {k : Nat} {s t : State} :
    copyCarryRow a c k s = .ok t ↔
      s.cur < s.params.circuitRows ∧ t = (s.pushRow (carryRow a k)).copy (.f s.cur) c := by
  simp only [copyCarryRow, except_bind_ok, emitRow_ok, Except.ok.injEq]
  aesop

theorem constRow_ok {a : Word} {s t : State} :
    constRow a s = .ok t ↔
      s.cur < s.params.circuitRows ∧ t = (s.pushRow (fixedRow a)).copy (.f s.cur) (.k s.cur) := by
  simp only [constRow, except_bind_ok, emitRow_ok, Except.ok.injEq]
  aesop

/-- The state after constant rows for the words given. -/
def afterConsts (as : List Word) (s : State) : State :=
  { s with
    trace := s.trace ++ as.map fixedRow
    cur := s.cur + as.length
    eq := s.eq ++ (List.range as.length).map fun i => (.f (s.cur + i), .k (s.cur + i)) }

theorem afterConsts_cons (a : Word) (as : List Word) (s : State) :
    afterConsts (a :: as) s =
      afterConsts as ((s.pushRow (fixedRow a)).copy (.f s.cur) (.k s.cur)) := by
  simp only [afterConsts, State.copy, State.pushRow, List.length_cons, List.range_succ_eq_map,
    List.map_cons, List.map_map, Function.comp_def, Nat.add_zero, Nat.succ_eq_add_one, Nat.add_assoc, Nat.add_comm 1,
    List.append_assoc, List.singleton_append]

theorem constRows_ok {as : List Word} {s t : State} :
    constRows as s = .ok t ↔
      (as = [] ∨ s.cur + as.length ≤ s.params.circuitRows) ∧ t = afterConsts as s := by
  induction as generalizing s with
  | nil => simp [constRows, afterConsts, eq_comm]
  | cons a as ih =>
    simp only [constRows, except_bind_ok, constRow_ok, ih, afterConsts_cons]
    constructor
    · rintro ⟨u, ⟨hr, rfl⟩, hr', rfl⟩
      refine ⟨Or.inr ?_, rfl⟩
      rcases hr' with rfl | hr'
      · simp; omega
      · simp at hr' ⊢; omega
    · rintro ⟨hr, rfl⟩
      simp at hr
      refine ⟨_, ⟨by omega, rfl⟩, Or.inr ?_, rfl⟩
      simp; omega

/-- The state after the message rows of block `b` for the words `js`. -/
def afterMessages (s : State) (b : Nat) (js : List (Fin 16)) (t : State) : State :=
  { t with
    trace := t.trace ++ js.map (messageRow s b)
    cur := t.cur + js.length
    eq := t.eq ++ (js.zipIdx t.cur).flatMap fun (j, r) => messageCopies s b j r }

theorem messageRows_ok {s : State} {b : Nat} {js : List (Fin 16)} {t u : State} :
    messageRows s b js t = .ok u ↔
      (js = [] ∨ t.cur + js.length ≤ t.params.circuitRows) ∧ u = afterMessages s b js t := by
  induction js generalizing t with
  | nil => simp [messageRows, afterMessages, eq_comm]
  | cons j js ih =>
    simp only [messageRows, except_bind_ok, emitRow_ok, ih]
    constructor
    · rintro ⟨_, ⟨hr, rfl⟩, hr', rfl⟩
      refine ⟨Or.inr ?_, ?_⟩
      · rcases hr' with rfl | hr'
        · simp; omega
        · simp at hr' ⊢; omega
      · simp [afterMessages, State.copyAll, State.pushRow, Nat.add_assoc, Nat.add_comm]
    · rintro ⟨hr, rfl⟩
      simp at hr
      refine ⟨_, ⟨by omega, rfl⟩, ?_, ?_⟩
      · right; simp; omega
      · simp [afterMessages, State.copyAll, State.pushRow, Nat.add_assoc, Nat.add_comm]

/-! ## Command bodies -/

theorem rowBody_ok {rd rs1 : Operand} {s t : State} :
    rowBody rd rs1 s = .ok t ↔ ∃ b, s.binding rs1 = some b ∧ s.cur < s.params.circuitRows ∧
      t = publish rd ⟨b.val, s.cur, .row⟩ ((s.pushRow (decRow b.val)).copy (.f s.cur) b.cell) := by
  simp only [rowBody, except_bind_ok, readOperand_ok, matRow_ok, Except.ok.injEq]
  constructor
  · rintro ⟨b, hb, u, ⟨hr, rfl⟩, rfl⟩; exact ⟨b, hb, hr, rfl⟩
  · rintro ⟨b, hb, hr, rfl⟩; exact ⟨b, hb, _, ⟨hr, rfl⟩, rfl⟩

theorem addOnto_ok {rd : Operand} {a : Word} {b : Binding} {r0 : Nat} {s t : State} :
    addOnto rd a b r0 s = .ok t ↔ s.cur + 1 < s.params.circuitRows ∧
      t = publish rd ⟨a + b.val, s.cur + 1, .row⟩
        ((((s.pushRow (carryRow b.val (carryOf a b.val))).copy (.f s.cur) b.cell).pushRow
          (decRow (a + b.val))).sel .qAdd r0) := by
  simp only [addOnto, except_bind_ok, copyCarryRow_ok, emitRow_ok, Except.ok.injEq]
  constructor
  · rintro ⟨_, ⟨_, rfl⟩, _, ⟨hr, rfl⟩, rfl⟩; exact ⟨hr, rfl⟩
  · rintro ⟨hr, rfl⟩; exact ⟨_, ⟨by omega, rfl⟩, _, ⟨hr, rfl⟩, rfl⟩

theorem addBody_ok {rd rs1 rs2 : Operand} {s t : State} :
    addBody rd rs1 rs2 s = .ok t ↔ ∃ a b, s.binding rs1 = some a ∧ s.binding rs2 = some b ∧
      addOnto rd a.val b s.cur ((s.pushRow (wordRow a.val)).copy (.f s.cur) a.cell) = .ok t := by
  simp only [addBody, except_bind_ok, readOperand_ok, copyWordRow_ok]
  constructor
  · rintro ⟨a, ha, b, hb, _, ⟨_, rfl⟩, h⟩; exact ⟨a, b, ha, hb, h⟩
  · rintro ⟨a, b, ha, hb, h⟩
    have := (addOnto_ok.mp h).1
    simp at this
    exact ⟨a, ha, b, hb, _, ⟨by omega, rfl⟩, h⟩

theorem addpBody_ok {rd rs2 : Operand} {s t : State} :
    addpBody rd rs2 s = .ok t ↔ ∃ a b, s.p = some a ∧ s.binding rs2 = some b ∧
      addOnto rd a.val b (s.cur - 1) s = .ok t := by
  simp only [addpBody, except_bind_ok, readOperand_ok]
  cases h : s.p with
  | none => simp
  | some a => simp

theorem xorOnto_ok {rd : Operand} {a : Word} {b : Binding} {r0 : Nat} {s t : State} :
    xorOnto rd a b r0 s = .ok t ↔ s.cur + 1 < s.params.circuitRows ∧
      t = publish rd ⟨a ^^^ b.val, s.cur + 1, .row⟩
        ((((s.pushRow (decRow b.val)).copy (.f s.cur) b.cell).pushRow
          (decRow (a ^^^ b.val))).sel .qXor r0) := by
  simp only [xorOnto, except_bind_ok, matRow_ok, emitRow_ok, Except.ok.injEq]
  constructor
  · rintro ⟨_, ⟨_, rfl⟩, _, ⟨hr, rfl⟩, rfl⟩; exact ⟨hr, rfl⟩
  · rintro ⟨hr, rfl⟩; exact ⟨_, ⟨by omega, rfl⟩, _, ⟨hr, rfl⟩, rfl⟩

theorem xorBody_ok {rd rs1 rs2 : Operand} {s t : State} :
    xorBody rd rs1 rs2 s = .ok t ↔ ∃ a b, s.binding rs1 = some a ∧ s.binding rs2 = some b ∧
      xorOnto rd a.val b s.cur ((s.pushRow (decRow a.val)).copy (.f s.cur) a.cell) = .ok t := by
  simp only [xorBody, except_bind_ok, readOperand_ok, matRow_ok]
  constructor
  · rintro ⟨a, ha, b, hb, _, ⟨_, rfl⟩, h⟩; exact ⟨a, b, ha, hb, h⟩
  · rintro ⟨a, b, ha, hb, h⟩
    have := (xorOnto_ok.mp h).1
    simp at this
    exact ⟨a, ha, b, hb, _, ⟨by omega, rfl⟩, h⟩

theorem xorpBody_ok {rd rs2 : Operand} {s t : State} :
    xorpBody rd rs2 s = .ok t ↔ ∃ a b, s.p = some a ∧ a.kind = .row ∧ s.binding rs2 = some b ∧
      xorOnto rd a.val b (s.cur - 1) s = .ok t := by
  simp only [xorpBody, except_bind_ok, readOperand_ok]
  cases h : s.p with
  | none => simp
  | some a => cases hk : a.kind <;> simp [hk]

theorem negRows_ok {x : Binding} {s t : State} :
    negRows x s = .ok t ↔ s.cur + 1 < s.params.circuitRows ∧
      t = (((s.pushRow (wordRow x.val)).copy (.f s.cur) x.cell).pushRow
        (wordRow (~~~x.val))).sel .qNot s.cur := by
  simp only [negRows, except_bind_ok, copyWordRow_ok, emitRow_ok, Except.ok.injEq]
  constructor
  · rintro ⟨_, ⟨_, rfl⟩, _, ⟨hr, rfl⟩, rfl⟩; exact ⟨hr, rfl⟩
  · rintro ⟨hr, rfl⟩; exact ⟨_, ⟨by omega, rfl⟩, _, ⟨hr, rfl⟩, rfl⟩

theorem notBody_ok {rd rs1 : Operand} {s t : State} :
    notBody rd rs1 s = .ok t ↔ ∃ x u, s.binding rs1 = some x ∧ negRows x s = .ok u ∧
      t = publish rd ⟨~~~x.val, s.cur + 1, .word⟩ u := by
  simp only [notBody, except_bind_ok, readOperand_ok, Except.ok.injEq]
  constructor
  · rintro ⟨x, hx, u, hu, rfl⟩; exact ⟨x, u, hx, hu, rfl⟩
  · rintro ⟨x, u, hx, hu, rfl⟩; exact ⟨x, hx, u, hu, rfl⟩

theorem decomposedSource_ok {b : Binding} {s : State} {q : Nat × State} :
    decomposedSource b s = .ok q ↔
      (b.kind = .row ∧ q = (b.row, s)) ∨
      (b.kind = .word ∧ s.cur < s.params.circuitRows ∧
        q = (s.cur, (s.pushRow (decRow b.val)).copy (.f s.cur) b.cell)) := by
  cases hk : b.kind
  · simp [decomposedSource, hk, eq_comm]
  · simp only [decomposedSource, hk, except_bind_ok, matRow_ok, Except.ok.injEq]
    constructor
    · rintro ⟨_, ⟨hr, rfl⟩, rfl⟩; exact Or.inr ⟨trivial, hr, rfl⟩
    · rintro (⟨h, _⟩ | ⟨_, hr, rfl⟩)
      · cases h
      · exact ⟨_, ⟨hr, rfl⟩, rfl⟩

theorem limbRotBody_ok {k : Fin 8} {rd rs1 : Operand} {s t : State} :
    limbRotBody k rd rs1 s = .ok t ↔ ∃ b r u, s.binding rs1 = some b ∧
      decomposedSource b s = .ok (r, u) ∧ u.cur < u.params.circuitRows ∧
      t = publish rd ⟨rotr b.val (8 * k.val), u.cur, .row⟩
        ((u.pushRow (decRow (rotr b.val (8 * k.val)))).copyAll (limbCopies k u.cur r)) := by
  simp only [limbRotBody, except_bind_ok, readOperand_ok, emitRow_ok, Except.ok.injEq, Prod.exists]
  constructor
  · rintro ⟨b, hb, r, u, hu, _, ⟨hr, rfl⟩, rfl⟩; exact ⟨b, r, u, hb, hu, hr, rfl⟩
  · rintro ⟨b, r, u, hb, hu, hr, rfl⟩; exact ⟨b, hb, r, u, hu, _, ⟨hr, rfl⟩, rfl⟩

theorem rot63Source_ok {b : Binding} {s : State} {q : Nat × State} :
    rot63Source b s = .ok q ↔
      ((∃ a, s.p = some a ∧ a.row = b.row) ∧ q = (s.cur - 1, s)) ∨
      ((∀ a, s.p = some a → a.row ≠ b.row) ∧ s.cur < s.params.circuitRows ∧
        q = (s.cur, (s.pushRow (wordRow b.val)).copy (.f s.cur) b.cell)) := by
  unfold rot63Source
  cases hp : s.p with
  | none =>
    simp only [Option.any_none, Bool.false_eq_true, if_false, except_bind_ok, copyWordRow_ok,
      Except.ok.injEq]
    aesop
  | some a =>
    by_cases h : a.row = b.row
    · simp [Binding.cell, h, eq_comm]
    · simp only [Option.any_some, Binding.cell, beq_iff_eq, Cell.f.injEq, h, if_false,
        except_bind_ok, copyWordRow_ok, Except.ok.injEq]
      aesop

theorem rotr63Body_ok {rd rs1 : Operand} {s t : State} :
    rotr63Body rd rs1 s = .ok t ↔ ∃ b r u, s.binding rs1 = some b ∧ rot63Source b s = .ok (r, u) ∧
      u.cur + 1 < u.params.circuitRows ∧
      t = publish rd ⟨rotr b.val 63, u.cur + 1, .row⟩
        (((u.pushRow (highBitRow b.val)).pushRow (decRow (rotr b.val 63))).sel .qRot63 r) := by
  simp only [rotr63Body, except_bind_ok, readOperand_ok, emitRow_ok, Except.ok.injEq, Prod.exists]
  constructor
  · rintro ⟨b, hb, r, u, hu, _, ⟨_, rfl⟩, _, ⟨hr, rfl⟩, rfl⟩; exact ⟨b, r, u, hb, hu, hr, rfl⟩
  · rintro ⟨b, r, u, hb, hu, hr, rfl⟩
    exact ⟨b, hb, r, u, hu, _, ⟨by omega, rfl⟩, _, ⟨hr, rfl⟩, rfl⟩

theorem initBody_ok {s t : State} :
    initBody s = .ok t ↔ (1 ≤ s.params.outLen ∧ s.params.outLen ≤ 64) ∧ s.keyLen ≤ 64 ∧
      s.x.length = s.params.inputLen ∧ s.blockCount ≤ maxBlocks ∧
      s.cur + 10 ≤ s.params.circuitRows ∧
      t = { afterConsts (initConstants s.keyLen s.params.outLen) s with
        iv := ivBindings s.cur
        h := hBindings (paramWord s.keyLen s.params.outLen) s.cur
        z := some (s.cur + 9)
        p := none
        gadget := .constantsLoaded } := by
  simp only [initBody, except_bind_ok, require_ok, constRows_ok, Except.ok.injEq,
    Bool.and_eq_true, decide_eq_true_eq, beq_iff_eq]
  constructor
  · rintro ⟨_, h1, _, h2, _, h3, _, h4, _, ⟨hr, rfl⟩, rfl⟩
    refine ⟨h1, h2, h3, h4, ?_, rfl⟩
    rcases hr with hr | hr
    · simp [initConstants] at hr
    · simpa [initConstants] using hr
  · rintro ⟨h1, h2, h3, h4, hr, rfl⟩
    exact ⟨(), h1, (), h2, (), h3, (), h4, _, ⟨Or.inr (by simpa [initConstants] using hr), rfl⟩, rfl⟩

theorem ldblkBody_ok {b : Nat} {s t : State} :
    ldblkBody b s = .ok t ↔ b < s.blockCount ∧ s.sourcesExist = true ∧
      (s.params.hostRangeCheck = true → blockInRange s b = true) ∧
      s.cur + 16 ≤ s.params.circuitRows ∧
      t = { afterMessages s b (List.finRange 16) s with
        m := messageBindings s b s.cur
        p := none
        gadget := .processingBlock } := by
  simp only [ldblkBody, except_bind_ok, require_ok, messageRows_ok, Except.ok.injEq,
    decide_eq_true_eq, Bool.or_eq_true, Bool.not_eq_true']
  constructor
  · rintro ⟨_, h1, _, h2, _, h3, _, ⟨hr, rfl⟩, rfl⟩
    refine ⟨h1, h2, ?_, ?_, rfl⟩
    · intro hc; rcases h3 with h3 | h3
      · simp [hc] at h3
      · exact h3
    · rcases hr with hr | hr
      · simp at hr
      · simpa using hr
  · rintro ⟨h1, h2, h3, hr, rfl⟩
    refine ⟨(), h1, (), h2, (), ?_, _, ⟨Or.inr (by simpa using hr), rfl⟩, rfl⟩
    cases hc : s.params.hostRangeCheck
    · exact Or.inl rfl
    · exact Or.inr (h3 hc)

theorem finalWord_ok {b : Nat} {x : Binding} {s : State} {q : Binding × State} :
    finalWord b x s = .ok q ↔
      (isFinalBlock s.params.inputLen s.keyLen b = true ∧
        ∃ t, negRows x s = .ok t ∧ q = (⟨~~~x.val, s.cur + 1, .word⟩, t)) ∨
      (isFinalBlock s.params.inputLen s.keyLen b = false ∧ q = (x, s)) := by
  unfold finalWord
  cases h : isFinalBlock s.params.inputLen s.keyLen b
  · simp [eq_comm]
  · simp only [if_true, except_bind_ok, Except.ok.injEq]
    constructor
    · rintro ⟨t, ht, rfl⟩; exact Or.inl ⟨trivial, t, ht, rfl⟩
    · rintro (⟨_, t, ht, rfl⟩ | ⟨h, _⟩)
      · exact ⟨t, ht, rfl⟩
      · cases h

theorem vinitBody_ok {b : Nat} {s t : State} :
    vinitBody b s = .ok t ↔ b < s.blockCount ∧
      (∀ o ∈ hOperands, ∃ c, s.binding o = some c) ∧
      (∀ o ∈ vinitIvOperands, ∃ c, s.binding o = some c) ∧
      ∃ x f u, s.iv[6] = some x ∧ s.cur < s.params.circuitRows ∧
        finalWord b x ((s.pushRow (fixedRow (counterWord s b))).copy (.f s.cur) (.k s.cur))
          = .ok (f, u) ∧
        t = { u with
          v := vectorBindings s (some ⟨counterWord s b, s.cur, .word⟩) (some f)
          p := none } := by
  simp only [vinitBody, except_bind_ok, require_ok, requireBound_ok, readOperand_ok, constRow_ok,
    Except.ok.injEq, decide_eq_true_eq, Prod.exists]
  constructor
  · rintro ⟨_, h1, _, h2, _, h3, x, hx, _, ⟨hr, rfl⟩, f, u, hf, rfl⟩
    exact ⟨h1, h2, h3, x, f, u, hx, hr, hf, rfl⟩
  · rintro ⟨h1, h2, h3, x, f, u, hx, hr, hf, rfl⟩
    exact ⟨(), h1, (), h2, (), h3, x, hx, _, ⟨hr, rfl⟩, f, u, hf, rfl⟩

theorem outBody_ok {s t : State} :
    outBody s = .ok t ↔ (∀ o ∈ hOperands, ∃ c, s.binding o = some c) ∧
      ∃ u, decomposeH (List.finRange 8) s = .ok u ∧
        t = { u.copyAll (digestCopies u) with p := none, gadget := .finalized } := by
  simp only [outBody, except_bind_ok, requireBound_ok, Except.ok.injEq]
  constructor
  · rintro ⟨_, h, u, hu, rfl⟩; exact ⟨h, u, hu, rfl⟩
  · rintro ⟨h, u, hu, rfl⟩; exact ⟨(), h, u, hu, rfl⟩

/-- One word of OUT's decomposition: a `Row` is kept, a `Word` gets a decomposed row. -/
theorem decomposeH_cons_ok {j : Fin 8} {js : List (Fin 8)} {s t : State} :
    decomposeH (j :: js) s = .ok t ↔ ∃ b, s.h[j] = some b ∧
      ((b.kind = .row ∧ decomposeH js s = .ok t) ∨
       (b.kind = .word ∧ s.cur < s.params.circuitRows ∧
        decomposeH js (((s.pushRow (decRow b.val)).copy (.f s.cur) b.cell).bind (.h j)
          ⟨b.val, s.cur, .row⟩) = .ok t)) := by
  simp only [decomposeH, except_bind_ok, readOperand_ok]
  constructor
  · rintro ⟨b, hb, h⟩
    refine ⟨b, hb, ?_⟩
    cases hk : b.kind
    · simp only [hk] at h; exact Or.inl ⟨rfl, h⟩
    · simp only [hk, except_bind_ok, matRow_ok] at h
      obtain ⟨_, ⟨hr, rfl⟩, h⟩ := h
      exact Or.inr ⟨rfl, hr, h⟩
  · rintro ⟨b, hb, ⟨hk, h⟩ | ⟨hk, hr, h⟩⟩
    · exact ⟨b, hb, by simp only [hk]; exact h⟩
    · refine ⟨b, hb, ?_⟩
      simp only [hk, except_bind_ok, matRow_ok]
      exact ⟨_, ⟨hr, rfl⟩, h⟩

@[simp] theorem decomposeH_nil (s : State) : decomposeH [] s = .ok s := rfl

/-! ## The frame of a command -/

/-- A command completes when it is legal, the tables are loaded, the gadget state accepts it and its own
rule raises no fault. -/
theorem command_ok {legal : Bool} {acc : GadgetState → Bool} {body : State → Except Fault State}
    {s u : State} (hl : legal = true) (hs : s.loaded = true) (ha : acc s.gadget = true)
    (hb : body s = .ok u) : command legal acc body s = .next { u with pc := u.pc + 1 } := by
  have : (body s) = .ok u := hb
  simp [command, finish, require, hl, hs, ha, hb, bind, Except.bind]

/-- A legal command in a state that accepts it, whose own rule raises a fault. -/
theorem command_error {legal : Bool} {acc : GadgetState → Bool} {body : State → Except Fault State}
    {s : State} {e : Fault} (hl : legal = true) (hs : s.loaded = true) (ha : acc s.gadget = true)
    (hb : body s = .error e) : command legal acc body s = .next (raiseFault e s) := by
  simp [command, finish, require, hl, hs, ha, hb, bind, Except.bind]

/-- A legal command that the machine does not accept now (R280). -/
theorem command_sequence {legal : Bool} {acc : GadgetState → Bool}
    {body : State → Except Fault State} {s : State} (hl : legal = true)
    (h : s.loaded = false ∨ acc s.gadget = false) :
    command legal acc body s = .next (raiseFault .sequenceViolation s) := by
  rcases h with h | h
  · simp [command, finish, require, hl, h, bind, Except.bind]
  · cases hs : s.loaded <;> simp [command, finish, require, hl, h, hs, bind, Except.bind]

/-- An illegal command (R97, R278). -/
theorem command_illegal {acc : GadgetState → Bool} {body : State → Except Fault State} {s : State} :
    command false acc body s = .next (raiseFault .illegalCommand s) := by
  simp [command, finish, require, bind, Except.bind]

/-- Everything a command can do: it records a fault and changes nothing else, or it is legal and
accepted, its own rule completes, and `pc` advances. -/
theorem command_next {legal : Bool} {acc : GadgetState → Bool} {body : State → Except Fault State}
    {s t : State} (h : command legal acc body s = .next t) :
    (∃ e, t = raiseFault e s) ∨
      (legal = true ∧ s.loaded = true ∧ acc s.gadget = true ∧
        ∃ u, body s = .ok u ∧ t = { u with pc := u.pc + 1 }) := by
  cases legal
  · rw [command_illegal] at h
    exact Or.inl ⟨_, (Host.Outcome.next.inj h).symm⟩
  cases hs : s.loaded
  · rw [command_sequence rfl (Or.inl hs)] at h
    exact Or.inl ⟨_, (Host.Outcome.next.inj h).symm⟩
  cases ha : acc s.gadget
  · rw [command_sequence rfl (Or.inr ha)] at h
    exact Or.inl ⟨_, (Host.Outcome.next.inj h).symm⟩
  cases hb : body s with
  | error e =>
    rw [command_error rfl hs ha hb] at h
    exact Or.inl ⟨_, (Host.Outcome.next.inj h).symm⟩
  | ok u =>
    rw [command_ok rfl hs ha hb] at h
    exact Or.inr ⟨rfl, rfl, rfl, u, rfl, (Host.Outcome.next.inj h).symm⟩

/-- A command always answers a next state. -/
theorem command_total (legal : Bool) (acc : GadgetState → Bool) (body : State → Except Fault State)
    (s : State) : ∃ t, command legal acc body s = .next t := by
  unfold command finish
  split
  · exact ⟨_, rfl⟩
  · exact ⟨_, rfl⟩

/-! ## Every instruction as a command -/

/-- The gadget states that accept an instruction (R280). -/
def acceptsOf : Instr → GadgetState → Bool
  | .init => acceptsInit
  | .ldblk _ => acceptsLdblk
  | .vinit _ => acceptsVinit
  | .out => acceptsOut
  | .row _ _ | .add _ _ _ | .addp _ _ | .xor _ _ _ | .xorp _ _ | .not _ _ | .rotr16 _ _
  | .rotr24 _ _ | .rotr32 _ _ | .rotr63 _ _ => acceptsWord

/-- The rule of an instruction, the checks of `command` left out. -/
def bodyOf : Instr → State → Except Fault State
  | .init => initBody
  | .ldblk blk => ldblkBody blk.toNat
  | .vinit blk => vinitBody blk.toNat
  | .out => outBody
  | .row rd rs1 => rowBody rd rs1
  | .add rd rs1 rs2 => addBody rd rs1 rs2
  | .addp rd rs2 => addpBody rd rs2
  | .xor rd rs1 rs2 => xorBody rd rs1 rs2
  | .xorp rd rs2 => xorpBody rd rs2
  | .not rd rs1 => notBody rd rs1
  | .rotr16 rd rs1 => limbRotBody 2 rd rs1
  | .rotr24 rd rs1 => limbRotBody 3 rd rs1
  | .rotr32 rd rs1 => limbRotBody 4 rd rs1
  | .rotr63 rd rs1 => rotr63Body rd rs1

/-- `exec` runs every instruction in the frame of a command. -/
theorem exec_eq_command (i : Instr) (s : State) :
    exec i s = command i.wf (acceptsOf i) (bodyOf i) s := by
  cases i <;> rfl

/-- Everything `exec` can do. -/
theorem exec_next {i : Instr} {s t : State} (h : exec i s = .next t) :
    (∃ e, t = raiseFault e s) ∨
      (i.wf = true ∧ s.loaded = true ∧ acceptsOf i s.gadget = true ∧
        ∃ u, bodyOf i s = .ok u ∧ t = { u with pc := u.pc + 1 }) :=
  command_next (exec_eq_command i s ▸ h)

/-- `exec` always answers a next state. -/
theorem exec_total (i : Instr) (s : State) : ∃ t, exec i s = .next t := by
  rw [exec_eq_command]
  exact command_total _ _ _ _

end Sys2Proof.Machine
end

