-- ==== Sys2Proof/Laws/Grow.lean ====
section
/-! SUPPORT. Every row-building operation only writes the trace, `cur` and `Eq`: it is a `grow` of the state
before it. The result of a word command is then one `publish` over one `grow` (`wordBody_ok`), whatever the
command. -/

namespace Sys2Proof.Machine

/-- A state with another trace, `cur` and `Eq`. -/
def State.grow (tr : List TraceRow) (c : Nat) (e : List (Cell × Cell)) (s : State) : State :=
  { s with trace := tr, cur := c, eq := e }

/-! ## The fields of a `grow` -/

@[simp] theorem grow_v (tr : List TraceRow) (c : Nat) (e : List (Cell × Cell)) (s : State) :
    (s.grow tr c e).v = s.v := rfl
@[simp] theorem grow_m (tr : List TraceRow) (c : Nat) (e : List (Cell × Cell)) (s : State) :
    (s.grow tr c e).m = s.m := rfl
@[simp] theorem grow_h (tr : List TraceRow) (c : Nat) (e : List (Cell × Cell)) (s : State) :
    (s.grow tr c e).h = s.h := rfl
@[simp] theorem grow_iv (tr : List TraceRow) (c : Nat) (e : List (Cell × Cell)) (s : State) :
    (s.grow tr c e).iv = s.iv := rfl
@[simp] theorem grow_p (tr : List TraceRow) (c : Nat) (e : List (Cell × Cell)) (s : State) :
    (s.grow tr c e).p = s.p := rfl
@[simp] theorem grow_pc (tr : List TraceRow) (c : Nat) (e : List (Cell × Cell)) (s : State) :
    (s.grow tr c e).pc = s.pc := rfl
@[simp] theorem grow_program (tr : List TraceRow) (c : Nat) (e : List (Cell × Cell)) (s : State) :
    (s.grow tr c e).program = s.program := rfl
@[simp] theorem grow_gadget (tr : List TraceRow) (c : Nat) (e : List (Cell × Cell)) (s : State) :
    (s.grow tr c e).gadget = s.gadget := rfl
@[simp] theorem grow_configured (tr : List TraceRow) (c : Nat) (e : List (Cell × Cell)) (s : State) :
    (s.grow tr c e).configured = s.configured := rfl
@[simp] theorem grow_loaded (tr : List TraceRow) (c : Nat) (e : List (Cell × Cell)) (s : State) :
    (s.grow tr c e).loaded = s.loaded := rfl
@[simp] theorem grow_fault (tr : List TraceRow) (c : Nat) (e : List (Cell × Cell)) (s : State) :
    (s.grow tr c e).fault = s.fault := rfl
@[simp] theorem grow_trace (tr : List TraceRow) (c : Nat) (e : List (Cell × Cell)) (s : State) :
    (s.grow tr c e).trace = tr := rfl
@[simp] theorem grow_cur (tr : List TraceRow) (c : Nat) (e : List (Cell × Cell)) (s : State) :
    (s.grow tr c e).cur = c := rfl
@[simp] theorem grow_eq (tr : List TraceRow) (c : Nat) (e : List (Cell × Cell)) (s : State) :
    (s.grow tr c e).eq = e := rfl
@[simp] theorem grow_z (tr : List TraceRow) (c : Nat) (e : List (Cell × Cell)) (s : State) :
    (s.grow tr c e).z = s.z := rfl
@[simp] theorem grow_inst (tr : List TraceRow) (c : Nat) (e : List (Cell × Cell)) (s : State) :
    (s.grow tr c e).inst = s.inst := rfl
@[simp] theorem grow_x (tr : List TraceRow) (c : Nat) (e : List (Cell × Cell)) (s : State) :
    (s.grow tr c e).x = s.x := rfl
@[simp] theorem grow_y (tr : List TraceRow) (c : Nat) (e : List (Cell × Cell)) (s : State) :
    (s.grow tr c e).y = s.y := rfl
@[simp] theorem grow_params (tr : List TraceRow) (c : Nat) (e : List (Cell × Cell)) (s : State) :
    (s.grow tr c e).params = s.params := rfl
@[simp] theorem grow_binding (tr : List TraceRow) (c : Nat) (e : List (Cell × Cell)) (s : State)
    (o : Operand) : (s.grow tr c e).binding o = s.binding o := by cases o <;> rfl

/-! ## Operations as a `grow` -/

theorem pushRow_as_grow (row : TraceRow) (s : State) :
    s.pushRow row = s.grow (s.trace ++ [row]) (s.cur + 1) s.eq := rfl

theorem sel_as_grow (q : Selector) (r : Nat) (s : State) :
    s.sel q r = s.grow (s.trace.modify r fun row => { row with sel := row.sel.enable q }) s.cur s.eq :=
  rfl

theorem copyAll_as_grow (ps : List (Cell × Cell)) (s : State) :
    s.copyAll ps = s.grow s.trace s.cur (s.eq ++ ps) := rfl

theorem pushRow_grow (row : TraceRow) (tr : List TraceRow) (c : Nat) (e : List (Cell × Cell))
    (s : State) : (s.grow tr c e).pushRow row = s.grow (tr ++ [row]) (c + 1) e := rfl

theorem copy_grow (a b : Cell) (tr : List TraceRow) (c : Nat) (e : List (Cell × Cell)) (s : State) :
    (s.grow tr c e).copy a b = s.grow tr c (e ++ [(a, b)]) := rfl

theorem copyAll_grow (ps : List (Cell × Cell)) (tr : List TraceRow) (c : Nat)
    (e : List (Cell × Cell)) (s : State) : (s.grow tr c e).copyAll ps = s.grow tr c (e ++ ps) := rfl

theorem sel_grow (q : Selector) (r : Nat) (tr : List TraceRow) (c : Nat) (e : List (Cell × Cell))
    (s : State) : (s.grow tr c e).sel q r =
      s.grow (tr.modify r fun row => { row with sel := row.sel.enable q }) c e := rfl

/-- The state after a word command, from its `publish` over a `grow`. -/
theorem publish_grow (o : Operand) (b : Binding) (tr : List TraceRow) (c : Nat)
    (e : List (Cell × Cell)) (s : State) :
    { publish o b (s.grow tr c e) with pc := (publish o b (s.grow tr c e)).pc + 1 } =
      { s.bind o b with p := some b, pc := s.pc + 1, cur := c, trace := tr, eq := e } := by
  cases o <;> rfl

/-! ## A selector set on a row of a longer trace -/

theorem modify_append_lt {l k : List TraceRow} {r : Nat} {f : TraceRow → TraceRow}
    (h : r < l.length) : (l ++ k).modify r f = l.modify r f ++ k := by
  induction l generalizing r with
  | nil => simp at h
  | cons a l ih =>
    cases r with
    | zero => simp
    | succ r => simpa using ih (by simpa using h)

theorem modify_append_ge (l k : List TraceRow) (n : Nat) (f : TraceRow → TraceRow) :
    (l ++ k).modify (l.length + n) f = l ++ k.modify n f := by
  induction l with
  | nil => simp
  | cons a l ih => simpa [Nat.add_right_comm] using ih

theorem modify_append_length (l k : List TraceRow) (f : TraceRow → TraceRow) :
    (l ++ k).modify l.length f = l ++ k.modify 0 f := modify_append_ge l k 0 f

/-! ## What a word command can do -/

/-- A word command that completes publishes one binding of its destination over a `grow` of the state; the
binding's row is the last row of the longer trace. -/
theorem wordBody_ok {i : Instr} {rd : Operand} {s u : State} (hd : i.dest? = some rd)
    (h : bodyOf i s = .ok u) : ∃ b tr c e, u = publish rd b (s.grow tr c e) ∧ b.row + 1 = c ∧
      s.cur < c ∧ c ≤ s.params.circuitRows ∧ tr.length = s.trace.length + (c - s.cur) := by
  cases i <;> simp only [Instr.dest?, Option.some.injEq, reduceCtorEq] at hd <;> subst hd
  case row =>
    obtain ⟨b, _, hr, rfl⟩ := rowBody_ok.mp h
    rw [pushRow_as_grow _ s, copy_grow]
    refine ⟨_, _, _, _, rfl, ?_⟩
    simp at hr ⊢
    omega
  case add =>
    obtain ⟨_, _, _, _, h⟩ := addBody_ok.mp h
    obtain ⟨hr, rfl⟩ := addOnto_ok.mp h
    rw [pushRow_as_grow _ s]
    simp only [copy_grow, pushRow_grow, sel_grow]
    refine ⟨_, _, _, _, rfl, ?_⟩
    simp at hr ⊢
    omega
  case addp =>
    obtain ⟨_, _, _, _, h⟩ := addpBody_ok.mp h
    obtain ⟨hr, rfl⟩ := addOnto_ok.mp h
    rw [pushRow_as_grow _ s, copy_grow, pushRow_grow, sel_grow]
    refine ⟨_, _, _, _, rfl, ?_⟩
    simp at hr ⊢
    omega
  case xor =>
    obtain ⟨_, _, _, _, h⟩ := xorBody_ok.mp h
    obtain ⟨hr, rfl⟩ := xorOnto_ok.mp h
    rw [pushRow_as_grow _ s]
    simp only [copy_grow, pushRow_grow, sel_grow]
    refine ⟨_, _, _, _, rfl, ?_⟩
    simp at hr ⊢
    omega
  case xorp =>
    obtain ⟨_, _, _, _, _, h⟩ := xorpBody_ok.mp h
    obtain ⟨hr, rfl⟩ := xorOnto_ok.mp h
    rw [pushRow_as_grow _ s, copy_grow, pushRow_grow, sel_grow]
    refine ⟨_, _, _, _, rfl, ?_⟩
    simp at hr ⊢
    omega
  case not =>
    obtain ⟨_, _, _, h', rfl⟩ := notBody_ok.mp h
    obtain ⟨hr, rfl⟩ := negRows_ok.mp h'
    rw [pushRow_as_grow _ s, copy_grow, pushRow_grow, sel_grow]
    refine ⟨_, _, _, _, rfl, ?_⟩
    simp at hr ⊢
    omega
  case rotr63 =>
    obtain ⟨_, _, _, _, h', hr, rfl⟩ := rotr63Body_ok.mp h
    obtain ⟨_, h'⟩ | ⟨_, _, h'⟩ := rot63Source_ok.mp h' <;> cases h' <;> rw [pushRow_as_grow _ s]
    · rw [pushRow_grow, sel_grow]
      refine ⟨_, _, _, _, rfl, ?_⟩
      simp at hr ⊢
      omega
    · simp only [copy_grow, pushRow_grow, sel_grow]
      refine ⟨_, _, _, _, rfl, ?_⟩
      simp at hr ⊢
      omega
  all_goals
    obtain ⟨_, _, _, _, h', hr, rfl⟩ := limbRotBody_ok.mp h
    obtain ⟨_, h'⟩ | ⟨_, _, h'⟩ := decomposedSource_ok.mp h' <;> cases h' <;> rw [pushRow_as_grow _ s]
    · rw [copyAll_grow]
      refine ⟨_, _, _, _, rfl, ?_⟩
      simp at hr ⊢
      omega
    · simp only [copy_grow, pushRow_grow, copyAll_grow]
      refine ⟨_, _, _, _, rfl, ?_⟩
      simp at hr ⊢
      omega

end Sys2Proof.Machine
end

