-- ==== Sys2Proof/Laws/Memory.lean ====
section
/-! SUPPORT. Every operation over the trace keeps its form (`State.traceWf`) and, in a field above 2^64, the
canonical form of all cells (`Memory.wf`); the state a run starts from has both; and reading cells after an
operation: a row that is appended reads as it was given, and the rows before it as before
(spec/00_scope.md R12; spec/10_state.md R31; spec/20_memory.md R61, R62). -/

namespace Sys2Proof.Machine

/-! ## The form of the trace -/

theorem traceWf_iff (s : State) :
    s.traceWf = true ↔ s.cur = s.trace.length ∧ s.cur ≤ s.params.circuitRows := by
  simp [State.traceWf]

/-- The form of the trace is a matter of the trace, `cur` and the parameters only. -/
theorem traceWf_congr {s t : State} (h1 : t.trace.length = s.trace.length) (h2 : t.cur = s.cur)
    (h3 : t.params = s.params) : t.traceWf = s.traceWf := by
  simp [State.traceWf, h1, h2, h3]

theorem reset_traceWf : State.reset.traceWf = true := by decide

theorem pushRow_traceWf {row : TraceRow} {s : State} (h : s.traceWf = true)
    (hr : s.cur < s.params.circuitRows) : (s.pushRow row).traceWf = true := by
  rw [traceWf_iff] at h ⊢
  simp
  omega

theorem emitRow_traceWf {row : TraceRow} {s t : State} (h : s.traceWf = true)
    (ht : emitRow row s = .ok t) : t.traceWf = true := by
  obtain ⟨hr, rfl⟩ := emitRow_ok.mp ht
  exact pushRow_traceWf h hr

@[simp] theorem copy_traceWf (a b : Cell) (s : State) : (s.copy a b).traceWf = s.traceWf := rfl

@[simp] theorem copyAll_traceWf (ps : List (Cell × Cell)) (s : State) :
    (s.copyAll ps).traceWf = s.traceWf := rfl

@[simp] theorem raiseFault_traceWf (c : Fault) (s : State) : (raiseFault c s).traceWf = s.traceWf := rfl

@[simp] theorem sel_traceWf (q : Selector) (r : Nat) (s : State) :
    (s.sel q r).traceWf = s.traceWf :=
  traceWf_congr (by simp) rfl rfl

@[simp] theorem bind_traceWf (o : Operand) (b : Binding) (s : State) :
    (s.bind o b).traceWf = s.traceWf :=
  traceWf_congr (by simp) (by simp) (by simp)

@[simp] theorem publish_traceWf (o : Operand) (b : Binding) (s : State) :
    (publish o b s).traceWf = s.traceWf :=
  traceWf_congr (by simp) (by simp) (by simp)

theorem matRow_traceWf {a : Word} {c : Cell} {s t : State} (h : s.traceWf = true)
    (ht : matRow a c s = .ok t) : t.traceWf = true := by
  obtain ⟨hr, rfl⟩ := matRow_ok.mp ht
  exact pushRow_traceWf h hr

theorem copyWordRow_traceWf {a : Word} {c : Cell} {s t : State} (h : s.traceWf = true)
    (ht : copyWordRow a c s = .ok t) : t.traceWf = true := by
  obtain ⟨hr, rfl⟩ := copyWordRow_ok.mp ht
  exact pushRow_traceWf h hr

theorem copyCarryRow_traceWf {a : Word} {c : Cell} {k : Nat} {s t : State} (h : s.traceWf = true)
    (ht : copyCarryRow a c k s = .ok t) : t.traceWf = true := by
  obtain ⟨hr, rfl⟩ := copyCarryRow_ok.mp ht
  exact pushRow_traceWf h hr

theorem constRow_traceWf {a : Word} {s t : State} (h : s.traceWf = true)
    (ht : constRow a s = .ok t) : t.traceWf = true := by
  obtain ⟨hr, rfl⟩ := constRow_ok.mp ht
  exact pushRow_traceWf h hr

theorem constRows_traceWf {as : List Word} {s t : State} (h : s.traceWf = true)
    (ht : constRows as s = .ok t) : t.traceWf = true := by
  induction as generalizing s with
  | nil => cases ht; exact h
  | cons a as ih =>
    obtain ⟨u, hu, ht⟩ := except_bind_ok.mp ht
    exact ih (constRow_traceWf h hu) ht

theorem messageRows_traceWf {s : State} {b : Nat} {js : List (Fin 16)} {t u : State}
    (h : t.traceWf = true) (hu : messageRows s b js t = .ok u) : u.traceWf = true := by
  induction js generalizing t with
  | nil => cases hu; exact h
  | cons j js ih =>
    obtain ⟨w, hw, hu⟩ := except_bind_ok.mp hu
    exact ih ((copyAll_traceWf _ _).trans (emitRow_traceWf h hw)) hu

theorem negRows_traceWf {x : Binding} {s t : State} (h : s.traceWf = true)
    (ht : negRows x s = .ok t) : t.traceWf = true := by
  simp only [negRows, except_bind_ok, Except.ok.injEq] at ht
  obtain ⟨u, hu, w, hw, rfl⟩ := ht
  exact (sel_traceWf _ _ _).trans (emitRow_traceWf (copyWordRow_traceWf h hu) hw)

/-! ## Field elements in every cell -/

theorem inField_iff {p : Nat} {row : TraceRow} : row.inField p = true ↔
    (∀ a, row.f = some a → a < p) ∧ (∀ (i : Fin 8) (a : Nat), row.l[i] = some a → a < p) ∧
      ∀ a, row.k = some a → a < p := by
  simp only [TraceRow.inField, Bool.and_eq_true, Option.all_eq_true, decide_eq_true_eq,
    List.all_eq_true, Vector.mem_toList_iff, and_assoc]
  refine and_congr_right fun _ => and_congr_left fun _ => ?_
  refine ⟨fun h i a e => h _ (Vector.getElem_mem i.isLt) a e, fun h c hc a e => ?_⟩
  obtain ⟨i, hi, rfl⟩ := Vector.getElem_of_mem hc
  exact h ⟨i, hi⟩ a e

/-- The cells are in the field exactly when the model's read of each of them is (R12, R61). -/
theorem cellsInField_iff (s : State) :
    s.cellsInField = true ↔ ∀ c a, s.cell? c = some a → a < s.params.fieldP := by
  simp only [State.cellsInField, Bool.and_eq_true, List.all_eq_true, decide_eq_true_eq, inField_iff,
    Vector.mem_toList_iff]
  constructor
  · rintro ⟨⟨⟨ht, hx⟩, hy⟩, hi⟩ c a h
    cases c with
    | f r =>
      obtain ⟨row, hr, e⟩ := Option.bind_eq_some_iff.mp h
      exact (ht row (List.mem_of_getElem? hr)).1 a e
    | l i r =>
      obtain ⟨row, hr, e⟩ := Option.bind_eq_some_iff.mp h
      exact (ht row (List.mem_of_getElem? hr)).2.1 i a e
    | k r =>
      obtain ⟨row, hr, e⟩ := Option.bind_eq_some_iff.mp h
      exact (ht row (List.mem_of_getElem? hr)).2.2 a e
    | x i => exact hx a (List.mem_of_getElem? h)
    | y i => exact hy a (List.mem_of_getElem? h)
    | inst k =>
      obtain rfl := Option.some.inj h
      exact hi _ (Vector.getElem_mem k.isLt)
  · intro h
    refine ⟨⟨⟨fun row hr => ?_, fun a ha => ?_⟩, fun a ha => ?_⟩, fun a ha => ?_⟩
    · obtain ⟨r, hr⟩ := List.getElem?_of_mem hr
      exact ⟨fun a e => h (.f r) a (by simp [State.cell?, hr, e]),
        fun i a e => h (.l i r) a (by simp only [State.cell?, hr, Option.bind_some]; exact e),
        fun a e => h (.k r) a (by simp [State.cell?, hr, e])⟩
    · obtain ⟨i, e⟩ := List.getElem?_of_mem ha
      exact h (.x i) a e
    · obtain ⟨i, e⟩ := List.getElem?_of_mem ha
      exact h (.y i) a e
    · obtain ⟨k, hk, rfl⟩ := Vector.getElem_of_mem ha
      exact h (.inst ⟨k, hk⟩) _ rfl

theorem noLimbs_none (i : Fin 8) : noLimbs[i] = none := by simp [noLimbs]

theorem wordRow_inField {p : Nat} (hp : 2 ^ 64 ≤ p) (a : Word) : (wordRow a).inField p = true :=
  inField_iff.mpr ⟨fun _ e => by cases e; exact a.isLt.trans_le hp,
    fun i _ e => by simp [wordRow, noLimbs] at e, fun _ e => by cases e⟩

theorem fixedRow_inField {p : Nat} (hp : 2 ^ 64 ≤ p) (a : Word) : (fixedRow a).inField p = true :=
  inField_iff.mpr ⟨fun _ e => by cases e; exact a.isLt.trans_le hp,
    fun i _ e => by simp [fixedRow, wordRow, noLimbs] at e,
    fun _ e => by cases e; exact a.isLt.trans_le hp⟩

theorem decRow_inField {p : Nat} (hp : 2 ^ 64 ≤ p) (a : Word) : (decRow a).inField p = true := by
  refine inField_iff.mpr ⟨fun _ e => by cases e; exact a.isLt.trans_le hp, fun i b e => ?_,
    fun _ e => by cases e⟩
  obtain rfl : (byteAt a i).toNat = b := by simpa [decRow, leLimbs] using e
  have := (byteAt a i).isLt
  omega

/-- The two Bits are 0 or 1 (R142, R189). -/
theorem carryOf_le_one (a b : Word) : carryOf a b ≤ 1 := by
  have := a.isLt
  have := b.isLt
  simp only [carryOf, Nat.shiftRight_eq_div_pow]
  omega

theorem highBit_le_one (a : Word) : highBit a ≤ 1 := by
  have := a.isLt
  simp only [highBit, Nat.shiftRight_eq_div_pow]
  omega

theorem carryRow_inField {p : Nat} (hp : 2 ^ 64 ≤ p) (a : Word) {c : Nat} (hc : c ≤ 1) :
    (carryRow a c).inField p = true := by
  refine inField_iff.mpr ⟨fun _ e => by cases e; exact a.isLt.trans_le hp, fun i b e => ?_,
    fun _ e => by cases e⟩
  simp only [carryRow, noLimbs, Fin.getElem_fin, Vector.getElem_set, Vector.getElem_replicate] at e
  split at e
  · cases e; omega
  · cases e

theorem highBitRow_inField {p : Nat} (hp : 2 ^ 64 ≤ p) (a : Word) : (highBitRow a).inField p = true :=
  inField_iff.mpr ⟨fun _ e => by cases e; have := highBit_le_one a; omega,
    fun i _ e => by simp [highBitRow, noLimbs] at e, fun _ e => by cases e⟩

/-- The value of a source is a field element where the external cells hold field elements. -/
theorem sourceValue_lt {s : State} (h : s.cellsInField = true) (hp : 0 < s.params.fieldP)
    (src : ByteSource) : s.sourceValue src < s.params.fieldP := by
  have hc := (cellsInField_iff s).mp h
  cases src with
  | input i =>
    simp only [State.sourceValue, List.getD_eq_getElem?_getD]
    cases e : s.x[i]? with
    | none => exact hp
    | some a => exact hc (.x i) a e
  | key i =>
    simp only [State.sourceValue, List.getD_eq_getElem?_getD]
    cases e : s.y[i]? with
    | none => exact hp
    | some a => exact hc (.y i) a e
  | zero => exact hp

theorem messageRow_inField {s : State} (h : s.cellsInField = true) (hp : 2 ^ 64 ≤ s.params.fieldP)
    (b : Nat) (j : Fin 16) : (messageRow s b j).inField s.params.fieldP = true := by
  have hpos : 0 < s.params.fieldP := by omega
  refine inField_iff.mpr ⟨fun a e => ?_, fun i a e => ?_, fun _ e => by cases e⟩
  · cases e
    by_cases hb : ∀ i, s.messageByte b j i < 256
    · rw [messageFelt_of_bytes hb]
      exact (limbSum_lt hb).trans_le hp
    · rw [messageFelt_of_not_bytes hb]
      exact Nat.mod_lt _ hpos
  · obtain rfl : s.messageByte b j i = a := by simpa [messageRow] using e
    exact sourceValue_lt h hpos _

/-! ## The canonical form of the cells -/

theorem wf_iff (s : State) : Memory.wf s = true ↔ s.traceWf = true ∧ s.cellsInField = true := by
  simp [Memory.wf]

theorem reset_wf : Memory.wf State.reset = true := by decide

/-- The canonical form is a matter of the trace, `cur`, the other cells and the parameters. -/
theorem wf_congr {s t : State} (h1 : t.trace = s.trace) (h2 : t.cur = s.cur) (h3 : t.x = s.x)
    (h4 : t.y = s.y) (h5 : t.inst = s.inst) (h6 : t.params = s.params) :
    Memory.wf t = Memory.wf s := by
  simp [Memory.wf, State.traceWf, State.cellsInField, h1, h2, h3, h4, h5, h6]

theorem pushRow_wf {row : TraceRow} {s : State} (h : Memory.wf s = true)
    (hr : s.cur < s.params.circuitRows) (hrow : row.inField s.params.fieldP = true) :
    Memory.wf (s.pushRow row) = true := by
  obtain ⟨h1, h2⟩ := (wf_iff s).mp h
  refine (wf_iff _).mpr ⟨pushRow_traceWf h1 hr, ?_⟩
  simp only [State.cellsInField, Bool.and_eq_true, pushRow_trace, pushRow_x, pushRow_y, pushRow_inst,
    pushRow_params, List.all_append] at h2 ⊢
  exact ⟨⟨⟨⟨h2.1.1.1, by simp [hrow]⟩, h2.1.1.2⟩, h2.1.2⟩, h2.2⟩

theorem emitRow_wf {row : TraceRow} {s t : State} (h : Memory.wf s = true)
    (hrow : row.inField s.params.fieldP = true) (ht : emitRow row s = .ok t) :
    Memory.wf t = true := by
  obtain ⟨hr, rfl⟩ := emitRow_ok.mp ht
  exact pushRow_wf h hr hrow

@[simp] theorem copy_wf (a b : Cell) (s : State) : Memory.wf (s.copy a b) = Memory.wf s := rfl

@[simp] theorem copyAll_wf (ps : List (Cell × Cell)) (s : State) :
    Memory.wf (s.copyAll ps) = Memory.wf s := rfl

@[simp] theorem raiseFault_wf (c : Fault) (s : State) : Memory.wf (raiseFault c s) = Memory.wf s := rfl

@[simp] theorem bind_wf (o : Operand) (b : Binding) (s : State) :
    Memory.wf (s.bind o b) = Memory.wf s := by cases o <;> rfl

@[simp] theorem publish_wf (o : Operand) (b : Binding) (s : State) :
    Memory.wf (publish o b s) = Memory.wf s := by cases o <;> rfl

theorem matRow_wf {a : Word} {c : Cell} {s t : State} (hp : 2 ^ 64 ≤ s.params.fieldP)
    (h : Memory.wf s = true) (ht : matRow a c s = .ok t) : Memory.wf t = true := by
  obtain ⟨hr, rfl⟩ := matRow_ok.mp ht
  exact pushRow_wf h hr (decRow_inField hp a)

theorem copyWordRow_wf {a : Word} {c : Cell} {s t : State} (hp : 2 ^ 64 ≤ s.params.fieldP)
    (h : Memory.wf s = true) (ht : copyWordRow a c s = .ok t) : Memory.wf t = true := by
  obtain ⟨hr, rfl⟩ := copyWordRow_ok.mp ht
  exact pushRow_wf h hr (wordRow_inField hp a)

theorem copyCarryRow_wf {a : Word} {c : Cell} {k : Nat} {s t : State}
    (hp : 2 ^ 64 ≤ s.params.fieldP) (hk : k ≤ 1) (h : Memory.wf s = true)
    (ht : copyCarryRow a c k s = .ok t) : Memory.wf t = true := by
  obtain ⟨hr, rfl⟩ := copyCarryRow_ok.mp ht
  exact pushRow_wf h hr (carryRow_inField hp a hk)

theorem constRow_wf {a : Word} {s t : State} (hp : 2 ^ 64 ≤ s.params.fieldP)
    (h : Memory.wf s = true) (ht : constRow a s = .ok t) : Memory.wf t = true := by
  obtain ⟨hr, rfl⟩ := constRow_ok.mp ht
  exact pushRow_wf h hr (fixedRow_inField hp a)

theorem constRows_wf {as : List Word} {s t : State} (hp : 2 ^ 64 ≤ s.params.fieldP)
    (h : Memory.wf s = true) (ht : constRows as s = .ok t) : Memory.wf t = true := by
  induction as generalizing s with
  | nil => cases ht; exact h
  | cons a as ih =>
    obtain ⟨u, hu, ht⟩ := except_bind_ok.mp ht
    refine ih ?_ (constRow_wf hp h hu) ht
    obtain ⟨_, rfl⟩ := constRow_ok.mp hu
    exact hp

theorem messageRows_wf {s : State} {b : Nat} {js : List (Fin 16)} {t u : State}
    (hp : 2 ^ 64 ≤ s.params.fieldP) (hs : s.cellsInField = true) (hps : t.params = s.params)
    (h : Memory.wf t = true) (hu : messageRows s b js t = .ok u) : Memory.wf u = true := by
  induction js generalizing t with
  | nil => cases hu; exact h
  | cons j js ih =>
    obtain ⟨w, hw, hu⟩ := except_bind_ok.mp hu
    have hwf := emitRow_wf h (hps ▸ messageRow_inField hs hp b j) hw
    obtain ⟨_, rfl⟩ := emitRow_ok.mp hw
    exact ih (t := ((t.pushRow (messageRow s b j)).copyAll (messageCopies s b j t.cur))) hps hwf hu

/-! ## Reading cells -/

/-- The row that is appended to a trace in form is row `cur`. -/
theorem pushRow_trace_cur {row : TraceRow} {s : State} (h : s.traceWf = true) :
    (s.pushRow row).trace[s.cur]? = some row := by
  simp [((traceWf_iff s).mp h).1]

/-- Appending a row leaves every row there is alone. -/
theorem pushRow_trace_lt {row : TraceRow} {s : State} {r : Nat} (h : r < s.trace.length) :
    (s.pushRow row).trace[r]? = s.trace[r]? := by
  simp [List.getElem?_append_left h]

/-- Setting a selector leaves every other row alone. -/
theorem sel_trace_ne {q : Selector} {r r' : Nat} {s : State} (h : r' ≠ r) :
    (s.sel q r).trace[r']? = s.trace[r']? := by
  simp [Ne.symm h]

/-- Setting a selector changes no cell. -/
@[simp] theorem sel_cell (q : Selector) (r : Nat) (s : State) (c : Cell) :
    (s.sel q r).cell? c = s.cell? c := by
  cases c with
  | f n =>
    simp only [State.cell?, sel_trace, List.getElem?_modify]
    cases s.trace[n]? <;> simp; split <;> rfl
  | l i n =>
    simp only [State.cell?, sel_trace, List.getElem?_modify]
    cases s.trace[n]? <;> simp; split <;> rfl
  | k n =>
    simp only [State.cell?, sel_trace, List.getElem?_modify]
    cases s.trace[n]? <;> simp; split <;> rfl
  | x i => rfl
  | y i => rfl
  | inst i => rfl

/-- Setting a selector keeps the canonical form, because it changes no cell. -/
@[simp] theorem sel_wf (q : Selector) (r : Nat) (s : State) :
    Memory.wf (s.sel q r) = Memory.wf s := by
  have h : (s.sel q r).cellsInField = s.cellsInField := by
    rw [Bool.eq_iff_iff, cellsInField_iff, cellsInField_iff]
    simp
  simp [Memory.wf, h]

theorem negRows_wf {x : Binding} {s t : State} (hp : 2 ^ 64 ≤ s.params.fieldP)
    (h : Memory.wf s = true) (ht : negRows x s = .ok t) : Memory.wf t = true := by
  simp only [negRows, except_bind_ok, Except.ok.injEq] at ht
  obtain ⟨u, hu, w, hw, rfl⟩ := ht
  have hu' := copyWordRow_wf hp h hu
  obtain ⟨_, rfl⟩ := copyWordRow_ok.mp hu
  exact (sel_wf _ _ _).trans (emitRow_wf hu' (wordRow_inField hp _) hw)

end Sys2Proof.Machine
end

