-- ==== Sys2Proof/Laws/PerInstr.lean ====
section
/-! SUPPORT. One family of statements about every instruction as syntax: the opcode field of its word is
the opcode of its row of the opcode map (R91, R95). -/

/-- The word of an instruction carries its opcode. -/
def Sys2Proof.Laws.EncodedOpcode.Statement (i : Sys2Proof.Instr) : Prop :=
  Sys2Proof.opcodeField (Sys2Proof.encode i) = i.opcode

namespace Sys2Proof.Laws.EncodedOpcode

theorem init : Statement .init := opcodeField_formatB _ _
theorem ldblk (blk : BitVec 26) : Statement (.ldblk blk) := opcodeField_formatB _ _
theorem vinit (blk : BitVec 26) : Statement (.vinit blk) := opcodeField_formatB _ _
theorem out : Statement .out := opcodeField_formatB _ _
theorem row (rd rs1 : Operand) : Statement (.row rd rs1) := opcodeField_formatR _ _ _ _
theorem add (rd rs1 rs2 : Operand) : Statement (.add rd rs1 rs2) := opcodeField_formatR _ _ _ _
theorem addp (rd rs2 : Operand) : Statement (.addp rd rs2) := opcodeField_formatR _ _ _ _
theorem xor (rd rs1 rs2 : Operand) : Statement (.xor rd rs1 rs2) := opcodeField_formatR _ _ _ _
theorem xorp (rd rs2 : Operand) : Statement (.xorp rd rs2) := opcodeField_formatR _ _ _ _
theorem not (rd rs1 : Operand) : Statement (.not rd rs1) := opcodeField_formatR _ _ _ _
theorem rotr16 (rd rs1 : Operand) : Statement (.rotr16 rd rs1) := opcodeField_formatR _ _ _ _
theorem rotr24 (rd rs1 : Operand) : Statement (.rotr24 rd rs1) := opcodeField_formatR _ _ _ _
theorem rotr32 (rd rs1 : Operand) : Statement (.rotr32 rd rs1) := opcodeField_formatR _ _ _ _
theorem rotr63 (rd rs1 : Operand) : Statement (.rotr63 rd rs1) := opcodeField_formatR _ _ _ _

end Sys2Proof.Laws.EncodedOpcode
end

