-- ==== Sys2Proof/Laws/Step.lean ====
section
/-! SUPPORT. Everything a step, a sequence of commands, a run and a host operation can do. -/

namespace Sys2Proof.Machine

theorem fetch_eq_some {s : State} {w : CommandWord} :
    s.fetch = some w ↔ s.fault = none ∧ s.program[s.pc]? = some w := by
  unfold State.fetch
  cases s.fault <;> simp

/-- A step leaves a run that has ended as it is, records `IllegalCommand`, or runs the command at `pc`. -/
theorem step_next {s t : State} (h : step s = .next t) :
    (s.fetch = none ∧ t = s) ∨
      ∃ w, s.fetch = some w ∧
        ((∃ e, decode w = .error e ∧ t = raiseFault .illegalCommand s) ∨
          ∃ i, decode w = .ok i ∧ exec i s = .next t) := by
  unfold step at h
  cases hf : s.fetch with
  | none =>
    simp only [hf, Host.Outcome.next.injEq] at h
    exact Or.inl ⟨rfl, h.symm⟩
  | some w =>
    refine Or.inr ⟨w, rfl, ?_⟩
    simp only [hf] at h
    cases hd : decode w with
    | error e =>
      simp only [hd, Host.Outcome.next.injEq] at h
      exact Or.inl ⟨e, rfl, h.symm⟩
    | ok i =>
      simp only [hd] at h
      exact Or.inr ⟨i, rfl, h⟩

/-- `step` always answers a next state. -/
theorem step_total (s : State) : ∃ t, step s = .next t := by
  unfold step
  split
  · exact ⟨_, rfl⟩
  · split
    · exact exec_total _ _
    · exact ⟨_, rfl⟩

/-- A machine with a fault recorded stays as it is (R42, R271). -/
theorem step_of_fault {s : State} (h : s.fault ≠ none) : step s = .next s := by
  have hf : s.fetch = none := by
    unfold State.fetch
    cases hs : s.fault with
    | none => exact absurd hs h
    | some c => rfl
  simp [step, hf]

/-! ## A sequence of commands -/

@[simp] theorem runInstrs_nil (s : State) : runInstrs [] s = .next s := rfl

/-- No command of a sequence runs once a fault is recorded (R275). -/
theorem runInstrs_of_fault {is : List Instr} {s : State} (h : s.fault ≠ none) :
    runInstrs is s = .next s := by
  cases is with
  | nil => rfl
  | cons i is =>
    cases hs : s.fault with
    | none => exact absurd hs h
    | some c => simp [runInstrs, hs]

theorem runInstrs_cons {i : Instr} {is : List Instr} {s t : State} (h : s.fault = none)
    (ht : exec i s = .next t) : runInstrs (i :: is) s = runInstrs is t := by
  simp [runInstrs, h, ht]

/-- A sequence runs its first part and then its second. -/
theorem runInstrs_append {is js : List Instr} {s t : State} (h : runInstrs is s = .next t) :
    runInstrs (is ++ js) s = runInstrs js t := by
  induction is generalizing s with
  | nil => cases h; rfl
  | cons i is ih =>
    by_cases hs : s.fault = none
    · obtain ⟨u, hu⟩ := exec_total i s
      rw [runInstrs_cons hs hu] at h
      rw [List.cons_append, runInstrs_cons hs hu, ih h]
    · rw [runInstrs_of_fault hs] at h
      cases h
      rw [runInstrs_of_fault hs, runInstrs_of_fault hs]

/-- A sequence always answers a next state. -/
theorem runInstrs_total (is : List Instr) (s : State) : ∃ t, runInstrs is s = .next t := by
  induction is generalizing s with
  | nil => exact ⟨s, rfl⟩
  | cons i is ih =>
    by_cases hs : s.fault = none
    · obtain ⟨u, hu⟩ := exec_total i s
      exact runInstrs_cons hs hu ▸ ih u
    · exact ⟨s, runInstrs_of_fault hs⟩

/-! ## A run of the program -/

theorem runSteps_of_fault {n : Nat} {s : State} (h : s.fault ≠ none) : runSteps n s = .next s := by
  induction n with
  | zero => rfl
  | succ n ih => simp [runSteps, step_of_fault h, ih]

theorem run_of_fault {s : State} (h : s.fault ≠ none) : s.run = .next s := runSteps_of_fault h

/-- Running the program from `pc` on is running the commands it spells, where `step` has fetched them. -/
theorem runSteps_assemble {is : List Instr} {s : State}
    (hdec : ∀ i ∈ is, decode (encode i) = .ok i)
    (hkeep : ∀ i ∈ is, ∀ a b : State, exec i a = .next b → b.fault = none →
      b.program = a.program ∧ b.pc = a.pc + 1)
    (hprog : s.program.drop s.pc = assemble is) : runSteps is.length s = runInstrs is s := by
  induction is generalizing s with
  | nil => rfl
  | cons i is ih =>
    by_cases hs : s.fault = none
    · have hw : s.program[s.pc]? = some (encode i) := by
        have : (s.program.drop s.pc)[0]? = some (encode i) := by rw [hprog]; rfl
        simpa using this
      have hstep : step s = exec i s := by
        simp [step, fetch_eq_some.mpr ⟨hs, hw⟩, hdec i (by simp)]
      obtain ⟨t, ht⟩ := exec_total i s
      rw [runInstrs_cons hs ht]
      simp only [List.length_cons, runSteps, hstep, ht]
      by_cases hf : t.fault = none
      · obtain ⟨h1, h2⟩ := hkeep i (by simp) s t ht hf
        refine ih (fun j hj => hdec j (by simp [hj])) (fun j hj => hkeep j (by simp [hj])) ?_
        rw [h1, h2, ← List.drop_drop, hprog]
        rfl
      · rw [runSteps_of_fault hf, runInstrs_of_fault hf]
    · rw [runSteps_of_fault hs, runInstrs_of_fault hs]

/-! ## Host operations -/

/-- A host operation does nothing on a faulted machine, takes effect in order, and faults out of order. -/
theorem hostOperation_cases (inOrder : Bool) (done s : State) :
    (s.fault ≠ none ∧ hostOperation inOrder done s = s) ∨
      (s.fault = none ∧ inOrder = true ∧ hostOperation inOrder done s = done) ∨
      (s.fault = none ∧ inOrder = false ∧
        hostOperation inOrder done s = hostFault s) := by
  unfold hostOperation
  cases s.fault <;> cases inOrder <;> simp

@[simp] theorem hostFault_fault (s : State) : (hostFault s).fault = some .sequenceViolation := rfl
@[simp] theorem hostFault_pc (s : State) : (hostFault s).pc = 0 := rfl
@[simp] theorem hostFault_wf (s : State) : Memory.wf (hostFault s) = Memory.wf s := rfl

theorem prepareHash_of_fault {s : State} (h : s.fault ≠ none)
    (input key : List (Fin s.params.fieldP)) (nn : Nat) : s.prepareHash input key nn = s := by
  unfold State.prepareHash
  split
  · rfl
  · contradiction

/-- The state from which `hash` runs. -/
theorem prepareHash_of_no_fault {s : State} (h : s.fault = none)
    (input key : List (Fin s.params.fieldP)) (nn : Nat) : s.prepareHash input key nn =
      { State.reset with
        program := assemble (hashInstrs input.length key.length)
        configured := s.configured
        loaded := s.loaded
        inst := s.inst
        x := input.map Fin.val
        y := key.map Fin.val
        params := { s.params with inputLen := input.length, outLen := nn } } := by
  unfold State.prepareHash
  split
  · simp_all
  · rfl

/-- `hash` is its HASH expansion, run as commands. -/
theorem run_of_assemble {is : List Instr} {s : State} (hpc : s.pc = 0) (hprog : s.program = assemble is)
    (hdec : ∀ i ∈ is, decode (encode i) = .ok i)
    (hkeep : ∀ i ∈ is, ∀ a b : State, exec i a = .next b → b.fault = none →
      b.program = a.program ∧ b.pc = a.pc + 1) : s.run = runInstrs is s := by
  have hlen : s.program.length - s.pc = is.length := by simp [hpc, hprog, assemble]
  unfold State.run
  rw [hlen]
  exact runSteps_assemble hdec hkeep (by simp [hpc, hprog])

/-! ## Host operations keep the canonical form of the cells -/

theorem configure_wf (s : State) : Memory.wf s.configure = Memory.wf s := by
  obtain ⟨_, h⟩ | ⟨_, _, h⟩ | ⟨_, _, h⟩ :=
    hostOperation_cases (!s.configured) { s with configured := true } s <;>
  exact (congrArg Memory.wf h).trans rfl

theorem load_wf (s : State) : Memory.wf s.load = Memory.wf s := by
  obtain ⟨_, h⟩ | ⟨_, _, h⟩ | ⟨_, _, h⟩ :=
    hostOperation_cases (s.configured && !s.loaded) { s with loaded := true } s <;>
  exact (congrArg Memory.wf h).trans rfl

theorem supplyInstance_wf {s : State} (h : Memory.wf s = true)
    (values : Vector (Fin s.params.fieldP) 64) : Memory.wf (s.supplyInstance values) = true := by
  obtain ⟨h1, h2⟩ := (wf_iff s).mp h
  refine (wf_iff _).mpr ⟨h1, (cellsInField_iff _).mpr fun c a e => ?_⟩
  cases c with
  | inst k =>
    obtain rfl : (values[k]).val = a := by simpa [State.cell?, State.supplyInstance] using e
    exact (values[k]).isLt
  | f r => exact (cellsInField_iff s).mp h2 (.f r) a e
  | l i r => exact (cellsInField_iff s).mp h2 (.l i r) a e
  | k r => exact (cellsInField_iff s).mp h2 (.k r) a e
  | x i => exact (cellsInField_iff s).mp h2 (.x i) a e
  | y i => exact (cellsInField_iff s).mp h2 (.y i) a e

/-- The external cells that `hash` sets hold field elements. -/
theorem prepareHash_wf {s : State} (h : Memory.wf s = true) (input key : List (Fin s.params.fieldP))
    (nn : Nat) : Memory.wf (s.prepareHash input key nn) = true := by
  by_cases hf : s.fault = none
  · obtain ⟨_, h2⟩ := (wf_iff s).mp h
    rw [prepareHash_of_no_fault hf]
    refine (wf_iff _).mpr ⟨by simp [State.traceWf, State.reset], (cellsInField_iff _).mpr fun c a e => ?_⟩
    cases c with
    | f r => simp [State.cell?, State.reset] at e
    | l i r => simp [State.cell?, State.reset] at e
    | k r => simp [State.cell?, State.reset] at e
    | x i =>
      obtain ⟨v, _, rfl⟩ : ∃ v, input[i]? = some v ∧ v.val = a := by simpa [State.cell?] using e
      exact v.isLt
    | y i =>
      obtain ⟨v, _, rfl⟩ : ∃ v, key[i]? = some v ∧ v.val = a := by simpa [State.cell?] using e
      exact v.isLt
    | inst k => exact (cellsInField_iff s).mp h2 (.inst k) a e
  · rw [prepareHash_of_fault hf]
    exact h

end Sys2Proof.Machine
end

