-- ==== Sys2Proof/Tests/Slice0.lean ====
section
/-! SUPPORT. Tests of the model. Expected values are those of spec/95_test_vectors.md, or follow by hand from
the rule named. The `witness_…` theorems show, for each obligation with hypotheses, a state and operands that
meet them together. -/

namespace Sys2Proof.Tests

open Sys2Proof.Machine

/-! ## States -/

/-- The binding of a decomposed row 9 that holds `IV[0]`. -/
def iv0Row : Binding := ⟨ivWord 0, 9, .row⟩

/-- A small state in the middle of a run that meets every invariant: rows 0–7 hold the IV constants, row 8
zero, row 9 a decomposed copy of `IV[0]`, to which `h`, `m`, `v0` and `P` are bound. The program is OUT. -/
def tiny : State where
  v := ((Vector.replicate 16 none).set 0 (some iv0Row)).set 1 (some ⟨ivWord 1, 1, .word⟩)
  m := Vector.replicate 16 (some iv0Row)
  h := Vector.replicate 8 (some iv0Row)
  iv := ivBindings 0
  p := some iv0Row
  pc := 0
  program := [0x10000000]
  gadget := .processingBlock
  configured := true
  loaded := true
  fault := none
  trace := [fixedRow (ivWord 0), fixedRow (ivWord 1), fixedRow (ivWord 2), fixedRow (ivWord 3),
    fixedRow (ivWord 4), fixedRow (ivWord 5), fixedRow (ivWord 6), fixedRow (ivWord 7), fixedRow 0,
    decRow (ivWord 0)]
  cur := 10
  eq := [(.f 0, .k 0), (.f 1, .k 1), (.f 2, .k 2), (.f 3, .k 3), (.f 4, .k 4), (.f 5, .k 5),
    (.f 6, .k 6), (.f 7, .k 7), (.f 8, .k 8), (.f 9, .f 0)]
  z := some 8
  inst := (Vector.replicate 64 0).set 0 8
  x := []
  y := []
  params := { Params.reset with outLen := 1 }

/-- `tiny` once OUT has run. -/
def tinyFinal : State :=
  { tiny with gadget := .finalized, p := none, eq := tiny.eq ++ [(.l 0 9, .inst 0)] }

/-- `tiny` with the values `a` and `b` in `v2` and `v3`, `a` decomposed and the value of `P` too. -/
def valued (a b : Word) : State :=
  { tiny with
    v := (tiny.v.set 2 (some ⟨a, 9, .row⟩)).set 3 (some ⟨b, 1, .word⟩)
    p := some ⟨a, 9, .row⟩ }

/-- A machine before INIT with the input and key cells and the digest length given. -/
def fresh (x y : List Nat) (nn : Nat) : State :=
  { State.reset with
    configured := true
    loaded := true
    x := x
    y := y
    params := { Params.reset with inputLen := x.length, outLen := nn } }

/-- What a test reads of the outcome of a command: a field of the state after it. -/
def after {α : Type} (o : Host.Outcome State Fault Refusal) (f : State → α) : Option α :=
  match o with
  | .next t => some (f t)
  | .fault _ => none
  | .refused _ => none

/-- The fault and `cur` after a command, as spec/95_test_vectors.md §3.9 lists them. -/
def faultAndCur (t : State) : Option Fault × Nat := (t.fault, t.cur)

/-! ## WellFormed: an ill-formed term for each constructor with a destination (R97 (d)) -/

theorem test_wf_refuses_iv_destination :
    (Instr.row (.iv 0) (.h 0)).wf = false ∧ (Instr.add (.iv 0) (.h 0) (.h 1)).wf = false ∧
    (Instr.addp (.iv 1) (.h 0)).wf = false ∧ (Instr.xor (.iv 2) (.h 0) (.h 1)).wf = false ∧
    (Instr.xorp (.iv 3) (.h 0)).wf = false ∧ (Instr.not (.iv 4) (.h 0)).wf = false ∧
    (Instr.rotr16 (.iv 5) (.h 0)).wf = false ∧ (Instr.rotr24 (.iv 6) (.h 0)).wf = false ∧
    (Instr.rotr32 (.iv 7) (.h 0)).wf = false ∧ (Instr.rotr63 (.iv 0) (.h 0)).wf = false := by
  decide

theorem test_wf_allows_iv_source :
    (Instr.not (.v 14) (.iv 6)).wf = true ∧ (Instr.add (.h 7) (.iv 7) (.m 15)).wf = true ∧
    Instr.init.wf = true ∧ (Instr.ldblk 0x3FFFFFF).wf = true := by
  decide

/-! ## Decoding, from the words of spec/95_test_vectors.md §3.1 and the fields of R91–R95 -/

theorem test_decode_init : decode 0b000001_00000000000000000000000000 = .ok .init := by decide
theorem test_decode_ldblk : decode 0b000010_00000000000000000000000101 = .ok (.ldblk 5) := by decide
theorem test_decode_vinit : decode 0b000011_11111111111111111111111111 = .ok (.vinit 0x3FFFFFF) := by
  decide
theorem test_decode_out : decode 0b000100_00000000000000000000000000 = .ok .out := by decide
theorem test_decode_row : decode 0b000101_000000_100000_000000_00000000 = .ok (.row (.v 0) (.h 0)) := by
  decide
theorem test_decode_add :
    decode 0b001000_000000_000000_000100_00000000 = .ok (.add (.v 0) (.v 0) (.v 4)) := by decide
theorem test_decode_addp : decode 0b001001_000000_000000_010000_00000000 = .ok (.addp (.v 0) (.m 0)) := by
  decide
theorem test_decode_xor :
    decode 0b001010_100000_100000_000000_00000000 = .ok (.xor (.h 0) (.h 0) (.v 0)) := by decide
theorem test_decode_xorp : decode 0b001011_100000_000000_001000_00000000 = .ok (.xorp (.h 0) (.v 8)) := by
  decide
theorem test_decode_not : decode 0b001100_001110_101110_000000_00000000 = .ok (.not (.v 14) (.iv 6)) := by
  decide
theorem test_decode_rotr16 :
    decode 0b010000_001100_001100_000000_00000000 = .ok (.rotr16 (.v 12) (.v 12)) := by decide
theorem test_decode_rotr24 :
    decode 0b010001_000100_000100_000000_00000000 = .ok (.rotr24 (.v 4) (.v 4)) := by decide
theorem test_decode_rotr32 :
    decode 0b010010_001100_001100_000000_00000000 = .ok (.rotr32 (.v 12) (.v 12)) := by decide
theorem test_decode_rotr63 :
    decode 0b010011_000100_000100_000000_00000000 = .ok (.rotr63 (.v 4) (.v 4)) := by decide

/-- The illegal words of spec/95_test_vectors.md §3.1, each with its ground of R97. -/
theorem test_decode_illegal :
    decode 0x00000000 = .error .reservedOpcode ∧ decode 0x18000000 = .error .reservedOpcode ∧
    decode 0x04000001 = .error .nonzeroReservedField ∧
    decode 0x20082801 = .error .nonzeroReservedField ∧
    decode 0x24116100 = .error .nonzeroReservedField ∧
    decode 0x14080100 = .error .nonzeroReservedField ∧
    decode 0x40083000 = .error .nonzeroReservedField ∧
    decode 0x200C2100 = .error .reservedOperand ∧
    decode 0x22882100 = .error .readOnlyDestination := by
  decide

/-! ## One command each; values of spec/95_test_vectors.md §3 -/

/-- §3.7, (kk, nn) = (0, 64): `h0`, ten rows. -/
theorem test_init_param_word :
    after (exec .init (fresh [] [] 64)) (fun t => (t.h[0].map Binding.val, t.cur, t.z)) =
      some (some 0x6A09E667F2BDC948, 10, some 9) := by decide

/-- §3.9: `nn = 0` with `kk = 65` reports the output size. -/
theorem test_init_checks_output_size_first :
    after (exec .init (fresh [] (List.replicate 65 0) 0)) faultAndCur =
      some (some .preconditionOutputSize, 0) := by decide

/-- §3.8, "abc": `m0` is little-endian, sixteen rows. -/
theorem test_ldblk_abc :
    after (exec (.ldblk 0) { tiny with x := [0x61, 0x62, 0x63], params := { tiny.params with inputLen := 3 } })
      (fun t => (t.m[0].map Binding.val, t.m[15].map Binding.val, t.cur, t.eq.length)) =
      some (some 0x636261, some 0, 26, 138) := by decide +kernel

/-- §3.9: `X = 01 02 03 04 05 300`. -/
theorem test_ldblk_range :
    after (exec (.ldblk 0) { tiny with x := [1, 2, 3, 4, 5, 300], params := { tiny.params with inputLen := 6 } })
      faultAndCur = some (some .rangeViolation, 10) := by decide

/-- §3.11, "abc": the counter's constant and the complement of `IV[6]`, three rows. -/
theorem test_vinit_final :
    after (exec (.vinit 0) { tiny with params := { tiny.params with inputLen := 3 } })
      (fun t => (t.v[12].map Binding.val, t.v[14].map Binding.val, t.v[15].map Binding.val, t.cur)) =
      some (some 0x510E527FADE682D2, some 0xE07C265404BE4294, some 0x5BE0CD19137E2179, 13) := by decide

/-- §3.10, N = 129, block 0: `v14` stays `IV[6]`, one row. -/
theorem test_vinit_middle :
    after (exec (.vinit 0) { tiny with params := { tiny.params with inputLen := 129 } })
      (fun t => (t.v[12].map Binding.val, t.v[14].map Binding.val, t.cur)) =
      some (some 0x510E527FADE68251, some 0x1F83D9ABFB41BD6B, 11) := by decide

/-- `tiny` with `h0` bound to the constant row of `IV[1]`. -/
def tinyWordH : State := { tiny with h := tiny.h.set 0 (some ⟨ivWord 1, 1, .word⟩) }

/-- R248: OUT decomposes a `Word`. -/
theorem test_out_decomposes :
    after (exec .out tinyWordH) (fun t => (t.gadget, t.cur, t.h[0])) =
      some (.finalized, 11, some ⟨ivWord 1, 10, .row⟩) := by decide

/-- R65, R249: OUT exposes the low byte of `h0` when `nn = 1`, and no other. -/
theorem test_out_exposes_one_byte :
    after (exec .out tinyWordH) (fun t => (t.digestByte? 0, t.eq.length, t.eq.getLast?)) =
      some (some 0x3B, 12, some (.l 0 10, .inst 0)) := by decide

/-- §3.2: the limbs of `h0`. -/
theorem test_row_limbs :
    after (exec (.row (.v 0) (.v 3)) (valued 0 0x6A09E667F2BDC948))
      (fun t => (t.trace[10]?.map TraceRow.l, t.v[0], t.p)) =
      some (some #v[some 0x48, some 0xC9, some 0xBD, some 0xF2, some 0x67, some 0xE6, some 0x09, some 0x6A],
        some ⟨0x6A09E667F2BDC948, 10, .row⟩, some ⟨0x6A09E667F2BDC948, 10, .row⟩) := by decide

/-- §3.3, with carry; the destination is also a source. -/
theorem test_add_carries :
    after (exec (.add (.v 2) (.v 2) (.v 3)) (valued 0xFFFFFFFFFFFFFFFF 1))
      (fun t => (t.v[2], t.cell? (.l 0 11), t.cur)) =
      some (some ⟨0, 12, .row⟩, some 1, 13) := by decide

/-- §3.3, just below the carry. -/
theorem test_add_no_carry :
    after (exec (.add (.v 4) (.v 2) (.v 3)) (valued 0x8000000000000000 0x7FFFFFFFFFFFFFFF))
      (fun t => (t.v[4].map Binding.val, t.cell? (.l 0 11))) =
      some (some 0xFFFFFFFFFFFFFFFF, some 0) := by decide

/-- §3.3: ADDP with `P` as the lhs, two rows, the selector on row 9. -/
theorem test_addp_carries :
    after (exec (.addp (.v 4) (.v 3)) (valued 0xFFFFFFFFFFFFFFFF 0xFFFFFFFFFFFFFFFF))
      (fun t => (t.v[4], t.cell? (.l 0 10), t.trace[9]?.map fun r => r.sel.qAdd)) =
      some (some ⟨0xFFFFFFFFFFFFFFFE, 11, .row⟩, some 1, some true) := by decide

/-- §3.9: `P` holds nothing. -/
theorem test_addp_hazard :
    after (exec (.addp (.v 0) (.h 0)) { tiny with p := none }) faultAndCur =
      some (some .reuseHazard, 10) := by decide

/-- §1.1 S2: no carry between the lanes. -/
theorem test_xor_is_bitwise :
    after (exec (.xor (.v 4) (.v 2) (.v 3)) (valued 0x0000000200000000 0x0000000600000000))
      (fun t => (t.v[4], t.cur, t.trace[10]?.map TraceRow.sel)) =
      some (some ⟨0x0000000400000000, 12, .row⟩, 13, some { qDec := true, qXor := true }) := by decide

/-- §3.4. -/
theorem test_xorp_value :
    after (exec (.xorp (.v 4) (.v 3)) (valued 0x0123456789ABCDEF 0xFEDCBA9876543210))
      (fun t => (t.v[4], t.cur)) = some (some ⟨0xFFFFFFFFFFFFFFFF, 11, .row⟩, 12) := by decide

/-- §3.9: a `P` of kind `Word`. -/
theorem test_xorp_hazard :
    after (exec (.xorp (.v 1) (.h 1)) { tiny with p := some ⟨0, 9, .word⟩ }) faultAndCur =
      some (some .reuseHazard, 10) := by decide

/-- §3.6: the complement of `IV[6]`, of kind `Word`. -/
theorem test_not_iv6 :
    after (exec (.not (.v 14) (.iv 6)) tiny) (fun t => (t.v[14], t.cur, t.eq.getLast?)) =
      some (some ⟨0xE07C265404BE4294, 11, .word⟩, 12, some (.f 10, .f 6)) := by decide

/-- §3.5, from a `Row` source: one row, limb 0 from limb 2. -/
theorem test_rotr16_row :
    after (exec (.rotr16 (.v 4) (.v 2)) (valued 0x0123456789ABCDEF 0))
      (fun t => (t.v[4], t.cur, t.eq[10]?, t.eq[17]?)) =
      some (some ⟨0xCDEF0123456789AB, 10, .row⟩, 11, some (.l 0 10, .l 2 9), some (.l 7 10, .l 1 9)) := by
  decide

/-- §3.5, from a `Word` source: two rows. -/
theorem test_rotr16_word :
    after (exec (.rotr16 (.v 4) (.v 3)) (valued 0 0x8000000000000001)) (fun t => (t.v[4], t.cur)) =
      some (some ⟨0x0001800000000000, 11, .row⟩, 12) := by decide

/-- §3.5. -/
theorem test_rotr24_value :
    after (exec (.rotr24 (.v 4) (.v 2)) (valued 0x0123456789ABCDEF 0)) (fun t => (t.v[4], t.eq[10]?)) =
      some (some ⟨0xABCDEF0123456789, 10, .row⟩, some (.l 0 10, .l 3 9)) := by decide

/-- §3.5. -/
theorem test_rotr32_value :
    after (exec (.rotr32 (.v 4) (.v 2)) (valued 0x0123456789ABCDEF 0)) (fun t => (t.v[4], t.eq[10]?)) =
      some (some ⟨0x89ABCDEF01234567, 10, .row⟩, some (.l 0 10, .l 4 9)) := by decide

/-- §3.5, in place: `v2` is `P`'s cell. -/
theorem test_rotr63_in_place :
    after (exec (.rotr63 (.v 4) (.v 2)) (valued 0x0123456789ABCDEF 0))
      (fun t => (t.v[4], t.cell? (.f 10), t.trace[9]?.map fun r => r.sel.qRot63)) =
      some (some ⟨0x02468ACF13579BDE, 11, .row⟩, some 0, some true) := by decide

/-- §3.5, on a copy, with the high bit set. -/
theorem test_rotr63_on_copy :
    after (exec (.rotr63 (.v 4) (.v 3)) (valued 0 0x8000000000000001))
      (fun t => (t.v[4], t.cell? (.f 11), t.cur)) =
      some (some ⟨3, 12, .row⟩, some 1, 13) := by decide

/-- §3.9: a source that nothing has bound, reported before `P`. -/
theorem test_unbound_before_hazard :
    after (exec (.addp (.v 0) (.v 5)) { tiny with p := none }) faultAndCur =
      some (some .unboundOperand, 10) := by decide

/-- §3.9: `0x22882100` from the start state is illegal, before the state check. -/
theorem test_step_illegal_first :
    after (step { fresh [] [] 64 with program := [0x22882100] }) faultAndCur =
      some (some .illegalCommand, 0) := by decide

/-- §3.9: `LDBLK 0` before INIT. -/
theorem test_step_sequence :
    after (step { fresh [] [] 64 with program := [0x08000000] }) faultAndCur =
      some (some .sequenceViolation, 0) := by decide

/-- R28, R42: a command of a faulted machine does not run. -/
theorem test_step_after_fault :
    after (step { tiny with fault := some .reuseHazard }) (fun t => (t.pc, t.gadget)) =
      some (0, .processingBlock) := by decide

/-- R287: a `load` after commands have run is out of order, and is reported with `pc = 0`. -/
theorem test_second_load : ({ tiny with pc := 3 }.load.fault, { tiny with pc := 3 }.load.pc) =
    (some .sequenceViolation, 0) := by decide

/-- R275: no command of a pseudo-instruction runs on a faulted machine. -/
theorem test_pseudo_after_fault :
    after (runInstrs (compressInstrs 1) { tiny with fault := some .rangeViolation }) faultAndCur =
      some (some .rangeViolation, 10) := by decide

/-- R252, R288: the first step of `hash` with `nn = 0` ends it with `Error(PreconditionOutputSize, 0)`. -/
theorem test_hash_rejects_size :
    after (step (State.reset.configure.load.prepareHash [] [] 0)) State.reply =
      some (some (.error (.preconditionOutputSize, 0))) := by decide

/-- R12: a cell that holds `FIELD_P` holds no field element. -/
theorem test_wf_refuses_large_cell :
    Memory.wf { tiny with x := [2 ^ 127 - 1] } = false ∧
    Memory.wf { tiny with x := [2 ^ 127 - 2] } = true := by decide

/-- §3.10, some rows: block counts, padding, counter. -/
theorem test_blocks_table :
    nblocks 0 0 = 1 ∧ nblocks 129 0 = 2 ∧ nblocks 0 64 = 1 ∧ nblocks 129 16 = 3 ∧
    padCount 129 0 1 = 127 ∧ padCount 0 1 0 = 127 ∧ padCount 3 16 0 = 112 ∧ padCount 128 16 1 = 0 ∧
    counter 129 16 1 = 256 ∧ counter 129 16 2 = 257 ∧ counter 0 64 0 = 128 := by decide

/-- §1.2 S16: row 0x1234 of the XOR table. -/
theorem test_xor_table : (0x12, 0x34, 0x26) ∈ tiny.xorTable :=
  List.mem_map.mpr ⟨0x1234, List.mem_range.mpr (by decide), rfl⟩

/-- R227, R228: round 10 uses row 0 of SIGMA again, and round 1 starts with 14. -/
theorem test_sigma : mixWords 10 0 = (0, 1) ∧ mixWords 1 0 = (14, 10) ∧ mixWords 11 7 = (5, 3) := by decide

/-! ## `tiny` and `tinyFinal` meet the invariants -/

/-- `FIELD_P` of the test states is a prime. -/
theorem prime_fieldP : Nat.Prime (2 ^ 127 - 1) := by
  have h := lucas_lehmer_sufficiency 127 (by norm_num) (by norm_num)
  simpa [mersenne] using h

theorem tiny_binding {o : Operand} {b : Binding} (h : tiny.binding o = some b) :
    b = iv0Row ∨ ∃ i : Fin 8, b = ⟨ivWord i, i.val, .word⟩ := by
  cases o with
  | v i =>
    fin_cases i <;> simp [tiny, State.binding] at h
    · exact .inl h.symm
    · exact .inr ⟨1, h.symm⟩
  | m i => left; simpa [tiny, State.binding, eq_comm] using h
  | h i => left; simpa [tiny, State.binding, eq_comm] using h
  | iv i => right; exact ⟨i, by simpa [tiny, State.binding, ivBindings, eq_comm] using h⟩

theorem tiny_p {b : Binding} (h : tiny.p = some b) : b = iv0Row := by
  simpa [tiny, eq_comm] using h

theorem bindingRow_iv0Row : BindingRow tiny iv0Row := ⟨decRow (ivWord 0), rfl, by decide⟩

theorem bindingRow_const (i : Fin 8) : BindingRow tiny ⟨ivWord i, i.val, .word⟩ :=
  ⟨fixedRow (ivWord i), by fin_cases i <;> rfl, by decide +revert⟩

theorem bindingHolds_iv0Row : BindingHolds tiny iv0Row := ⟨decRow (ivWord 0), rfl, rfl, fun _ => rfl⟩

theorem bindingHolds_const (i : Fin 8) : BindingHolds tiny ⟨ivWord i, i.val, .word⟩ :=
  ⟨fixedRow (ivWord i), by fin_cases i <;> rfl, rfl, fun h => by cases h⟩

theorem tiny_bindingRows : BindingRows tiny := by
  refine ⟨fun o b h => ?_, fun b h => ?_⟩
  · obtain rfl | ⟨i, rfl⟩ := tiny_binding h
    · exact bindingRow_iv0Row
    · exact bindingRow_const i
  · obtain rfl := tiny_p h
    exact ⟨bindingRow_iv0Row, rfl⟩

theorem tiny_bindingValues : BindingValues tiny := by
  refine ⟨fun o b h => ?_, fun b h => ?_⟩
  · obtain rfl | ⟨i, rfl⟩ := tiny_binding h
    · exact bindingHolds_iv0Row
    · exact bindingHolds_const i
  · obtain rfl := tiny_p h
    exact bindingHolds_iv0Row

theorem tinyFinal_bindingRows : BindingRows tinyFinal :=
  ⟨tiny_bindingRows.1, fun b h => by cases h⟩

theorem tinyFinal_bindingValues : BindingValues tinyFinal :=
  ⟨tiny_bindingValues.1, fun b h => by cases h⟩

theorem tiny_wf : Memory.wf tiny = true := by decide

theorem tiny_cellWidths : CellWidths tiny := by
  have h : ∀ row ∈ tiny.trace, row.f.all (· < 2 ^ 64) ∧ (∀ i : Fin 8, row.l[i].all (· < 256)) ∧
      row.k.all (· < 2 ^ 64) := by decide
  exact fun row hr => ⟨fun a e => by simpa [e] using (h row hr).1,
    fun i a e => by have := (h row hr).2.1 i; rw [e] at this; simpa using this,
    fun a e => by simpa [e] using (h row hr).2.2⟩

theorem tiny_gadgetInv : GadgetInv tiny where
  before h := by cases h
  loaded _ := rfl
  sizes _ := by decide
  iv _ i := ⟨i.val, by simp [tiny, ivBindings]⟩
  h _ i := by simp [tiny]
  z _ := ⟨8, fixedRow 0, rfl, rfl, rfl⟩
  m _ i := by simp [tiny]

theorem tinyFinal_gadgetInv : GadgetInv tinyFinal where
  before h := by cases h
  loaded _ := rfl
  sizes _ := by decide
  iv _ i := ⟨i.val, by simp [tinyFinal, tiny, ivBindings]⟩
  h _ i := by simp [tinyFinal, tiny]
  z _ := ⟨8, fixedRow 0, rfl, rfl, rfl⟩
  m _ i := by simp [tinyFinal, tiny]

theorem tiny_gateDec (free : Witness) : gateDec tiny (tiny.honest free) 9 := by
  have hl : ∀ i : Fin 8, tiny.honest free (.l i 9) = (byteAt (ivWord 0) i).toNat := by
    intro i
    simp [State.honest, State.cell?, tiny, decRow, leLimbs]
  have hf : tiny.honest free (.f 9) = (ivWord 0).toNat := rfl
  refine ⟨?_, fun i => ?_⟩
  · simp only [hl, hf]
    exact congrArg (· % tiny.params.fieldP) (by decide)
  · rw [hl, show tiny.rangeTable = List.range 256 from rfl, List.mem_range]
    exact (byteAt (ivWord 0) i).isLt

theorem tiny_selected {r : Nat} {row : TraceRow} {q : Selector} (h : tiny.trace[r]? = some row)
    (hq : row.sel.isSet q = true) : r = 9 ∧ q = .qDec := by
  have hr : r < 10 := (List.getElem?_eq_some_iff.mp h).1
  interval_cases r <;> simp only [tiny, List.getElem?_cons_succ, List.getElem?_cons_zero,
    Option.some.injEq] at h <;> subst h <;> cases q <;> revert hq <;> decide

theorem tiny_honestCopies (free : Witness) (q : Cell × Cell) (h : q ∈ tiny.eq) :
    tiny.honest free q.1 = tiny.honest free q.2 := by
  simp only [tiny, List.mem_cons, List.not_mem_nil, or_false] at h
  rcases h with rfl | rfl | rfl | rfl | rfl | rfl | rfl | rfl | rfl | rfl <;> rfl

theorem tiny_noInstance (q : Cell × Cell) (h : q ∈ tiny.eq) (k : Fin 64) : q.2 ≠ .inst k := by
  simp only [tiny, List.mem_cons, List.not_mem_nil, or_false] at h
  rcases h with rfl | rfl | rfl | rfl | rfl | rfl | rfl | rfl | rfl | rfl <;> simp

theorem tiny_honestInv : HonestInv tiny where
  copies free q h _ := tiny_honestCopies free q h
  fixed free r row a h hk := by simp [State.honest, State.cell?, h, hk]
  gates free r row q h hq := by
    obtain ⟨rfl, rfl⟩ := tiny_selected h hq
    exact tiny_gateDec free
  instances q h k e := absurd e (tiny_noInstance q h k)

theorem tinyFinal_honestInv : HonestInv tinyFinal where
  copies free q h hq := by
    rcases List.mem_append.mp h with h | h
    · exact tiny_honestCopies free q h
    · obtain rfl := List.mem_singleton.mp h
      exact absurd rfl (hq 0)
  fixed free r row a h hk := by simp [State.honest, State.cell?, h, hk]
  gates free r row q h hq := by
    obtain ⟨rfl, rfl⟩ := tiny_selected h hq
    exact tiny_gateDec free
  instances q h k e := by
    rcases List.mem_append.mp h with h | h
    · exact absurd e (tiny_noInstance q h k)
    · obtain rfl := List.mem_singleton.mp h
      cases e
      decide

/-- In a witness of the copy constraints and fixed cells of `tiny`, its rows hold the constants. -/
theorem tiny_constants {w : Witness} (hc : ∀ q ∈ tiny.eq, w q.1 = w q.2)
    (hf : ∀ (r : Nat) (row : TraceRow) (a : Nat), tiny.trace[r]? = some row → row.k = some a →
      w (.k r) = a) :
    (∀ i : Fin 8, w (.f i.val) = (ivWord i).toNat) ∧ w (.f 8) = 0 ∧ w (.f 9) = (ivWord 0).toNat := by
  have h : ∀ i : Fin 8, w (.f i.val) = (ivWord i).toNat := by
    intro i
    rw [hc (.f i.val, .k i.val) (by fin_cases i <;> simp [tiny])]
    exact hf i.val (fixedRow (ivWord i)) _ (by fin_cases i <;> rfl) rfl
  refine ⟨h, ?_, ?_⟩
  · rw [hc (.f 8, .k 8) (by simp [tiny])]
    exact hf 8 (fixedRow 0) _ rfl rfl
  · rw [hc (.f 9, .f 0) (by simp [tiny])]
    exact h 0

theorem tiny_values {w : Witness} (hc : ∀ q ∈ tiny.eq, w q.1 = w q.2)
    (hf : ∀ (r : Nat) (row : TraceRow) (a : Nat), tiny.trace[r]? = some row → row.k = some a →
      w (.k r) = a) {o : Operand} {b : Binding} (h : tiny.binding o = some b) :
    w b.cell = b.val.toNat := by
  obtain ⟨h1, _, h3⟩ := tiny_constants hc hf
  obtain rfl | ⟨i, rfl⟩ := tiny_binding h
  · exact h3
  · exact h1 i

theorem tiny_determined : Determined tiny := fun _ hs _ =>
  ⟨fun _ _ h => tiny_values hs.copies hs.fixed h,
   fun _ h => by obtain rfl := tiny_p h; exact (tiny_constants hs.copies hs.fixed).2.2⟩

theorem tiny_rangeInv : RangeInv tiny := fun _ hs =>
  ⟨fun _ b h => (tiny_values hs.copies hs.fixed h).symm ▸ b.val.isLt,
   fun b h => by
    obtain rfl := tiny_p h
    exact (tiny_constants hs.copies hs.fixed).2.2.symm ▸ iv0Row.val.isLt,
   fun z h => by cases h; exact (tiny_constants hs.copies hs.fixed).2.1⟩

theorem tinyFinal_determined : Determined tinyFinal := fun _ hs _ =>
  ⟨fun _ _ h => tiny_values (fun q hq => hs.copies q (List.mem_append_left _ hq)) hs.fixed h,
   fun _ h => by cases h⟩

theorem tiny_digestExposed : DigestExposed tiny := fun h => by cases h

theorem tinyFinal_digestExposed : DigestExposed tinyFinal := fun _ =>
  ⟨fun j => ⟨iv0Row, by simp [tinyFinal, tiny], rfl⟩, fun k hk => by
    obtain rfl : k = 0 := Fin.ext (Nat.lt_one_iff.mp hk)
    exact ⟨.l 0 9, rfl, List.mem_append_right _ (List.mem_singleton.mpr rfl)⟩⟩

/-! ## Witnesses: encoding, stepping and faults -/

theorem witness_DecodeEncodeRoundTrip : (Instr.add (.h 7) (.iv 7) (.m 15)).wf = true := by decide

theorem witness_DecodedWordIsItsEncoding : decode 0x2E000800 = .ok (.xorp (.h 0) (.v 8)) := by decide

theorem witness_StepRunsDecodedCommand :
    (tiny.fault = none ∧ tiny.program[tiny.pc]? = some 0x10000000 ∧ decode 0x10000000 = .ok .out) ∧
    decodeTableWord 32 0x04000000 = some .init := by decide

/-- `tiny` with the illegal word 0 to run. -/
def tinyIllegal : State := { tiny with program := [0] }

theorem witness_IllegalCommandsFault :
    (tinyIllegal.fault = none ∧ tinyIllegal.program[tinyIllegal.pc]? = some 0 ∧
      decode 0 = .error .reservedOpcode) ∧ (Instr.row (.iv 0) (.h 0)).wf = false := by decide

theorem witness_FaultsArePreciseAndFinal :
    (tinyIllegal.fault = none ∧ ∃ t, step tinyIllegal = .next t ∧ t.fault ≠ none) ∧
    (raiseFault .illegalCommand tiny).fault ≠ none ∧
    (∃ t, runInstrs [.vinit 1] tiny = .next t ∧ t.fault ≠ none) ∧
    ∃ t, runInstrs [.vinit 0] tiny = .next t ∧ t.fault = none :=
  ⟨⟨rfl, _, rfl, by decide⟩, by decide, ⟨_, rfl, by decide⟩, _, rfl, rfl⟩

theorem witness_HostPreparesTheMachine :
    State.reset.fault = none ∧ State.reset.configured = false ∧
    { State.reset with configured := true }.fault = none ∧
    { State.reset with configured := true }.configured = true ∧
    { State.reset with configured := true }.loaded = false ∧
    tiny.fault = none ∧ tiny.configured = true ∧ tiny.loaded = true ∧
    State.reset.loaded = false ∧ ¬ (1 ≤ 65 ∧ 65 ≤ 64) ∧
    64 < (List.replicate 65 (⟨0, by decide⟩ : Fin tiny.params.fieldP)).length := by decide

theorem witness_PermissionTable :
    ((Instr.vinit 0).wf = true ∧ permission (.vinit 0) State.reset.gadget = none ∧
      State.reset.loaded = false) ∧
    (Instr.init.wf = true ∧ permission .init tiny.gadget = none) ∧
    (Instr.out.wf = true ∧ tiny.loaded = true ∧ permission .out tiny.gadget ≠ none ∧ tiny.fault = none ∧ ∃ t, exec .out tiny = .next t ∧ t.fault = none) :=
  ⟨by decide, by decide, rfl, rfl, by decide, rfl, _, rfl, rfl⟩

theorem witness_UnboundSourcesFault :
    (Instr.add (.v 0) (.v 0) (.v 15)).wf = true ∧ ReadyForWords tiny ∧
    Operand.v 15 ∈ (Instr.add (.v 0) (.v 0) (.v 15)).sources ∧ tiny.binding (.v 15) = none := by
  unfold ReadyForWords
  decide

/-- `tiny` with nothing in `P`. -/
def tinyNoP : State := { tiny with p := none }

/-- `tiny` with a binding of kind `Word` in `P`. -/
def tinyWordP : State := { tiny with p := some ⟨ivWord 0, 9, .word⟩ }

theorem witness_ReuseHazards :
    (Operand.v 0).writable = true ∧
    (ReadyForWords tinyNoP ∧ tinyNoP.binding (.h 0) ≠ none ∧ tinyNoP.p = none) ∧
    ReadyForWords tinyWordP ∧ tinyWordP.binding (.h 0) ≠ none ∧
    ∀ b, tinyWordP.p = some b → b.kind = .word := by
  refine ⟨rfl, by unfold ReadyForWords; decide, by unfold ReadyForWords; decide, by decide, ?_⟩
  rintro b h
  cases h
  rfl

/-- A machine before INIT with `n` input cells. -/
def longInput (n : Nat) : State := fresh (List.replicate n 0) [] 64

theorem longInput_blocks {n : Nat} (h : 128 * 2 ^ 26 < n) :
    (longInput n).loaded = true ∧ (longInput n).gadget = .uninitialized ∧
    1 ≤ (longInput n).params.outLen ∧ (longInput n).params.outLen ≤ 64 ∧ (longInput n).keyLen ≤ 64 ∧
    (longInput n).x.length = (longInput n).params.inputLen ∧ maxBlocks < (longInput n).blockCount := by
  have hn : n ≠ 0 := by omega
  refine ⟨rfl, rfl, by simp [longInput, fresh], by simp [longInput, fresh],
    by simp [longInput, fresh, State.keyLen], by simp [longInput, fresh], ?_⟩
  simp only [State.blockCount, longInput, fresh, nblocks, State.keyLen, List.length_replicate, hn,
    List.length_nil, if_true, if_false, maxBlocks]
  omega

/-- `fresh` with an input cell missing. -/
def missingCell : State :=
  { fresh [] [] 1 with params := { Params.reset with inputLen := 1, outLen := 1 } }

/-- The limits of the preconditions of INIT: `nn` 0 and 65, 65 key bytes, a missing input cell, and one
input byte more than `MAX_BLOCKS` blocks hold. -/
theorem witness_InitPreconditionFaults :
    ((fresh [] [] 0).loaded = true ∧ (fresh [] [] 0).gadget = .uninitialized ∧
      ¬ (1 ≤ (fresh [] [] 0).params.outLen ∧ (fresh [] [] 0).params.outLen ≤ 64)) ∧
    ¬ (1 ≤ (fresh [] [] 65).params.outLen ∧ (fresh [] [] 65).params.outLen ≤ 64) ∧
    (1 ≤ (fresh [] (List.replicate 65 0) 64).params.outLen ∧
      (fresh [] (List.replicate 65 0) 64).params.outLen ≤ 64 ∧
      64 < (fresh [] (List.replicate 65 0) 64).keyLen) ∧
    (missingCell.loaded = true ∧ missingCell.gadget = .uninitialized ∧
      1 ≤ missingCell.params.outLen ∧ missingCell.params.outLen ≤ 64 ∧ missingCell.keyLen ≤ 64 ∧
      missingCell.x.length ≠ missingCell.params.inputLen) ∧
    (longInput (128 * 2 ^ 26 + 1)).loaded = true ∧
    (longInput (128 * 2 ^ 26 + 1)).gadget = .uninitialized ∧
    1 ≤ (longInput (128 * 2 ^ 26 + 1)).params.outLen ∧
    (longInput (128 * 2 ^ 26 + 1)).params.outLen ≤ 64 ∧ (longInput (128 * 2 ^ 26 + 1)).keyLen ≤ 64 ∧
    (longInput (128 * 2 ^ 26 + 1)).x.length = (longInput (128 * 2 ^ 26 + 1)).params.inputLen ∧
    maxBlocks < (longInput (128 * 2 ^ 26 + 1)).blockCount :=
  ⟨by decide, by decide, by decide, by decide, longInput_blocks (Nat.lt_succ_self _)⟩

/-- `tiny` with one input cell that holds no Byte. -/
def tinyBadByte : State :=
  { tiny with x := [256], params := { tiny.params with inputLen := 1 } }

theorem witness_BlockCommandFaults :
    tiny.loaded = true ∧ tiny.blockCount ≤ (1 : BitVec 26).toNat ∧ tiny.gadget = .processingBlock ∧
    (tinyBadByte.loaded = true ∧ tinyBadByte.gadget = .processingBlock ∧
      (0 : BitVec 26).toNat < tinyBadByte.blockCount ∧ tinyBadByte.sourcesExist = true ∧
      tinyBadByte.params.hostRangeCheck = true ∧
      ∃ k < 128, 256 ≤ tinyBadByte.sourceValue (tinyBadByte.source (0 : BitVec 26).toNat k)) :=
  ⟨by decide, by decide, by decide, by decide, by decide, by decide, by decide, by decide,
    0, by decide, by decide⟩

/-- `tiny` with a full trace. -/
def tinyFull : State := { tiny with params := { tiny.params with circuitRows := 10 } }

/-- The trace is full before the first row (a ROW with nothing in `P`, an ADDP), after it (an ADD, XORP, NOT
and both kinds of ROTR with room for one row less than they emit), and within LDBLK, VINIT, OUT and INIT. -/
theorem witness_FullTraceFaults :
    ∀ q ∈ [(Instr.row (.v 0) (.v 1), { tinyFull with p := none }), (.addp (.v 0) (.v 1), tinyFull),
        (.add (.v 0) (.v 0) (.v 1), { tinyNoP with params := { tiny.params with circuitRows := 12 } }),
        (.xorp (.v 0) (.v 1), { tiny with params := { tiny.params with circuitRows := 11 } }),
        (.not (.v 0) (.v 1), { tinyWordP with params := { tiny.params with circuitRows := 11 } }),
        (.rotr16 (.v 0) (.v 1), { tinyNoP with params := { tiny.params with circuitRows := 11 } }),
        (.rotr63 (.v 0) (.v 0), { tiny with params := { tiny.params with circuitRows := 11 } }),
        (.ldblk 0, { tiny with params := { tiny.params with circuitRows := 25 } }),
        (.vinit 0, { tiny with params := { tiny.params with circuitRows := 12 } }),
        (.out, { tinyWordH with params := { tiny.params with circuitRows := 10 } }),
        (.init, { fresh [] [] 64 with params := { Params.reset with circuitRows := 9 } })],
      q.1.wf = true ∧ q.2.loaded = true ∧ permission q.1 q.2.gadget ≠ none ∧ ChecksPass q.1 q.2 ∧
        0 < rowCost q.1 q.2 ∧ q.2.params.circuitRows < q.2.cur + rowCost q.1 q.2 := by
  simp only [List.forall_mem_cons, List.not_mem_nil, false_implies, implies_true, and_true]
  refine ⟨?_, ?_, ?_, ?_, ?_, ?_, ?_, ?_, ?_, ?_, ?_⟩ <;>
    refine ⟨by decide, by decide, by decide, ?_, by decide, by decide⟩
  case refine_4 => exact ⟨by decide, iv0Row, rfl, rfl⟩
  all_goals simp only [ChecksPass]; decide

/-! ## Witnesses: what each command does. `h0` is a `Row`, `v1` a `Word`; the destination is `v0`, which is
bound, or a source. -/

theorem witness_RowCompletes :
    (Operand.v 0).writable = true ∧ ReadyForWords tiny ∧
    tiny.binding (.v 1) = some ⟨ivWord 1, 1, .word⟩ ∧ Room 1 tiny := by
  unfold ReadyForWords Room
  decide

theorem witness_AddCompletes :
    (Operand.v 0).writable = true ∧ ReadyForWords tiny ∧ tiny.binding (.v 0) = some iv0Row ∧
    tiny.binding (.iv 7) = some ⟨ivWord 7, 7, .word⟩ ∧ Room 3 tiny ∧ tiny.traceWf = true := by
  unfold ReadyForWords Room
  decide

theorem witness_AddpCompletes :
    (Operand.v 0).writable = true ∧ ReadyForWords tiny ∧ tiny.p = some iv0Row ∧
    iv0Row.row + 1 = tiny.cur ∧ tiny.binding (.iv 7) = some ⟨ivWord 7, 7, .word⟩ ∧ Room 2 tiny ∧
    tiny.traceWf = true := by
  unfold ReadyForWords Room
  decide

theorem witness_XorCompletes :
    (Operand.h 0).writable = true ∧ ReadyForWords tiny ∧ tiny.binding (.h 0) = some iv0Row ∧
    tiny.binding (.v 0) = some iv0Row ∧ Room 3 tiny ∧ tiny.traceWf = true := by
  unfold ReadyForWords Room
  decide

theorem witness_XorpCompletes :
    (Operand.h 0).writable = true ∧ ReadyForWords tiny ∧ tiny.p = some iv0Row ∧ iv0Row.kind = .row ∧
    iv0Row.row + 1 = tiny.cur ∧ tiny.binding (.v 1) = some ⟨ivWord 1, 1, .word⟩ ∧ Room 2 tiny ∧
    tiny.traceWf = true := by
  unfold ReadyForWords Room
  decide

theorem witness_NotCompletes :
    (Operand.v 14).writable = true ∧ ReadyForWords tiny ∧
    tiny.binding (.iv 6) = some ⟨ivWord 6, 6, .word⟩ ∧ Room 2 tiny ∧ tiny.traceWf = true := by
  unfold ReadyForWords Room
  decide

theorem witness_LimbRotationsCompleteFromRow :
    (Instr.rotr32 (.v 0) (.v 0), (4 : Fin 8)) ∈ [(Instr.rotr16 (.v 0) (.v 0), (2 : Fin 8)),
      (.rotr24 (.v 0) (.v 0), 3), (.rotr32 (.v 0) (.v 0), 4)] ∧
    (Operand.v 0).writable = true ∧ ReadyForWords tiny ∧ tiny.binding (.v 0) = some iv0Row ∧
    iv0Row.kind = .row ∧ Room 1 tiny := by
  unfold ReadyForWords Room
  decide

theorem witness_LimbRotationsCompleteFromWord :
    (Instr.rotr16 (.v 0) (.v 1), (2 : Fin 8)) ∈ [(Instr.rotr16 (.v 0) (.v 1), (2 : Fin 8)),
      (.rotr24 (.v 0) (.v 1), 3), (.rotr32 (.v 0) (.v 1), 4)] ∧
    (Operand.v 0).writable = true ∧ ReadyForWords tiny ∧
    tiny.binding (.v 1) = some ⟨ivWord 1, 1, .word⟩ ∧
    (⟨ivWord 1, 1, .word⟩ : Binding).kind = .word ∧ Room 2 tiny := by
  unfold ReadyForWords Room
  decide

theorem witness_Rotr63CompletesInPlace :
    (Operand.v 0).writable = true ∧ ReadyForWords tiny ∧ tiny.binding (.v 0) = some iv0Row ∧
    tiny.p = some iv0Row ∧ iv0Row.cell = iv0Row.cell ∧ iv0Row.row + 1 = tiny.cur ∧ Room 2 tiny ∧
    tiny.traceWf = true := by
  unfold ReadyForWords Room
  decide

theorem witness_Rotr63CompletesOnCopy :
    (Operand.v 1).writable = true ∧ ReadyForWords tiny ∧
    tiny.binding (.v 1) = some ⟨ivWord 1, 1, .word⟩ ∧
    (∀ a, tiny.p = some a → a.cell ≠ (⟨ivWord 1, 1, .word⟩ : Binding).cell) ∧ Room 3 tiny ∧
    tiny.traceWf = true := by
  refine ⟨rfl, by unfold ReadyForWords; decide, rfl, ?_, by unfold Room; decide, by decide⟩
  intro a h
  obtain rfl := tiny_p h
  decide

/-- INIT with the shortest and the longest digest, and with the longest key. -/
theorem witness_InitCompletes :
    ∀ s ∈ [fresh [] [] 1, fresh [1, 2, 3] (List.replicate 64 0) 64], s.loaded = true ∧
      s.gadget = .uninitialized ∧ 1 ≤ s.params.outLen ∧ s.params.outLen ≤ 64 ∧ s.keyLen ≤ 64 ∧
      s.x.length = s.params.inputLen ∧ s.blockCount ≤ maxBlocks ∧ Room 10 s := by
  unfold Room
  decide

/-- `tiny` with three input cells, "abc". -/
def tinyAbc : State :=
  { tiny with x := [0x61, 0x62, 0x63], params := { tiny.params with inputLen := 3 } }

/-- `tinyBadByte` with `HOST_RANGE_CHECK` off. -/
def tinyUnchecked : State :=
  { tinyBadByte with params := { tinyBadByte.params with hostRangeCheck := false } }

/-- LDBLK of a block of Bytes, and of one that holds other values with `HOST_RANGE_CHECK` off. -/
theorem witness_LdblkCompletes :
    (tinyAbc.loaded = true ∧ tinyAbc.gadget = .processingBlock ∧
      (0 : BitVec 26).toNat < tinyAbc.blockCount ∧ tinyAbc.sourcesExist = true ∧ Room 16 tinyAbc ∧
      ∀ k < 128, tinyAbc.sourceValue (tinyAbc.source 0 k) < 256) ∧
    (tinyUnchecked.loaded = true ∧ tinyUnchecked.gadget = .processingBlock ∧
      (0 : BitVec 26).toNat < tinyUnchecked.blockCount ∧ tinyUnchecked.sourcesExist = true ∧
      Room 16 tinyUnchecked ∧ tinyUnchecked.params.hostRangeCheck = false ∧
      ¬ tinyUnchecked.sourceValue (tinyUnchecked.source 0 0) < 256) := by
  unfold Room
  decide

/-- `tiny` with an input of two blocks. -/
def tinyTwoBlocks : State := { tiny with params := { tiny.params with inputLen := 129 } }

theorem witness_VinitCompletes :
    tinyTwoBlocks.loaded = true ∧ tinyTwoBlocks.gadget = .processingBlock ∧
    (0 : BitVec 26).toNat + 1 < tinyTwoBlocks.blockCount ∧
    (∀ i : Fin 8, tinyTwoBlocks.h[i] ≠ none) ∧ (∀ i : Fin 8, tinyTwoBlocks.iv[i] ≠ none) ∧
    Room 1 tinyTwoBlocks := by
  unfold Room
  decide

theorem witness_VinitOfFinalBlockCompletes :
    tinyTwoBlocks.loaded = true ∧ tinyTwoBlocks.gadget = .processingBlock ∧
    (1 : BitVec 26).toNat + 1 = tinyTwoBlocks.blockCount ∧
    (∀ i : Fin 8, tinyTwoBlocks.h[i] ≠ none) ∧ (∀ i : Fin 8, tinyTwoBlocks.iv[i] ≠ none) ∧
    tinyTwoBlocks.iv[6] = some ⟨ivWord 6, 6, .word⟩ ∧ Room 3 tinyTwoBlocks ∧
    tinyTwoBlocks.traceWf = true := by
  unfold Room
  decide

theorem witness_OutCompletes :
    tinyWordH.loaded = true ∧ tinyWordH.gadget = .processingBlock ∧
    (∀ j : Fin 8, tinyWordH.h[j] ≠ none) ∧ Room 8 tinyWordH := by
  unfold Room
  decide

theorem witness_RowCosts :
    tinyWordH.fault = none ∧ ∃ t, exec .out tinyWordH = .next t ∧ t.fault = none := ⟨rfl, _, rfl, rfl⟩

theorem witness_ReuseComputesTheSameValue :
    tiny.p = tiny.binding (.v 0) ∧ tiny.fault = none ∧
    (∃ t u, exec (.addp (.v 2) (.v 1)) tiny = .next t ∧ exec (.add (.v 2) (.v 0) (.v 1)) tiny = .next u ∧
      t.fault = none ∧ u.fault = none) ∧
    ∃ t u, exec (.xorp (.v 2) (.v 1)) tiny = .next t ∧ exec (.xor (.v 2) (.v 0) (.v 1)) tiny = .next u ∧
      t.fault = none ∧ u.fault = none :=
  ⟨rfl, rfl, ⟨_, _, rfl, rfl, rfl, rfl⟩, _, _, rfl, rfl, rfl, rfl⟩

/-! ## Witnesses: values and gates -/

theorem witness_XorActsLaneByLane :
    (Operand.h 0).writable = true ∧ ReadyForWords tiny ∧
    tiny.binding (.v 1) = some ⟨ivWord 1, 1, .word⟩ ∧ tiny.traceWf = true ∧
    (tiny.binding (.h 0) = some iv0Row ∧ Room 3 tiny) ∧ tiny.p = some iv0Row ∧ iv0Row.kind = .row ∧
    Room 2 tiny := by
  unfold ReadyForWords Room
  decide

theorem witness_LimbRotationPermutesBytes : (1 : Fin 8) ≠ 0 ∧ (7 : Fin 8) ≠ 0 := by decide

theorem witness_BlocksArePaddedAndCoverTheInput :
    64 ≤ 64 ∧ 1 < nblocks 129 0 ∧ 0 < 128 - padCount 129 0 1 ∧ 63 < 128 - padCount 129 64 0 ∧
    128 < 129 ∧ 63 < 64 := by decide

theorem mem_tiny_rangeTable {n : Nat} (h : n < 256) : n ∈ tiny.rangeTable := List.mem_range.mpr h

theorem mem_tiny_xorTable {a b : Nat} (ha : a < 256) (hb : b < 256) :
    (a, b, a ^^^ b) ∈ tiny.xorTable := by
  refine List.mem_map.mpr ⟨256 * a + b, List.mem_range.mpr (by omega), ?_⟩
  rw [show (256 * a + b) / 256 = a by omega, show (256 * a + b) % 256 = b by omega]

/-- Rows 0 and 1 hold `2^64 − 1`, row 2 zero: a decomposition, and an XOR. -/
def allOnes : Witness
  | .l _ 2 => 0
  | .f 2 => 0
  | .l _ _ => 255
  | .f _ => 2 ^ 64 - 1
  | _ => 0

theorem allOnes_lt (c : Cell) : allOnes c < tiny.params.fieldP := by
  unfold allOnes
  split <;> decide

theorem allOnes_gateDec (r : Fin 3) : gateDec tiny allOnes r.val := by
  fin_cases r <;> exact ⟨by decide, fun i => mem_tiny_rangeTable (by revert i; decide)⟩

theorem witness_DecompositionGateIsSound :
    tiny.loaded = true ∧ 2 ^ 65 < tiny.params.fieldP ∧ (∀ c, allOnes c < tiny.params.fieldP) ∧
    gateDec tiny allOnes 0 := ⟨rfl, by decide, allOnes_lt, allOnes_gateDec 0⟩

theorem witness_XorGateIsSound :
    tiny.loaded = true ∧ 2 ^ 65 < tiny.params.fieldP ∧ (∀ c, allOnes c < tiny.params.fieldP) ∧
    gateDec tiny allOnes 0 ∧ gateDec tiny allOnes 1 ∧ gateDec tiny allOnes 2 ∧ gateXor tiny allOnes 0 :=
  ⟨rfl, by decide, allOnes_lt, allOnes_gateDec 0, allOnes_gateDec 1, allOnes_gateDec 2,
    fun _ => mem_tiny_xorTable (a := 255) (b := 255) (by decide) (by decide)⟩

/-- `(2^64 − 1) + 1` with its carry on rows 0 to 2. -/
def carryingAdd : Witness
  | .f 0 => 2 ^ 64 - 1
  | .f 1 => 1
  | .l 0 1 => 1
  | _ => 0

theorem witness_AdditionGateIsSound :
    tiny.loaded = true ∧ tiny.params.fieldP.Prime ∧ 2 ^ 65 < tiny.params.fieldP ∧
    (∀ c, carryingAdd c < tiny.params.fieldP) ∧ carryingAdd (.f 0) < 2 ^ 64 ∧
    carryingAdd (.f (0 + 1)) < 2 ^ 64 ∧ gateDec tiny carryingAdd (0 + 2) ∧
    gateAdd tiny.params.fieldP carryingAdd 0 := by
  refine ⟨rfl, prime_fieldP, by decide, ?_, by decide, by decide,
    ⟨by decide, fun i => mem_tiny_rangeTable (by revert i; decide)⟩, ?_⟩
  · intro c
    unfold carryingAdd
    split <;> decide
  · unfold gateAdd
    decide

/-- `2^63` rotated right by 63 bits, with its high bit, on rows 0 to 2. -/
def highBitRot : Witness
  | .f 0 => 2 ^ 63
  | .f 1 => 1
  | .f 2 => 1
  | .l 0 2 => 1
  | _ => 0

theorem witness_Rotation63GateIsSound :
    tiny.loaded = true ∧ tiny.params.fieldP.Prime ∧ 2 ^ 65 < tiny.params.fieldP ∧
    (∀ c, highBitRot c < tiny.params.fieldP) ∧ highBitRot (.f 0) < 2 ^ 64 ∧
    gateDec tiny highBitRot (0 + 2) ∧ gateRot63 tiny.params.fieldP highBitRot 0 := by
  refine ⟨rfl, prime_fieldP, by decide, ?_, by decide,
    ⟨by decide, fun i => mem_tiny_rangeTable (by revert i; decide)⟩, ?_⟩
  · intro c
    unfold highBitRot
    split <;> decide
  · unfold gateRot63
    decide

/-- Limbs 0 to 7 on row 0, and the same rotated by two limbs on row 1. -/
def rotatedLimbs : Witness
  | .l i 0 => i.val
  | .l i 1 => (i + 2).val
  | .f 0 => 0x0706050403020100
  | .f 1 => 0x0100070605040302
  | _ => 0

theorem witness_LimbRotationIsSound :
    (2 : Fin 8) ∈ [(2 : Fin 8), 3, 4] ∧ tiny.loaded = true ∧ 2 ^ 65 < tiny.params.fieldP ∧
    (∀ c, rotatedLimbs c < tiny.params.fieldP) ∧
    (∀ i, rotatedLimbs (.l i 1) = rotatedLimbs (.l (i + 2) 0)) ∧ gateDec tiny rotatedLimbs 0 ∧
    gateDec tiny rotatedLimbs 1 := by
  refine ⟨by decide, rfl, by decide, ?_, fun _ => rfl,
    ⟨by decide, fun i => mem_tiny_rangeTable (by revert i; decide)⟩,
    ⟨by decide, fun i => mem_tiny_rangeTable (by revert i; decide)⟩⟩
  have h : 2 ^ 64 < tiny.params.fieldP := by decide
  intro c
  unfold rotatedLimbs
  split
  · rename_i i; have := i.isLt; omega
  · rename_i i; have := (i + 2).isLt; omega
  all_goals omega

/-- The complement of zero, in the smallest field the rule speaks of. -/
def complementOfZero : Witness
  | .f 1 => 2 ^ 64 - 1
  | _ => 0

theorem witness_NegationGateIsSound :
    2 ^ 64 < 2 ^ 64 + 1 ∧ (∀ c, complementOfZero c < 2 ^ 64 + 1) ∧ complementOfZero (.f 0) < 2 ^ 64 ∧
    gateNot (2 ^ 64 + 1) complementOfZero 0 := by
  refine ⟨by decide, ?_, by decide, by unfold gateNot; decide⟩
  intro c
  unfold complementOfZero
  split <;> decide

/-! ## Witnesses: frames and invariants -/

theorem witness_WordCommandsFrame :
    (Instr.addp (.v 0) (.v 1)).dest? = some (.v 0) ∧ tiny.traceWf = true ∧
    ∃ t, exec (.addp (.v 0) (.v 1)) tiny = .next t ∧ t.fault = none := ⟨rfl, by decide, _, rfl, rfl⟩

theorem witness_InitAndLdblkFrame :
    (∃ t, exec .init (fresh [] [] 64) = .next t ∧ t.fault = none) ∧
    ∃ t, exec (.ldblk 0) tinyAbc = .next t ∧ t.gadget = .processingBlock :=
  ⟨⟨_, rfl, rfl⟩, exec_total _ _ |>.imp fun t h => ⟨h, by
    have := exec_next h
    rcases this with ⟨e, rfl⟩ | ⟨_, _, _, u, hu, rfl⟩
    · rfl
    · obtain ⟨_, _, _, _, rfl⟩ := ldblkBody_ok.mp hu
      rfl⟩⟩

theorem witness_VinitAndOutFrame :
    tiny.traceWf = true ∧ (∃ t, exec (.vinit 0) tiny = .next t ∧ t.fault = none) ∧
    ∃ t, exec .out tiny = .next t ∧ t.fault = none := ⟨by decide, ⟨_, rfl, rfl⟩, _, rfl, rfl⟩

theorem witness_StepOnlyExtendsTheCircuit :
    ∃ t, step tiny = .next t ∧ t.gadget = .finalized := ⟨_, rfl, rfl⟩

theorem witness_TraceFormAndPcKept :
    (∃ t, step tiny = .next t ∧ t.pc = 1) ∧ (tiny.traceWf = true ∧ PcInProgram tiny) ∧
    (2 ^ 64 < tiny.params.fieldP ∧ Memory.wf tiny = true) ∧ tiny.params.hostRangeCheck = true ∧
    CellWidths tiny :=
  ⟨⟨_, rfl, rfl⟩, ⟨by decide, by unfold PcInProgram; decide⟩, ⟨by decide, tiny_wf⟩, rfl, tiny_cellWidths⟩

theorem witness_BindingRowsKept :
    tiny.traceWf = true ∧ BindingRows tiny ∧ ∃ t, step tiny = .next t ∧ t.gadget = .finalized :=
  ⟨by decide, tiny_bindingRows, _, rfl, rfl⟩

theorem witness_BindingValuesKept :
    tiny.traceWf = true ∧ tiny.params.hostRangeCheck = true ∧ BindingValues tiny ∧
    ∃ t, step tiny = .next t ∧ t.gadget = .finalized :=
  ⟨by decide, rfl, tiny_bindingValues, _, rfl, rfl⟩

theorem witness_GadgetStateInvariantKept :
    (tiny.traceWf = true ∧ GadgetInv tiny ∧ ∃ t, step tiny = .next t ∧ t.gadget = .finalized) ∧
    tiny.fault = none ∧ (∃ t, exec .out tiny = .next t) ∧ ∃ t, exec (.vinit 0) tiny = .next t :=
  ⟨⟨by decide, tiny_gadgetInv, _, rfl, rfl⟩, rfl, ⟨_, rfl⟩, _, rfl⟩

theorem witness_HonestWitnessInvariantKept :
    tiny.traceWf = true ∧ BindingRows tiny ∧ BindingValues tiny ∧ GadgetInv tiny ∧
    tiny.params.hostRangeCheck = true ∧ 2 ^ 65 < tiny.params.fieldP ∧ HonestInv tiny ∧
    DigestExposed tiny ∧ ∃ t, step tiny = .next t ∧ t.gadget = .finalized :=
  ⟨by decide, tiny_bindingRows, tiny_bindingValues, tiny_gadgetInv, rfl, by decide, tiny_honestInv,
    tiny_digestExposed, _, rfl, rfl⟩

/-- `tiny` once `LDBLK 0`, of the empty input, has run: sixteen rows of zero. -/
def tinyLoaded : State :=
  { afterMessages tiny 0 (List.finRange 16) tiny with
    m := messageBindings tiny 0 10
    p := none
    gadget := .processingBlock
    pc := 1 }

theorem tiny_ldblk : exec (.ldblk 0) tiny = .next tinyLoaded := by
  rw [exec_eq_command]
  exact command_ok rfl rfl rfl (ldblkBody_ok.mpr ⟨by decide, by decide, fun _ => by decide, by decide, rfl⟩)

theorem tiny_honest_lt (c : Cell) : tiny.honest (fun _ => 0) c < tiny.params.fieldP := by
  unfold State.honest
  cases h : tiny.cell? c with
  | none => exact (by decide : 0 < tiny.params.fieldP)
  | some a => exact (cellsInField_iff tiny).mp ((wf_iff tiny).mp tiny_wf).2 c a h

theorem tinyLoaded_satisfies : Satisfies tinyLoaded (tiny.honest fun _ => 0) := by
  have hsrc : ∀ (j : Fin 16) (i : Fin 8),
      tiny.sourceCell (tiny.source 0 (8 * j.val + i.val)) = .f 8 := by decide
  have hnew : ∀ r, 10 ≤ r → tiny.trace[r]? = none := fun r h => List.getElem?_eq_none h
  have hrow : ∀ {r : Nat} {row : TraceRow}, tinyLoaded.trace[r]? = some row →
      tiny.trace[r]? = some row ∨ 10 ≤ r ∧ ∃ j, row = messageRow tiny 0 j := by
    intro r row h
    rcases Nat.lt_or_ge r 10 with hr | hr
    · exact .inl ((List.getElem?_append_left (l₂ := (List.finRange 16).map (messageRow tiny 0)) hr).symm.trans h)
    · have h' := (List.getElem?_append_right (l₂ := (List.finRange 16).map (messageRow tiny 0)) hr).symm.trans h
      obtain ⟨j, _, e⟩ := List.mem_map.mp (List.mem_of_getElem? h')
      exact .inr ⟨hr, j, e.symm⟩
  refine ⟨tiny_honest_lt, fun q h => ?_, fun r row a h hk => ?_, fun r row q h hq => ?_⟩
  · rcases List.mem_append.mp h with h | h
    · exact tiny_honestCopies _ q h
    · obtain ⟨⟨j, r⟩, hz, hm⟩ := List.mem_flatMap.mp h
      obtain ⟨i, _, rfl⟩ := List.mem_map.mp hm
      have hr : 10 ≤ r := (List.mem_zipIdx hz).1
      have h0 : tiny.honest (fun _ => 0) (.l i r) = 0 := by simp [State.honest, State.cell?, hnew r hr]
      simp only [hsrc j i, h0]
      rfl
  · obtain h | ⟨_, j, rfl⟩ := hrow h
    · exact tiny_honestInv.fixed _ r row a h hk
    · cases hk
  · obtain h | ⟨hr, j, rfl⟩ := hrow h
    · exact tiny_honestInv.gates _ r row q h hq
    · obtain rfl : q = .qDec := by cases q <;> first | rfl | cases hq
      have h0 : ∀ i, tiny.honest (fun _ => 0) (.l i r) = 0 := fun i => by
        simp [State.honest, State.cell?, hnew r hr]
      have hf : tiny.honest (fun _ => 0) (.f r) = 0 := by simp [State.honest, State.cell?, hnew r hr]
      refine ⟨?_, fun i => ?_⟩
      · simp only [hf, h0]
        rfl
      · rw [h0]
        exact mem_tiny_rangeTable (by decide)

theorem witness_RangeInvariantKept :
    (tiny.traceWf = true ∧ BindingRows tiny ∧ tiny.params.fieldP.Prime ∧
      2 ^ 65 < tiny.params.fieldP ∧ RangeInv tiny ∧
      ∃ t, step tiny = .next t ∧ t.gadget = .finalized) ∧
    exec (.ldblk 0) tiny = .next tinyLoaded ∧ tinyLoaded.fault = none ∧
    Satisfies tinyLoaded (tiny.honest fun _ => 0) :=
  ⟨⟨by decide, tiny_bindingRows, prime_fieldP, by decide, tiny_rangeInv, _, rfl, rfl⟩, tiny_ldblk, rfl,
    tinyLoaded_satisfies⟩

theorem witness_ConstraintsDetermineValues :
    tiny.traceWf = true ∧ BindingRows tiny ∧ tiny.params.fieldP.Prime ∧
    2 ^ 65 < tiny.params.fieldP ∧ RangeInv tiny ∧ Determined tiny ∧
    ∃ t, step tiny = .next t ∧ t.gadget = .finalized :=
  ⟨by decide, tiny_bindingRows, prime_fieldP, by decide, tiny_rangeInv, tiny_determined, _, rfl, rfl⟩

/-- The honest witness of `tinyFinal` with 0 in every free cell. -/
def tinyWitness : Witness := tinyFinal.honest fun _ => 0

theorem tinyWitness_lt (c : Cell) : tinyWitness c < tinyFinal.params.fieldP :=
  tiny_honest_lt c

theorem tinyFinal_accept : Accept tinyFinal tinyWitness [8] := by
  refine ⟨⟨tinyWitness_lt, fun q h => ?_, tinyFinal_honestInv.fixed _, tinyFinal_honestInv.gates _⟩,
    rfl, fun k hk => ?_⟩
  · rcases List.mem_append.mp h with h | h
    · exact tiny_honestCopies (fun _ => 0) q h
    · obtain rfl := List.mem_singleton.mp h
      rfl
  · obtain rfl : k = 0 := Fin.ext (Nat.lt_one_iff.mp hk)
    rfl

theorem witness_AcceptedDigestIsTheComputedOne :
    BindingRows tinyFinal ∧ BindingValues tinyFinal ∧ GadgetInv tinyFinal ∧ HonestInv tinyFinal ∧
    DigestExposed tinyFinal ∧ Determined tinyFinal ∧ 2 ^ 65 < tinyFinal.params.fieldP ∧
    tinyFinal.gadget = .finalized ∧
    ((∀ c, tinyFinal.honest (fun _ => 0) c < tinyFinal.params.fieldP) ∧
      ∀ k : Fin 64, k.val < tinyFinal.params.outLen →
        (tinyFinal.digestByte? k).map BitVec.toNat = some tinyFinal.inst[k]) ∧
    Accept tinyFinal tinyWitness [8] ∧ AgreesOnInputs tinyFinal tinyWitness := by
  refine ⟨tinyFinal_bindingRows, tinyFinal_bindingValues, tinyFinal_gadgetInv, tinyFinal_honestInv,
    tinyFinal_digestExposed, tinyFinal_determined, by decide, rfl, ⟨tinyWitness_lt, ?_⟩,
    tinyFinal_accept, ?_⟩
  · intro k hk
    obtain rfl : k = 0 := Fin.ext (Nat.lt_one_iff.mp hk)
    decide
  · exact ⟨fun i a h => by simp [tinyFinal, tiny] at h, fun i a h => by simp [tinyFinal, tiny] at h⟩

/-! ## Witnesses: the pseudo-instructions -/

/-- `tiny` with all of `v` bound. -/
def tinyVector : State := { tiny with v := Vector.replicate 16 (some iv0Row) }

theorem witness_MixComputesG :
    ReadyForWords tinyVector ∧ tinyVector.fault = none ∧ Room 26 tinyVector ∧
    (∀ i : Fin 16, tinyVector.v[i].map Binding.val = some (Vector.replicate 16 (ivWord 0))[i]) ∧
    ∀ i : Fin 16, tinyVector.m[i].map Binding.val = some (Vector.replicate 16 (ivWord 0))[i] := by
  unfold ReadyForWords Room
  decide

theorem witness_CompressComputesF :
    tiny.loaded = true ∧ tiny.gadget = .processingBlock ∧ tiny.fault = none ∧
    (0 : BitVec 26).toNat < tiny.blockCount ∧
    Room (if isFinalBlock tiny.params.inputLen tiny.keyLen (0 : BitVec 26).toNat then 2539 else 2537)
      tiny ∧
    (∀ i : Fin 8, tiny.h[i].map Binding.val = some (Vector.replicate 8 (ivWord 0))[i]) ∧
    (∀ i : Fin 8, tiny.iv[i].map Binding.val = some (ivWord i)) ∧
    ∀ i : Fin 16, tiny.m[i].map Binding.val = some (Vector.replicate 16 (ivWord 0))[i] := by
  unfold Room
  decide

/-- A circuit instance whose tables are loaded. -/
def prepared : State := State.reset.configure.load

/-- "abc" with no key (spec/95_test_vectors.md §3.13). -/
theorem witness_HashComputesKeyedBlake2b :
    (fresh [0x61, 0x62, 0x63] [] 64).loaded = true ∧
    (fresh [0x61, 0x62, 0x63] [] 64).gadget = .uninitialized ∧
    (fresh [0x61, 0x62, 0x63] [] 64).fault = none ∧
    (fresh [0x61, 0x62, 0x63] [] 64).x = ([0x61, 0x62, 0x63] : List Byte).map BitVec.toNat ∧
    (fresh [0x61, 0x62, 0x63] [] 64).y = ([] : List Byte).map BitVec.toNat ∧
    (fresh [0x61, 0x62, 0x63] [] 64).params.inputLen = 3 ∧
    (fresh [0x61, 0x62, 0x63] [] 64).params.outLen = 64 ∧ nblocks 3 0 ≤ maxBlocks ∧
    Room (12 + 2553 * nblocks 3 0) (fresh [0x61, 0x62, 0x63] [] 64) ∧
    prepared.loaded = true ∧ prepared.fault = none ∧
    ([⟨0x61, by decide⟩, ⟨0x62, by decide⟩, ⟨0x63, by decide⟩] : List (Fin prepared.params.fieldP)).map
      Fin.val = ([0x61, 0x62, 0x63] : List Byte).map BitVec.toNat ∧
    12 + 2553 * nblocks 3 0 ≤ prepared.params.circuitRows := by
  unfold Room
  decide

end Sys2Proof.Tests
end

/-! The limbs of a Word: the bytes of R13, least significant first (R63). -/

namespace Sys2Proof.Machine

theorem leLimbs_getElem (a : Word) (i : Fin 8) :
    (leLimbs a)[i] = some (byteAt a i).toNat := by
  simp [leLimbs]

theorem byteAt_toNat (a : Word) (i : Fin 8) : (byteAt a i).toNat = a.toNat / 256 ^ i.val % 256 := by
  rw [byteAt, BitVec.extractLsb'_toNat, Nat.shiftRight_eq_div_pow, Nat.pow_mul]

theorem limbSum_byteAt (a : Word) : limbSum (fun i => (byteAt a i).toNat) = a.toNat := by
  have := a.isLt
  simp only [limbSum, byteAt_toNat, Fin.coe_ofNat_eq_mod, Nat.reduceMod, Nat.reducePow]
  omega

/-- Settles O34: a limb cell is a byte by its definition, and the bytes are the base-256 digits of the
Word. -/
theorem limbsAreLittleEndian : Obligations.LimbsAreLittleEndian :=
  fun a => ⟨leLimbs_getElem a, limbSum_byteAt a⟩

end Sys2Proof.Machine

/-! What the rule of any command can make of the state: `Builds s t`. An invariant that each way
to build keeps is kept by every command, by one induction over `Builds`. -/

namespace Sys2Proof.Machine

/-- The rows a command of a machine in state `s` can append. A message row's limbs are Bytes where the
host checks them (R220). -/
inductive NewRow (s : State) : TraceRow → Prop
  | dec (a : Word) : NewRow s (decRow a)
  | word (a : Word) : NewRow s (wordRow a)
  | carry (a b c : Word) : NewRow s (carryRow a (carryOf b c))
  | fixed (a : Word) : NewRow s (fixedRow a)
  | highBit (a : Word) : NewRow s (highBitRow a)
  | message (b : Nat) (j : Fin 16)
      (checked : s.params.hostRangeCheck = true → ∀ i, s.messageByte b j i < 256) :
      NewRow s (messageRow s b j)

/-- `t` comes from `s` by appending rows where there is room, copy constraints, selectors, and writes to
the operands, `P`, the gadget state and `Z`. -/
inductive Builds (s : State) : State → Prop
  | refl : Builds s s
  | push {t : State} {row : TraceRow} (h : Builds s t) (room : t.cur < t.params.circuitRows)
      (new : NewRow s row) : Builds s (t.pushRow row)
  | copyAll {t : State} (h : Builds s t) (ps : List (Cell × Cell)) : Builds s (t.copyAll ps)
  | sel {t : State} (h : Builds s t) (q : Selector) (r : Nat) : Builds s (t.sel q r)
  | write {t : State} (h : Builds s t) (v m : Vector (Option Binding) 16)
      (hs iv : Vector (Option Binding) 8) (p : Option Binding) (g : GadgetState) (z : Option Nat) :
      Builds s { t with v := v, m := m, h := hs, iv := iv, p := p, gadget := g, z := z }

/-! ## The shared operations build -/

namespace Builds

variable {s t u : State}

theorem copy (h : Builds s t) (c d : Cell) : Builds s (t.copy c d) := h.copyAll [(c, d)]

theorem bind (h : Builds s t) (o : Operand) (b : Binding) : Builds s (t.bind o b) := by
  cases o <;> exact h.write _ _ _ _ _ _ _

theorem publish (h : Builds s t) (o : Operand) (b : Binding) : Builds s (publish o b t) :=
  (h.bind o b).write _ _ _ _ _ _ _

theorem afterConsts {as : List Word} (h : Builds s t)
    (room : t.cur + as.length ≤ t.params.circuitRows) : Builds s (afterConsts as t) := by
  induction as generalizing t with
  | nil =>
    have he : constRows [] t = .ok t := rfl
    exact (constRows_ok.mp he).2 ▸ h
  | cons a as ih =>
    rw [afterConsts_cons]
    rw [List.length_cons] at room
    refine ih ((h.push (by omega) (.fixed a)).copy _ _) ?_
    simp only [copy_cur, pushRow_cur, copy_params, pushRow_params]
    omega

theorem messageRows {b : Nat} {js : List (Fin 16)} (h : Builds s t)
    (checked : s.params.hostRangeCheck = true → blockInRange s b = true)
    (hu : messageRows s b js t = .ok u) : Builds s u := by
  induction js generalizing t with
  | nil => cases hu; exact h
  | cons j js ih =>
    obtain ⟨w, hw, hu⟩ := except_bind_ok.mp hu
    obtain ⟨room, rfl⟩ := emitRow_ok.mp hw
    have hrow : NewRow s (messageRow s b j) := .message b j fun hc =>
      allBytes_iff.mp (List.all_eq_true.mp (checked hc) j (List.mem_finRange j))
    exact ih ((h.push room hrow).copyAll _) hu

theorem negRows {x : Binding} (h : Builds s t) (hu : negRows x t = .ok u) : Builds s u := by
  obtain ⟨room, rfl⟩ := negRows_ok.mp hu
  exact (((h.push (by omega) (.word _)).copy _ _).push room (.word _)).sel _ _

theorem decomposeH {js : List (Fin 8)} (h : Builds s t) (hu : decomposeH js t = .ok u) :
    Builds s u := by
  induction js generalizing t with
  | nil => cases hu; exact h
  | cons j js ih =>
    obtain ⟨b, -, ⟨-, hu⟩ | ⟨-, room, hu⟩⟩ := decomposeH_cons_ok.mp hu
    · exact ih h hu
    · exact ih (((h.push room (.dec _)).copy _ _).bind _ _) hu

theorem addOnto {rd : Operand} {a : Word} {b : Binding} {r : Nat} (h : Builds s t)
    (hu : addOnto rd a b r t = .ok u) : Builds s u := by
  obtain ⟨room, rfl⟩ := addOnto_ok.mp hu
  exact ((((h.push (by omega) (.carry _ _ _)).copy _ _).push room (.dec _)).sel _ _).publish _ _

theorem xorOnto {rd : Operand} {a : Word} {b : Binding} {r : Nat} (h : Builds s t)
    (hu : xorOnto rd a b r t = .ok u) : Builds s u := by
  obtain ⟨room, rfl⟩ := xorOnto_ok.mp hu
  exact ((((h.push (by omega) (.dec _)).copy _ _).push room (.dec _)).sel _ _).publish _ _

theorem limbRotBody {k : Fin 8} {rd rs1 : Operand} (hu : limbRotBody k rd rs1 s = .ok u) :
    Builds s u := by
  obtain ⟨b, r, t, -, ht, room, rfl⟩ := limbRotBody_ok.mp hu
  have h : Builds s t := by
    obtain ⟨-, ht⟩ | ⟨-, hr, ht⟩ := decomposedSource_ok.mp ht <;> cases ht
    · exact refl
    · exact (refl.push hr (.dec _)).copy _ _
  exact ((h.push room (.dec _)).copyAll _).publish _ _

theorem rotr63Body {rd rs1 : Operand} (hu : rotr63Body rd rs1 s = .ok u) : Builds s u := by
  obtain ⟨b, r, t, -, ht, room, rfl⟩ := rotr63Body_ok.mp hu
  have h : Builds s t := by
    obtain ⟨-, ht⟩ | ⟨-, hr, ht⟩ := rot63Source_ok.mp ht <;> cases ht
    · exact refl
    · exact (refl.push hr (.word _)).copy _ _
  exact (((h.push (by omega) (.highBit _)).push room (.dec _)).sel _ _).publish _ _

theorem vinitBody {b : Nat} (hu : vinitBody b s = .ok u) : Builds s u := by
  obtain ⟨-, -, -, x, f, t, -, room, ht, rfl⟩ := vinitBody_ok.mp hu
  have h := (refl.push room (.fixed (counterWord s b))).copy (.f s.cur) (.k s.cur)
  obtain ⟨-, w, hw, ht⟩ | ⟨-, ht⟩ := finalWord_ok.mp ht <;> cases ht
  · exact (h.negRows hw).write _ _ _ _ _ _ _
  · exact h.write _ _ _ _ _ _ _

end Builds

/-- The rule of every instruction builds the state it answers. -/
theorem bodyOf_builds {i : Instr} {s u : State} (h : bodyOf i s = .ok u) : Builds s u := by
  cases i with
  | init =>
    obtain ⟨-, -, -, -, room, rfl⟩ := initBody_ok.mp h
    exact (Builds.refl.afterConsts room).write _ _ _ _ _ _ _
  | ldblk blk =>
    obtain ⟨-, -, checked, room, rfl⟩ := ldblkBody_ok.mp h
    have hu := (messageRows_ok (s := s) (b := blk.toNat) (js := List.finRange 16)).mpr
      ⟨.inr (by rw [List.length_finRange]; exact room), rfl⟩
    exact (Builds.refl.messageRows checked hu).write _ _ _ _ _ _ _
  | vinit blk => exact Builds.vinitBody h
  | out =>
    obtain ⟨-, w, hw, rfl⟩ := outBody_ok.mp h
    exact ((Builds.refl.decomposeH hw).copyAll _).write _ _ _ _ _ _ _
  | row rd rs1 =>
    obtain ⟨b, -, room, rfl⟩ := rowBody_ok.mp h
    exact ((Builds.refl.push room (.dec _)).copy _ _).publish _ _
  | add rd rs1 rs2 =>
    obtain ⟨a, b, -, -, h⟩ := addBody_ok.mp h
    have room := (addOnto_ok.mp h).1
    simp only [copy_cur, pushRow_cur, copy_params, pushRow_params] at room
    exact ((Builds.refl.push (by omega) (.word _)).copy _ _).addOnto h
  | addp rd rs2 =>
    obtain ⟨a, b, -, -, h⟩ := addpBody_ok.mp h
    exact Builds.refl.addOnto h
  | xor rd rs1 rs2 =>
    obtain ⟨a, b, -, -, h⟩ := xorBody_ok.mp h
    have room := (xorOnto_ok.mp h).1
    simp only [copy_cur, pushRow_cur, copy_params, pushRow_params] at room
    exact ((Builds.refl.push (by omega) (.dec _)).copy _ _).xorOnto h
  | xorp rd rs2 =>
    obtain ⟨a, b, -, -, -, h⟩ := xorpBody_ok.mp h
    exact Builds.refl.xorOnto h
  | not rd rs1 =>
    obtain ⟨x, w, -, hw, rfl⟩ := notBody_ok.mp h
    exact (Builds.refl.negRows hw).publish _ _
  | rotr16 rd rs1 | rotr24 rd rs1 | rotr32 rd rs1 => exact Builds.limbRotBody h
  | rotr63 rd rs1 => exact Builds.rotr63Body h

/-- Everything a step can do: it leaves the state, it records a fault, or it runs the command at `pc` and
`pc` advances. -/
theorem step_builds {s t : State} (h : step s = .next t) :
    t = s ∨ (∃ e, t = raiseFault e s) ∨
      s.pc < s.program.length ∧ ∃ u, Builds s u ∧ t = { u with pc := u.pc + 1 } := by
  obtain ⟨-, rfl⟩ | ⟨w, hw, ⟨e, -, rfl⟩ | ⟨i, -, hi⟩⟩ := step_next h
  · exact .inl rfl
  · exact .inr (.inl ⟨_, rfl⟩)
  · obtain he | ⟨-, -, -, u, hu, rfl⟩ := exec_next hi
    · exact .inr (.inl he)
    · have hpc : s.pc < s.program.length := (List.getElem?_eq_some_iff.mp (fetch_eq_some.mp hw).2).1
      exact .inr (.inr ⟨hpc, u, bodyOf_builds hu, rfl⟩)

/-! ## What building leaves alone -/

theorem Builds.sameHost {s t : State} (h : Builds s t) : SameHost s t := by
  induction h with
  | refl => exact ⟨rfl, rfl, rfl, rfl, rfl, rfl, rfl⟩
  | push _ _ _ ih | copyAll _ _ ih | sel _ _ _ ih | write _ _ _ _ _ _ _ _ ih =>
    obtain ⟨h1, h2, h3, h4, h5, h6, h7⟩ := ih
    exact ⟨h1, h2, h3, h4, h5, h6, h7⟩

theorem Builds.pc_eq {s t : State} (h : Builds s t) : t.pc = s.pc := by
  induction h with
  | refl => rfl
  | push _ _ _ ih | copyAll _ _ ih | sel _ _ _ ih | write _ _ _ _ _ _ _ _ ih => exact ih

end Sys2Proof.Machine

/-! Every step keeps the form of the trace, the canonical form of the cells, their widths, and `pc` within
the program (R12, R28, R31, R61, R319). -/

namespace Sys2Proof.Machine

/-! ## The form of the trace -/

theorem Builds.traceWf {s t : State} (h : Builds s t) (hs : s.traceWf = true) :
    t.traceWf = true := by
  induction h with
  | refl => exact hs
  | push _ room _ ih => exact pushRow_traceWf ih room
  | copyAll _ ps ih => exact (copyAll_traceWf ps _).trans ih
  | sel _ q r ih => exact (sel_traceWf q r _).trans ih
  | write _ _ _ _ _ _ _ _ ih => exact ih

/-! ## Field elements -/

theorem NewRow.inField {s : State} {row : TraceRow} (h : NewRow s row)
    (hp : 2 ^ 64 ≤ s.params.fieldP) (hs : s.cellsInField = true) :
    row.inField s.params.fieldP = true := by
  cases h with
  | dec a => exact decRow_inField hp a
  | word a => exact wordRow_inField hp a
  | carry a b c => exact carryRow_inField hp a (carryOf_le_one b c)
  | fixed a => exact fixedRow_inField hp a
  | highBit a => exact highBitRow_inField hp a
  | message b j _ => exact messageRow_inField hs hp b j

theorem Builds.wf {s t : State} (h : Builds s t) (hp : 2 ^ 64 ≤ s.params.fieldP)
    (hs : Memory.wf s = true) : Memory.wf t = true := by
  induction h with
  | refl => exact hs
  | push h room new ih =>
    refine pushRow_wf ih room ?_
    rw [h.sameHost.params]
    exact new.inField hp ((wf_iff s).mp hs).2
  | copyAll _ ps ih => exact (copyAll_wf ps _).trans ih
  | sel _ q r ih => exact (sel_wf q r _).trans ih
  | write _ _ _ _ _ _ _ _ ih => exact ih

/-! ## Widths -/

/-- What `CellWidths` says of one row (R61). -/
def RowWidths (row : TraceRow) : Prop :=
  (∀ a, row.f = some a → a < 2 ^ 64) ∧ (∀ (i : Fin 8) (a : Nat), row.l[i] = some a → a < 256) ∧
    ∀ a, row.k = some a → a < 2 ^ 64

theorem cellWidths_iff (s : State) : CellWidths s ↔ ∀ row ∈ s.trace, RowWidths row := Iff.rfl

/-- F and K of a row in a field of 2^64 elements hold Words, so only the limbs are left to check. -/
theorem rowWidths_of_inField {row : TraceRow} (h : row.inField (2 ^ 64) = true)
    (hl : ∀ (i : Fin 8) (a : Nat), row.l[i] = some a → a < 256) : RowWidths row :=
  ⟨(inField_iff.mp h).1, hl, (inField_iff.mp h).2.2⟩

theorem not_noLimbs_some (i : Fin 8) (a : Nat) : noLimbs[i] ≠ some a :=
  fun e => nomatch (noLimbs_none i).symm.trans e

theorem NewRow.widths {s : State} {row : TraceRow} (h : NewRow s row)
    (hc : s.params.hostRangeCheck = true) : RowWidths row := by
  cases h with
  | dec a =>
    refine rowWidths_of_inField (decRow_inField le_rfl a) fun i b e => ?_
    obtain rfl := Option.some.inj ((leLimbs_getElem a i).symm.trans e)
    exact (byteAt a i).isLt
  | word a =>
    exact rowWidths_of_inField (wordRow_inField le_rfl a) fun i b e => absurd e (not_noLimbs_some i b)
  | carry a b c =>
    have hbit := carryOf_le_one b c
    refine rowWidths_of_inField (carryRow_inField le_rfl a hbit) fun i d e => ?_
    simp only [carryRow, Fin.getElem_fin, Vector.getElem_set] at e
    split at e
    · cases e; omega
    · exact absurd e (not_noLimbs_some i d)
  | fixed a =>
    exact rowWidths_of_inField (fixedRow_inField le_rfl a) fun i b e => absurd e (not_noLimbs_some i b)
  | highBit a =>
    exact rowWidths_of_inField (highBitRow_inField le_rfl a) fun i b e => absurd e (not_noLimbs_some i b)
  | message b j checked =>
    have hb := checked hc
    refine ⟨fun a e => ?_, fun i a e => ?_, fun a e => nomatch e⟩
    · obtain rfl := Option.some.inj e
      rw [messageFelt_of_bytes hb]
      exact limbSum_lt hb
    · obtain rfl : s.messageByte b j i = a := by simpa [messageRow] using e
      exact hb i

/-- Setting a selector changes no cell of a row. -/
theorem mem_sel_trace {q : Selector} {r : Nat} {s : State} {row : TraceRow}
    (h : row ∈ (s.sel q r).trace) :
    ∃ old ∈ s.trace, row.f = old.f ∧ row.l = old.l ∧ row.k = old.k := by
  obtain ⟨n, hn⟩ := List.getElem?_of_mem h
  rw [sel_trace, List.getElem?_modify] at hn
  obtain ⟨old, ho, rfl⟩ := Option.map_eq_some_iff.mp hn
  refine ⟨old, List.mem_of_getElem? ho, ?_⟩
  split <;> exact ⟨rfl, rfl, rfl⟩

theorem sel_cellWidths {q : Selector} {r : Nat} {s : State} (h : CellWidths s) :
    CellWidths (s.sel q r) := by
  intro row hr
  obtain ⟨old, ho, hf, hl, hk⟩ := mem_sel_trace hr
  rw [hf, hl, hk]
  exact h old ho

theorem pushRow_cellWidths {row : TraceRow} {s : State} (h : CellWidths s) (hr : RowWidths row) :
    CellWidths (s.pushRow row) :=
  (cellWidths_iff _).mpr <| List.forall_mem_append.mpr
    ⟨(cellWidths_iff s).mp h, List.forall_mem_singleton.mpr hr⟩

theorem Builds.cellWidths {s t : State} (h : Builds s t) (hc : s.params.hostRangeCheck = true)
    (hs : CellWidths s) : CellWidths t := by
  induction h with
  | refl => exact hs
  | push _ _ new ih => exact pushRow_cellWidths ih (new.widths hc)
  | copyAll _ _ ih | write _ _ _ _ _ _ _ _ ih => exact ih
  | sel _ _ _ ih => exact sel_cellWidths ih

/-! ## `pc` -/

/-- A command that completes was fetched inside the program, so `pc` moves to its end at most. -/
theorem Builds.pcInProgram {s u : State} (h : Builds s u) (hpc : s.pc < s.program.length) :
    PcInProgram { u with pc := u.pc + 1 } := by
  unfold PcInProgram
  dsimp only
  rw [h.pc_eq, h.sameHost.program]
  exact hpc

/-- Settles O49: a step leaves the trace and `pc` alone, or it runs a command: `pc` was below the program's
length, and each way to build the next state keeps the form of the trace, the field and the widths. -/
theorem traceFormAndPcKept : Obligations.TraceFormAndPcKept := by
  intro s t h
  obtain rfl | ⟨e, rfl⟩ | ⟨hpc, u, hu, rfl⟩ := step_builds h
  · exact ⟨fun ht hp => ⟨ht, hp⟩, fun _ hw => hw, fun _ hw => hw⟩
  · exact ⟨fun ht hp => ⟨ht, hp⟩, fun _ hw => hw, fun _ hw => hw⟩
  · exact ⟨fun ht _ => ⟨hu.traceWf ht, hu.pcInProgram hpc⟩, fun hp hw => hu.wf hp.le hw,
      fun hc hw => hu.cellWidths hc hw⟩

end Sys2Proof.Machine

/-! The constraints a circuit imposes, one by one (R30, R34, R40), and that a step only adds to them: rows,
selectors and copy constraints stay (R31, R34, R62). -/

namespace Sys2Proof.Machine

/-! ## `Extends` along the ways to build -/

section
variable {s t u : State}

theorem Extends.refl (s : State) : Extends s s where
  rows := le_rfl
  cells _ row h := ⟨row, h, rfl, rfl, rfl⟩
  selectors _ _ _ _ h h' hq := Option.some.inj (h.symm.trans h') ▸ hq
  copies := ⟨[], List.append_nil _⟩

/-- `Extends` is a matter of the trace and `Eq`. -/
theorem Extends.congr (h : Extends s t) (htr : u.trace = t.trace) (heq : u.eq = t.eq) :
    Extends s u := by
  obtain ⟨h1, h2, h3, h4⟩ := h
  exact ⟨htr ▸ h1, htr ▸ h2, htr ▸ h3, heq ▸ h4⟩

/-- `SameHost` after a write of anything else. -/
theorem SameHost.congr (h : SameHost s t) (h1 : u.program = t.program)
    (h2 : u.configured = t.configured) (h3 : u.loaded = t.loaded) (h4 : u.inst = t.inst)
    (h5 : u.x = t.x) (h6 : u.y = t.y) (h7 : u.params = t.params) : SameHost s u :=
  ⟨h1.trans h.program, h2.trans h.configured, h3.trans h.loaded, h4.trans h.inst, h5.trans h.x,
    h6.trans h.y, h7.trans h.params⟩

theorem SameHost.refl (s : State) : SameHost s s := Builds.refl.sameHost

theorem pushRow_sameHost (row : TraceRow) (s : State) : SameHost s (s.pushRow row) :=
  (SameHost.refl s).congr rfl rfl rfl rfl rfl rfl rfl

theorem Extends.trans (h : Extends s t) (h' : Extends t u) : Extends s u where
  rows := h.rows.trans h'.rows
  cells r row hr := by
    obtain ⟨row₁, h₁, hf₁, hl₁, hk₁⟩ := h.cells r row hr
    obtain ⟨row₂, h₂, hf₂, hl₂, hk₂⟩ := h'.cells r row₁ h₁
    exact ⟨row₂, h₂, hf₂.trans hf₁, hl₂.trans hl₁, hk₂.trans hk₁⟩
  selectors r row row₂ q hr hr₂ hq := by
    obtain ⟨row₁, h₁, -⟩ := h.cells r row hr
    exact h'.selectors r row₁ row₂ q h₁ hr₂ (h.selectors r row row₁ q hr h₁ hq)
  copies := h.copies.trans h'.copies

theorem Selectors.isSet_enable (q q' : Selector) (f : Selectors) :
    (f.enable q').isSet q = (f.isSet q || decide (q = q')) := by
  cases q <;> cases q' <;> simp [Selectors.enable, Selectors.isSet]

theorem extends_pushRow (row : TraceRow) (s : State) : Extends s (s.pushRow row) where
  rows := by simp
  cells r old h := ⟨old, (pushRow_trace_lt (List.getElem?_eq_some_iff.mp h).1).trans h, rfl, rfl, rfl⟩
  selectors r old new q h h' hq := by
    rw [pushRow_trace_lt (List.getElem?_eq_some_iff.mp h).1, h] at h'
    exact Option.some.inj h' ▸ hq
  copies := ⟨[], List.append_nil _⟩

theorem extends_copyAll (ps : List (Cell × Cell)) (s : State) : Extends s (s.copyAll ps) where
  rows := le_rfl
  cells := (Extends.refl s).cells
  selectors := (Extends.refl s).selectors
  copies := ⟨ps, rfl⟩

/-- A row after a selector is set. -/
theorem sel_trace_some {q : Selector} {r n : Nat} {s : State} {row : TraceRow}
    (h : s.trace[n]? = some row) : (s.sel q r).trace[n]? =
      some (if r = n then { row with sel := row.sel.enable q } else row) := by
  simp only [sel_trace, List.getElem?_modify, h]
  split <;> rfl

theorem extends_sel (q : Selector) (r : Nat) (s : State) : Extends s (s.sel q r) where
  rows := by simp
  cells n row h := ⟨_, sel_trace_some h, by split <;> rfl, by split <;> rfl, by split <;> rfl⟩
  selectors n row row' q' h h' hq := by
    obtain rfl := Option.some.inj ((sel_trace_some h).symm.trans h')
    split
    · rw [Selectors.isSet_enable, hq, Bool.true_or]
    · exact hq
  copies := ⟨[], List.append_nil _⟩

theorem Builds.extends (h : Builds s t) : Extends s t := by
  induction h with
  | refl => exact Extends.refl s
  | push _ _ _ ih => exact ih.trans (extends_pushRow _ _)
  | copyAll _ ps ih => exact ih.trans (extends_copyAll ps _)
  | sel _ q r ih => exact ih.trans (extends_sel q r _)
  | write _ _ _ _ _ _ _ _ ih => exact ih.congr rfl rfl

end

/-! ## Constraints (R40) -/

/-- A copy constraint, a fixed cell with its value, or the gate of a selector on a row. -/
inductive Constraint where
  | copy (c d : Cell)
  | fixed (r a : Nat)
  | gate (q : Selector) (r : Nat)

/-- The constraints of the circuit. -/
inductive Imposes (s : State) : Constraint → Prop
  | copy {c d : Cell} (h : (c, d) ∈ s.eq) : Imposes s (.copy c d)
  | fixed {r a : Nat} {row : TraceRow} (h : s.trace[r]? = some row) (hk : row.k = some a) :
      Imposes s (.fixed r a)
  | gate {q : Selector} {r : Nat} {row : TraceRow} (h : s.trace[r]? = some row)
      (hq : row.sel.isSet q = true) : Imposes s (.gate q r)

/-- A witness meets a constraint. -/
def Meets (s : State) (w : Witness) : Constraint → Prop
  | .copy c d => w c = w d
  | .fixed r a => w (.k r) = a
  | .gate q r => gateHolds s w q r

section
variable {s t : State} {w : Witness} {c : Constraint}

/-- Parts (a), (b) and (c) of R40 say that every constraint is met. -/
theorem satisfies_iff : Satisfies s w ↔
    (∀ c, w c < s.params.fieldP) ∧ ∀ c, Imposes s c → Meets s w c := by
  constructor
  · rintro ⟨hfield, hcopies, hfixed, hgates⟩
    refine ⟨hfield, fun c hc => ?_⟩
    cases hc with
    | copy h => exact hcopies _ h
    | fixed h hk => exact hfixed _ _ _ h hk
    | gate h hq => exact hgates _ _ _ h hq
  · rintro ⟨hfield, h⟩
    exact ⟨hfield, fun q hq => h _ (.copy hq), fun r row a hr hk => h _ (.fixed hr hk),
      fun r row q hr hq => h _ (.gate hr hq)⟩

/-- A constraint is a matter of the field and the tables, which no step writes. -/
theorem SameHost.meets (h : SameHost s t) : Meets t w c ↔ Meets s w c := by
  cases c with
  | copy | fixed => rfl
  | gate q r =>
    cases q <;>
      simp only [Meets, gateHolds, gateDec, gateXor, State.rangeTable, State.xorTable, h.params, h.loaded]

/-- No constraint is ever dropped. -/
theorem Extends.imposes (h : Extends s t) (hc : Imposes s c) : Imposes t c := by
  cases hc with
  | copy hq => exact .copy (h.copies.subset hq)
  | fixed hr hk =>
    obtain ⟨row', hr', -, -, hk'⟩ := h.cells _ _ hr
    exact .fixed hr' (hk'.trans hk)
  | gate hr hq =>
    obtain ⟨row', hr', -⟩ := h.cells _ _ hr
    exact .gate hr' (h.selectors _ _ _ _ hr hr' hq)

/-- A witness of a longer circuit is a witness of the shorter one. -/
theorem Satisfies.of_extends (h : Satisfies t w) (hx : Extends s t) (hh : SameHost s t) :
    Satisfies s w := by
  obtain ⟨hfield, hmeets⟩ := satisfies_iff.mp h
  exact satisfies_iff.mpr ⟨hh.params ▸ hfield, fun c hc => hh.meets.mp (hmeets c (hx.imposes hc))⟩

end

/-- A step keeps what the host sets and only extends the circuit. -/
theorem step_extends {s t : State} (h : step s = .next t) : SameHost s t ∧ Extends s t := by
  obtain rfl | ⟨e, rfl⟩ | ⟨-, u, hu, rfl⟩ := step_builds h
  · exact ⟨SameHost.refl _, Extends.refl _⟩
  · exact ⟨(SameHost.refl s).congr rfl rfl rfl rfl rfl rfl rfl, (Extends.refl s).congr rfl rfl⟩
  · exact ⟨hu.sameHost.congr rfl rfl rfl rfl rfl rfl rfl, hu.extends.congr rfl rfl⟩

/-- Settles O48: a step leaves the circuit alone or builds on it, and a circuit that is built on keeps
every constraint. -/
theorem stepOnlyExtendsTheCircuit : Obligations.StepOnlyExtendsTheCircuit := by
  intro s t h
  obtain ⟨hh, hx⟩ := step_extends h
  exact ⟨hh, hx, fun w hw => hw.of_extends hx hh⟩

end Sys2Proof.Machine

/-! What a command leaves of the rows there are, and what stands behind the binding it publishes (R22, R27,
R62): the frames of all commands. -/

namespace Sys2Proof.Machine

/-! ## Rows that stay -/

/-- Every row stays with its `q_dec` flag, and below row `n` it stays whole: `Sel` sets other selectors,
and on rows from `n` on. -/
def KeepsRows (n : Nat) (s t : State) : Prop :=
  ∀ (r : Nat) (row : TraceRow), s.trace[r]? = some row →
    ∃ row' : TraceRow, t.trace[r]? = some row' ∧ row'.sel.qDec = row.sel.qDec ∧ (r < n → row' = row)

/-- The row of a binding is of its kind and holds its value (R22). -/
def Backed (s : State) (b : Binding) : Prop := BindingRow s b ∧ BindingHolds s b

section
variable {n : Nat} {s t u : State} {b : Binding}

theorem KeepsRows.refl (n : Nat) (s : State) : KeepsRows n s s := fun _ row h => ⟨row, h, rfl, fun _ => rfl⟩

theorem KeepsRows.trans (h : KeepsRows n s t) (h' : KeepsRows n t u) : KeepsRows n s u := by
  intro r row hr
  obtain ⟨row₁, hr₁, hd₁, he₁⟩ := h r row hr
  obtain ⟨row₂, hr₂, hd₂, he₂⟩ := h' r row₁ hr₁
  exact ⟨row₂, hr₂, hd₂.trans hd₁, fun hn => (he₂ hn).trans (he₁ hn)⟩

/-- `KeepsRows` is a matter of the trace. -/
theorem KeepsRows.congr (h : KeepsRows n s t) (htr : u.trace = t.trace) : KeepsRows n s u := by
  unfold KeepsRows
  rw [htr]
  exact h

theorem KeepsRows.push (h : KeepsRows n s t) (row : TraceRow) : KeepsRows n s (t.pushRow row) :=
  h.trans fun _ old ho =>
    ⟨old, (pushRow_trace_lt (List.getElem?_eq_some_iff.mp ho).1).trans ho, rfl, fun _ => rfl⟩

theorem KeepsRows.copyAll (h : KeepsRows n s t) (ps : List (Cell × Cell)) :
    KeepsRows n s (t.copyAll ps) := h.congr rfl

theorem KeepsRows.copy (h : KeepsRows n s t) (c d : Cell) : KeepsRows n s (t.copy c d) := h.congr rfl

theorem KeepsRows.append (rows : List TraceRow) (htr : t.trace = s.trace ++ rows) :
    KeepsRows n s t := fun _ row h =>
  ⟨row, by rw [htr, List.getElem?_append_left (List.getElem?_eq_some_iff.mp h).1, h], rfl, fun _ => rfl⟩

theorem KeepsRows.sel (h : KeepsRows n s t) {q : Selector} {r : Nat} (hq : q ≠ .qDec) (hr : n ≤ r) :
    KeepsRows n s (t.sel q r) := by
  refine h.trans fun m row hm => ⟨_, sel_trace_some hm, ?_, fun hmn => if_neg (by omega)⟩
  split
  · have := Selectors.isSet_enable .qDec q row.sel
    simpa [Selectors.isSet, hq.symm] using this
  · rfl

theorem KeepsRows.getElem (h : KeepsRows n s t) {r : Nat} (hr : r < n) (hl : r < s.trace.length) :
    t.trace[r]? = s.trace[r]? := by
  obtain ⟨row, hs⟩ := Option.isSome_iff_exists.mp (isSome_getElem? s.trace r |>.mpr hl)
  obtain ⟨row', ht, -, he⟩ := h r row hs
  rw [ht, hs, he hr]

/-! ## Bindings whose row is of their kind and holds their value -/

theorem KeepsRows.bindingRow (h : KeepsRows n s t) (hb : BindingRow s b) : BindingRow t b := by
  obtain ⟨row, hr, hk⟩ := hb
  obtain ⟨row', hr', hd, -⟩ := h _ row hr
  exact ⟨row', hr', hd ▸ hk⟩

theorem Extends.bindingHolds (h : Extends s t) (hb : BindingHolds s b) : BindingHolds t b := by
  obtain ⟨row, hr, hf, hl⟩ := hb
  obtain ⟨row', hr', hf', hl', -⟩ := h.cells _ row hr
  exact ⟨row', hr', hf'.trans hf, fun hk => hl'.trans (hl hk)⟩

/-- `Backed` is a matter of the trace. -/
theorem Backed.congr (h : Backed s b) (htr : t.trace = s.trace) : Backed t b := by
  obtain ⟨⟨row, hr, hk⟩, row', hr', hh⟩ := h
  exact ⟨⟨row, htr ▸ hr, hk⟩, row', htr ▸ hr', hh⟩

theorem Backed.copyAll (h : Backed s b) (ps : List (Cell × Cell)) : Backed (s.copyAll ps) b :=
  h.congr rfl

theorem Backed.copy (h : Backed s b) (c d : Cell) : Backed (s.copy c d) b := h.congr rfl

theorem Backed.sel (h : Backed s b) {q : Selector} {r : Nat} (hq : q ≠ .qDec) : Backed (s.sel q r) b :=
  ⟨((KeepsRows.refl 0 s).sel hq (Nat.zero_le r)).bindingRow h.1, (extends_sel q r s).bindingHolds h.2⟩

theorem Backed.of_row {row : TraceRow} (hr : s.trace[b.row]? = some row)
    (hk : row.sel.qDec = true ↔ b.kind = .row) (hf : row.f = some b.val.toNat)
    (hl : b.kind = .row → row.l = leLimbs b.val) : Backed s b :=
  ⟨⟨row, hr, hk⟩, row, hr, hf, hl⟩

/-- A row and a copy constraint keep the form of the trace. -/
theorem pushRow_copy_traceWf (row : TraceRow) (c d : Cell) (hs : s.traceWf = true)
    (room : s.cur < s.params.circuitRows) : ((s.pushRow row).copy c d).traceWf = true :=
  pushRow_traceWf hs room

theorem backed_decRow (hs : s.traceWf = true) (a : Word) :
    Backed (s.pushRow (decRow a)) ⟨a, s.cur, .row⟩ :=
  .of_row (pushRow_trace_cur hs) (iff_of_true rfl rfl) rfl fun _ => rfl

theorem backed_wordRow (hs : s.traceWf = true) (a : Word) :
    Backed (s.pushRow (wordRow a)) ⟨a, s.cur, .word⟩ :=
  .of_row (pushRow_trace_cur hs) (iff_of_false nofun nofun) rfl nofun

theorem backed_fixedRow (hs : s.traceWf = true) (a : Word) :
    Backed (s.pushRow (fixedRow a)) ⟨a, s.cur, .word⟩ :=
  .of_row (pushRow_trace_cur hs) (iff_of_false nofun nofun) rfl nofun

end

/-! ## The word commands -/

/-- Of a word command that completes: only rows from `n` on get a selector, and the binding in `P` is
backed by its row. -/
def Publishes (n : Nat) (s u : State) : Prop := KeepsRows n s u ∧ ∃ b, u.p = some b ∧ Backed u b

section
variable {n : Nat} {s t u : State} {rd : Operand}

theorem KeepsRows.publishes (h : KeepsRows n s t) {b : Binding} (hb : Backed t b) :
    Publishes n s (publish rd b t) :=
  ⟨h.congr (publish_trace ..), b, publish_p .., hb.congr (publish_trace ..)⟩

theorem KeepsRows.trans_publishes (h : KeepsRows n s t) (hu : Publishes n t u) : Publishes n s u :=
  ⟨h.trans hu.1, hu.2⟩

theorem addOnto_publishes {a : Word} {b : Binding} {r : Nat} (hs : s.traceWf = true) (hr : n ≤ r)
    (h : addOnto rd a b r s = .ok u) : Publishes n s u := by
  obtain ⟨room, rfl⟩ := addOnto_ok.mp h
  have hs' := pushRow_copy_traceWf (carryRow b.val (carryOf a b.val)) (.f s.cur) b.cell hs (by omega)
  exact ((((KeepsRows.refl n s).push _).copy _ _).push _ |>.sel (q := .qAdd) (by decide) hr).publishes
    ((backed_decRow hs' _).sel (by decide))

theorem xorOnto_publishes {a : Word} {b : Binding} {r : Nat} (hs : s.traceWf = true) (hr : n ≤ r)
    (h : xorOnto rd a b r s = .ok u) : Publishes n s u := by
  obtain ⟨room, rfl⟩ := xorOnto_ok.mp h
  have hs' := pushRow_copy_traceWf (decRow b.val) (.f s.cur) b.cell hs (by omega)
  exact ((((KeepsRows.refl n s).push _).copy _ _).push _ |>.sel (q := .qXor) (by decide) hr).publishes
    ((backed_decRow hs' _).sel (by decide))

theorem negRows_keepsRows {x : Binding} (hr : n ≤ s.cur) (h : negRows x s = .ok u) :
    KeepsRows n s u := by
  obtain ⟨-, rfl⟩ := negRows_ok.mp h
  exact (((KeepsRows.refl n s).push _).copy _ _).push _ |>.sel (by decide) hr

theorem negRows_backed {x : Binding} (hs : s.traceWf = true) (h : negRows x s = .ok u) :
    Backed u ⟨~~~x.val, s.cur + 1, .word⟩ := by
  obtain ⟨room, rfl⟩ := negRows_ok.mp h
  have hs' := pushRow_copy_traceWf (wordRow x.val) (.f s.cur) x.cell hs (by omega)
  exact (backed_wordRow hs' _).sel (by decide)

/-- A negation writes the trace, `cur` and `Eq` only. -/
theorem negRows_grow {x : Binding} (h : negRows x s = .ok u) : ∃ tr c e, u = s.grow tr c e := by
  obtain ⟨-, rfl⟩ := negRows_ok.mp h
  exact ⟨_, _, _, rfl⟩

theorem decomposedSource_keepsRows {b : Binding} {r : Nat}
    (h : decomposedSource b s = .ok (r, t)) : KeepsRows n s t := by
  obtain ⟨-, h⟩ | ⟨-, -, h⟩ := decomposedSource_ok.mp h <;> cases h
  · exact KeepsRows.refl n s
  · exact ((KeepsRows.refl n s).push _).copy _ _

theorem decomposedSource_traceWf {b : Binding} {r : Nat} (hs : s.traceWf = true)
    (h : decomposedSource b s = .ok (r, t)) : t.traceWf = true := by
  obtain ⟨-, h⟩ | ⟨-, room, h⟩ := decomposedSource_ok.mp h <;> cases h
  · exact hs
  · exact pushRow_traceWf hs room

theorem limbRotBody_publishes {k : Fin 8} {rs1 : Operand} (hs : s.traceWf = true)
    (h : limbRotBody k rd rs1 s = .ok u) : Publishes n s u := by
  obtain ⟨b, r, t, -, ht, -, rfl⟩ := limbRotBody_ok.mp h
  exact (((decomposedSource_keepsRows ht).push _).copyAll _).publishes
    ((backed_decRow (decomposedSource_traceWf hs ht) _).copyAll _)

theorem rot63Source_keepsRows {b : Binding} {r : Nat} (h : rot63Source b s = .ok (r, t)) :
    KeepsRows n s t ∧ s.cur - 1 ≤ r := by
  obtain ⟨-, h⟩ | ⟨-, -, h⟩ := rot63Source_ok.mp h <;> cases h
  · exact ⟨KeepsRows.refl n s, le_rfl⟩
  · exact ⟨((KeepsRows.refl n s).push _).copy _ _, Nat.sub_le ..⟩

theorem rot63Source_traceWf {b : Binding} {r : Nat} (hs : s.traceWf = true)
    (h : rot63Source b s = .ok (r, t)) : t.traceWf = true := by
  obtain ⟨-, h⟩ | ⟨-, room, h⟩ := rot63Source_ok.mp h <;> cases h
  · exact hs
  · exact pushRow_traceWf hs room

theorem rotr63Body_publishes {rs1 : Operand} (hs : s.traceWf = true)
    (h : rotr63Body rd rs1 s = .ok u) : Publishes (s.cur - 1) s u := by
  obtain ⟨b, r, t, -, ht, room, rfl⟩ := rotr63Body_ok.mp h
  obtain ⟨hkeep, hr⟩ := rot63Source_keepsRows ht
  have ht' := pushRow_traceWf (row := highBitRow b.val) (rot63Source_traceWf hs ht) (by omega)
  exact (((hkeep.push _).push _).sel (by decide) hr).publishes ((backed_decRow ht' _).sel (by decide))

/-- A word command sets selectors on no row before `P`'s, `cur − 1`, and its result stands in its row. -/
theorem wordBody_publishes {i : Instr} (hd : i.dest? = some rd) (hs : s.traceWf = true)
    (h : bodyOf i s = .ok u) : Publishes (s.cur - 1) s u := by
  have hle : s.cur - 1 ≤ s.cur := Nat.sub_le ..
  cases i with
  | init | ldblk | vinit | out => cases hd
  | row rd rs1 =>
    obtain ⟨b, -, -, rfl⟩ := rowBody_ok.mp h
    exact (((KeepsRows.refl _ s).push _).copy _ _).publishes ((backed_decRow hs _).copy _ _)
  | add rd rs1 rs2 =>
    obtain ⟨a, b, -, -, h⟩ := addBody_ok.mp h
    have room := (addOnto_ok.mp h).1
    simp only [copy_cur, pushRow_cur, copy_params, pushRow_params] at room
    exact (((KeepsRows.refl _ s).push _).copy _ _).trans_publishes
      (addOnto_publishes (pushRow_copy_traceWf _ _ _ hs (by omega)) hle h)
  | addp rd rs2 =>
    obtain ⟨a, b, -, -, h⟩ := addpBody_ok.mp h
    exact addOnto_publishes hs le_rfl h
  | xor rd rs1 rs2 =>
    obtain ⟨a, b, -, -, h⟩ := xorBody_ok.mp h
    have room := (xorOnto_ok.mp h).1
    simp only [copy_cur, pushRow_cur, copy_params, pushRow_params] at room
    exact (((KeepsRows.refl _ s).push _).copy _ _).trans_publishes
      (xorOnto_publishes (pushRow_copy_traceWf _ _ _ hs (by omega)) hle h)
  | xorp rd rs2 =>
    obtain ⟨a, b, -, -, -, h⟩ := xorpBody_ok.mp h
    exact xorOnto_publishes hs le_rfl h
  | not rd rs1 =>
    obtain ⟨x, t, -, ht, rfl⟩ := notBody_ok.mp h
    exact (negRows_keepsRows hle ht).publishes (negRows_backed hs ht)
  | rotr16 rd rs1 | rotr24 rd rs1 | rotr32 rd rs1 => exact limbRotBody_publishes hs h
  | rotr63 rd rs1 => exact rotr63Body_publishes hs h

end

/-! ## The state after a command -/

/-- An operand is read from `v`, `m`, `h` and `iv` alone. -/
theorem binding_congr {s t : State} (hv : t.v = s.v) (hm : t.m = s.m) (hh : t.h = s.h)
    (hiv : t.iv = s.iv) (o : Operand) : t.binding o = s.binding o := by
  cases o <;> simp only [State.binding, hv, hm, hh, hiv]

/-- What a command that completes keeps of what the host sets and of the circuit, `pc` advanced. -/
theorem bodyOf_extends {i : Instr} {s u : State} (h : bodyOf i s = .ok u) :
    SameHost s { u with pc := u.pc + 1 } ∧ Extends s { u with pc := u.pc + 1 } :=
  ⟨(bodyOf_builds h).sameHost.congr rfl rfl rfl rfl rfl rfl rfl, (bodyOf_builds h).extends.congr rfl rfl⟩

theorem raiseFault_extends (e : Fault) (s : State) :
    SameHost s (raiseFault e s) ∧ Extends s (raiseFault e s) :=
  ⟨(SameHost.refl s).congr rfl rfl rfl rfl rfl rfl rfl, (Extends.refl s).congr rfl rfl⟩

/-- Settles O45: the result is one `publish` over longer rows and copy constraints (`wordBody_ok`), and
`wordBody_publishes` says where selectors were set. -/
theorem wordCommandsFrame : Obligations.WordCommandsFrame := by
  intro i rd s t hd hs h
  obtain ⟨e, rfl⟩ | ⟨-, -, -, u, hu, rfl⟩ := exec_next h
  · obtain ⟨hh, hx⟩ := raiseFault_extends e s
    exact ⟨fun o _ => raiseFault_binding e s o, rfl, rfl, hh, hx, fun _ _ => rfl, .inr ⟨e, rfl⟩⟩
  · obtain ⟨hh, hx⟩ := bodyOf_extends hu
    obtain ⟨hkeep, -⟩ := wordBody_publishes hd hs hu
    obtain ⟨b, tr, c, e, rfl, -⟩ := wordBody_ok hd hu
    have hbind : ∀ o, ({ publish rd b (s.grow tr c e) with
        pc := (publish rd b (s.grow tr c e)).pc + 1 } : State).binding o =
        ((s.grow tr c e).bind rd b).binding o := fun o =>
      (binding_congr rfl rfl rfl rfl o).trans (publish_binding rd o b _)
    refine ⟨fun o ho => ?_, by simp, by simp, hh, hx, fun r hr => ?_, .inl ⟨?_, by simp⟩⟩
    · rw [hbind, binding_bind_of_ne _ _ _ _ ho, grow_binding]
    · have hlen := ((traceWf_iff s).mp hs).1
      exact hkeep.getElem (by omega) (by omega)
    · rw [hbind, binding_bind_self, publish_p]

/-- Settles O46: both only append rows, after which they write the operands and `Z` their rules name. -/
theorem initAndLdblkFrame : Obligations.InitAndLdblkFrame := by
  refine fun s t => ⟨fun h => ?_, fun blk h => ?_⟩
  · obtain ⟨e, rfl⟩ | ⟨-, -, -, u, hu, rfl⟩ := exec_next h
    · obtain ⟨hh, hx⟩ := raiseFault_extends e s
      exact ⟨rfl, rfl, hh, hx, fun _ _ => rfl⟩
    · obtain ⟨hh, hx⟩ := bodyOf_extends hu
      obtain ⟨-, -, -, -, -, rfl⟩ := initBody_ok.mp hu
      exact ⟨rfl, rfl, hh, hx, fun r hr => List.getElem?_append_left hr⟩
  · obtain ⟨e, rfl⟩ | ⟨-, -, -, u, hu, rfl⟩ := exec_next h
    · obtain ⟨hh, hx⟩ := raiseFault_extends e s
      exact ⟨rfl, rfl, rfl, rfl, hh, hx, fun _ _ => rfl⟩
    · obtain ⟨hh, hx⟩ := bodyOf_extends hu
      obtain ⟨-, -, -, -, rfl⟩ := ldblkBody_ok.mp hu
      exact ⟨rfl, rfl, rfl, rfl, hh, hx, fun r hr => List.getElem?_append_left hr⟩

/-! ## VINIT and OUT -/

/-- VINIT writes `v` and `P`, and sets `q_not` on a row of its own. -/
theorem vinitBody_frame {b : Nat} {s u : State} (h : vinitBody b s = .ok u) :
    u.m = s.m ∧ u.h = s.h ∧ u.iv = s.iv ∧ u.z = s.z ∧ u.gadget = s.gadget ∧ KeepsRows s.cur s u := by
  obtain ⟨-, -, -, x, f, t, -, -, ht, rfl⟩ := vinitBody_ok.mp h
  have hk := ((KeepsRows.refl s.cur s).push (fixedRow (counterWord s b))).copy (.f s.cur) (.k s.cur)
  obtain ⟨-, w, hw, ht⟩ | ⟨-, ht⟩ := finalWord_ok.mp ht <;> cases ht
  · have hneg := hk.trans (negRows_keepsRows (Nat.le_succ s.cur) hw)
    obtain ⟨tr, c, e, rfl⟩ := negRows_grow hw
    exact ⟨rfl, rfl, rfl, rfl, rfl, hneg.congr rfl⟩
  · exact ⟨rfl, rfl, rfl, rfl, rfl, hk.congr rfl⟩

/-- `b'` is a decomposed copy of `b`, tied to it (R124). -/
structure Copied (s : State) (b b' : Binding) : Prop where
  val : b'.val = b.val
  kind : b'.kind = .row
  backed : Backed s b'
  tied : (.f b'.row, b.cell) ∈ s.eq

theorem Copied.mono {s t : State} {b b' : Binding} (h : Copied s b b') (hx : Extends s t)
    (hk : KeepsRows 0 s t) : Copied t b b' :=
  ⟨h.val, h.kind, ⟨hk.bindingRow h.backed.1, hx.bindingHolds h.backed.2⟩, hx.copies.subset h.tied⟩

/-- The decomposition of OUT writes `h` and the circuit. -/
theorem decomposeH_frame {js : List (Fin 8)} {s u : State} (h : decomposeH js s = .ok u) :
    (∃ tr c e hs, u = { s.grow tr c e with h := hs }) ∧ ∀ n, KeepsRows n s u := by
  induction js generalizing s with
  | nil => cases h; exact ⟨⟨_, _, _, _, rfl⟩, fun n => KeepsRows.refl n _⟩
  | cons j js ih =>
    obtain ⟨b, -, ⟨-, h⟩ | ⟨-, -, h⟩⟩ := decomposeH_cons_ok.mp h
    · exact ih h
    · obtain ⟨⟨tr, c, e, hs, rfl⟩, hk⟩ := ih h
      exact ⟨⟨tr, c, e, hs, rfl⟩, fun n =>
        ((((KeepsRows.refl n s).push _).copy _ _).congr (bind_trace ..)).trans (hk n)⟩

/-- Of the operands, the decomposition of OUT replaces words of kind `Word` by decomposed copies, and leaves
every word it goes over of kind `Row`. -/
theorem decomposeH_binding {js : List (Fin 8)} {s u : State} (hs : s.traceWf = true)
    (h : decomposeH js s = .ok u) :
    (∀ o, u.binding o = s.binding o ∨ ∃ b b', s.binding o = some b ∧ b.kind = .word ∧
      u.binding o = some b' ∧ Copied u b b') ∧
    ∀ j ∈ js, ∃ b, u.h[j] = some b ∧ b.kind = .row := by
  induction js generalizing s with
  | nil => cases h; exact ⟨fun _ => .inl rfl, nofun⟩
  | cons j js ih =>
    obtain ⟨b, hb, ⟨hrow, h⟩ | ⟨hword, room, h⟩⟩ := decomposeH_cons_ok.mp h
    · obtain ⟨hbind, hrows⟩ := ih hs h
      refine ⟨hbind, List.forall_mem_cons.mpr ⟨?_, hrows⟩⟩
      obtain he | ⟨c, -, hc, hk, -⟩ := hbind (.h j)
      · exact ⟨b, he.trans hb, hrow⟩
      · obtain rfl := Option.some.inj (hb.symm.trans hc)
        exact nomatch hrow.symm.trans hk
    · have hs' := pushRow_copy_traceWf (decRow b.val) (.f s.cur) b.cell hs room
      obtain ⟨hbind, hrows⟩ := ih ((bind_traceWf ..).trans hs') h
      have hcopied : Copied u b ⟨b.val, s.cur, .row⟩ := by
        refine Copied.mono ⟨rfl, rfl, ((backed_decRow hs b.val).copy _ _).congr (bind_trace ..), ?_⟩
          (Builds.refl.decomposeH h).extends ((decomposeH_frame h).2 0)
        rw [bind_eq, copy_eq]
        exact List.mem_append_right _ (List.mem_singleton_self _)
      have hj : u.binding (.h j) = some ⟨b.val, s.cur, .row⟩ := by
        obtain he | ⟨c, -, hc, hk, -⟩ := hbind (.h j)
        · exact he.trans (binding_bind_self ..)
        · obtain rfl := Option.some.inj ((binding_bind_self ..).symm.trans hc)
          cases hk
      refine ⟨fun o => ?_, List.forall_mem_cons.mpr ⟨⟨_, hj, rfl⟩, hrows⟩⟩
      by_cases ho : o = .h j
      · subst ho
        exact .inr ⟨b, _, hb, hword, hj, hcopied⟩
      · have := hbind o
        rwa [binding_bind_of_ne _ _ _ _ ho, copy_binding, pushRow_binding] at this

/-- Settles O47: both set selectors on no row there was, and OUT rebinds `h` to rows of the same values. -/
theorem vinitAndOutFrame : Obligations.VinitAndOutFrame := by
  refine fun s t hs => ⟨fun blk h => ?_, fun h => ?_⟩
  · obtain ⟨e, rfl⟩ | ⟨-, -, -, u, hu, rfl⟩ := exec_next h
    · obtain ⟨hh, hx⟩ := raiseFault_extends e s
      exact ⟨rfl, rfl, rfl, rfl, rfl, hh, hx, fun _ _ => rfl⟩
    · obtain ⟨hh, hx⟩ := bodyOf_extends hu
      obtain ⟨hm, hh', hiv, hz, hg, hk⟩ := vinitBody_frame hu
      have hlen := ((traceWf_iff s).mp hs).1
      exact ⟨hm, hh', hiv, hz, hg, hh, hx, fun r hr => hk.getElem (by omega) hr⟩
  · obtain ⟨e, rfl⟩ | ⟨-, -, -, u, hu, rfl⟩ := exec_next h
    · obtain ⟨hh, hx⟩ := raiseFault_extends e s
      exact ⟨rfl, rfl, rfl, rfl, fun _ => rfl, hh, hx, fun _ _ => rfl⟩
    · obtain ⟨hh, hx⟩ := bodyOf_extends hu
      obtain ⟨-, w, hw, rfl⟩ := outBody_ok.mp hu
      have hval : ∀ j : Fin 8, w.h[j].map Binding.val = s.h[j].map Binding.val := fun j => by
        obtain he | ⟨b, b', hb, -, hb', hc⟩ := (decomposeH_binding hs hw).1 (.h j)
        · exact congrArg _ he
        · rw [show w.h[j] = _ from hb', show s.h[j] = _ from hb]
          exact congrArg some hc.val
      obtain ⟨⟨tr, c, e, hs, rfl⟩, hk⟩ := decomposeH_frame hw
      exact ⟨rfl, rfl, rfl, rfl, hval, hh, hx,
        fun r hr => (hk (r + 1)).getElem (Nat.lt_succ_self r) hr⟩

end Sys2Proof.Machine

/-! Every binding a command leaves is one it found or one whose row it emitted. So what a step keeps of all
bindings is a matter of the new ones: their rows are of their kind (R22, R27) and hold their values
(R22, R63, R220). -/

namespace Sys2Proof.Machine

/-! ## A step, up to `pc` and the fault mark -/

/-- A state with another `pc` and fault mark. -/
def State.mark (n : Nat) (f : Option Fault) (s : State) : State := { s with pc := n, fault := f }

theorem mark_binding (n : Nat) (f : Option Fault) (s : State) (o : Operand) :
    (s.mark n f).binding o = s.binding o := binding_congr rfl rfl rfl rfl o

theorem mark_sameHost (n : Nat) (f : Option Fault) (s : State) : SameHost s (s.mark n f) :=
  (SameHost.refl s).congr rfl rfl rfl rfl rfl rfl rfl

theorem mark_extends (n : Nat) (f : Option Fault) (s : State) : Extends s (s.mark n f) :=
  (Extends.refl s).congr rfl rfl

theorem mark_backed {n : Nat} {f : Option Fault} {s : State} {b : Binding} :
    Backed (s.mark n f) b ↔ Backed s b := ⟨fun h => h.congr rfl, fun h => h.congr rfl⟩

/-- A step changes `pc` and the fault mark only, or it completes a legal command that the machine accepts. -/
theorem step_mark {s t : State} (h : step s = .next t) :
    (∃ n f, t = s.mark n f) ∨ ∃ i u n f, i.wf = true ∧ s.loaded = true ∧ acceptsOf i s.gadget = true ∧
      bodyOf i s = .ok u ∧ t = u.mark n f := by
  obtain ⟨-, rfl⟩ | ⟨w, -, ⟨e, -, rfl⟩ | ⟨i, -, hi⟩⟩ := step_next h
  · exact .inl ⟨_, _, rfl⟩
  · exact .inl ⟨_, _, rfl⟩
  · obtain ⟨e, rfl⟩ | ⟨hwf, hl, ha, u, hu, rfl⟩ := exec_next hi
    · exact .inl ⟨_, _, rfl⟩
    · exact .inr ⟨i, u, _, _, hwf, hl, ha, hu, rfl⟩

/-! ## All bindings of a state -/

/-- Every binding an operand or `P` holds. -/
def AllBindings (Q : Binding → Prop) (s : State) : Prop :=
  (∀ o b, s.binding o = some b → Q b) ∧ ∀ b, s.p = some b → Q b

section
variable {Q Q' : Binding → Prop} {s t u : State}

theorem AllBindings.imp (h : AllBindings Q s) (hq : ∀ b, Q b → Q' b) : AllBindings Q' s :=
  ⟨fun o b hb => hq b (h.1 o b hb), fun b hb => hq b (h.2 b hb)⟩

theorem allBindings_mark {n : Nat} {f : Option Fault} : AllBindings Q (s.mark n f) ↔ AllBindings Q s := by
  unfold AllBindings
  simp only [mark_binding]
  rfl

/-- A word command adds the binding it publishes. -/
theorem AllBindings.word {i : Instr} {rd : Operand} {b : Binding} (h : AllBindings Q s)
    (hd : i.dest? = some rd) (hu : bodyOf i s = .ok u) (hb : u.p = some b) (hq : Q b) :
    AllBindings Q u := by
  obtain ⟨b', tr, c, e, rfl, -⟩ := wordBody_ok hd hu
  obtain rfl : b' = b := Option.some.inj ((publish_p ..).symm.trans hb)
  refine ⟨fun o c hc => ?_, fun c hc => ?_⟩
  · rw [publish_binding, binding_bind, grow_binding] at hc
    split at hc
    · exact Option.some.inj hc ▸ hq
    · exact h.1 o c hc
  · exact Option.some.inj (hb.symm.trans hc) ▸ hq

/-- INIT adds the IV constants and the parameter word. -/
theorem AllBindings.init (h : AllBindings Q s) (hu : initBody s = .ok u)
    (hiv : ∀ i : Fin 8, Q ⟨ivWord i, s.cur + i.val, .word⟩)
    (hp : Q ⟨paramWord s.keyLen s.params.outLen, s.cur + 8, .word⟩) : AllBindings Q u := by
  obtain ⟨-, -, -, -, -, rfl⟩ := initBody_ok.mp hu
  refine ⟨fun o b hb => ?_, nofun⟩
  cases o with
  | v i => exact h.1 (.v i) b (show s.v[i] = some b from hb)
  | m i => exact h.1 (.m i) b (show s.m[i] = some b from hb)
  | h i =>
    simp only [State.binding, hBindings, Fin.getElem_fin, Vector.getElem_ofFn] at hb
    split at hb
    · exact Option.some.inj hb ▸ hp
    · exact Option.some.inj hb ▸ hiv i
  | iv i =>
    simp only [State.binding, ivBindings, Fin.getElem_fin, Vector.getElem_ofFn, Option.some.injEq] at hb
    exact hb ▸ hiv i

/-- LDBLK adds the message words. -/
theorem AllBindings.ldblk {n : Nat} (h : AllBindings Q s) (hu : ldblkBody n s = .ok u)
    (hm : ∀ j : Fin 16, Q ⟨messageWord s.params.fieldP (s.messageByte n j), s.cur + j.val, .row⟩) :
    AllBindings Q u := by
  obtain ⟨-, -, -, -, rfl⟩ := ldblkBody_ok.mp hu
  refine ⟨fun o b hb => ?_, nofun⟩
  cases o with
  | v i => exact h.1 (.v i) b (show s.v[i] = some b from hb)
  | m i =>
    simp only [State.binding, messageBindings, Fin.getElem_fin, Vector.getElem_ofFn, Option.some.injEq] at hb
    exact hb ▸ hm i
  | h i => exact h.1 (.h i) b (show s.h[i] = some b from hb)
  | iv i => exact h.1 (.iv i) b (show s.iv[i] = some b from hb)

/-- Each of `v0`–`v15` after VINIT is a word of `h` or `iv`, or one of the two that VINIT makes (R225). -/
theorem vectorBindings_getElem (s : State) (c f : Option Binding) : ∀ i : Fin 16,
    (∃ j : Fin 8, (vectorBindings s c f)[i] = s.h[j]) ∨
    (∃ j : Fin 8, (vectorBindings s c f)[i] = s.iv[j]) ∨
    (vectorBindings s c f)[i] = c ∨ (vectorBindings s c f)[i] = f := by
  intro i
  fin_cases i
  exacts [.inl ⟨0, rfl⟩, .inl ⟨1, rfl⟩, .inl ⟨2, rfl⟩, .inl ⟨3, rfl⟩, .inl ⟨4, rfl⟩, .inl ⟨5, rfl⟩,
    .inl ⟨6, rfl⟩, .inl ⟨7, rfl⟩, .inr (.inl ⟨0, rfl⟩), .inr (.inl ⟨1, rfl⟩), .inr (.inl ⟨2, rfl⟩),
    .inr (.inl ⟨3, rfl⟩), .inr (.inr (.inl rfl)), .inr (.inl ⟨5, rfl⟩), .inr (.inr (.inr rfl)),
    .inr (.inl ⟨7, rfl⟩)]

/-- The vector VINIT writes. -/
theorem vinitBody_vector {n : Nat} (hu : vinitBody n s = .ok u) : ∃ x f, s.iv[6] = some x ∧
    u.v = vectorBindings s (some ⟨counterWord s n, s.cur, .word⟩) (some f) ∧ u.p = none ∧
    (f = x ∨ isFinalBlock s.params.inputLen s.keyLen n = true ∧ f = ⟨~~~x.val, s.cur + 2, .word⟩) := by
  obtain ⟨-, -, -, x, f, t, hx, -, ht, rfl⟩ := vinitBody_ok.mp hu
  refine ⟨x, f, hx, rfl, rfl, ?_⟩
  obtain ⟨hlast, w, -, ht⟩ | ⟨-, ht⟩ := finalWord_ok.mp ht <;> cases ht
  · exact .inr ⟨hlast, rfl⟩
  · exact .inl rfl

/-- VINIT adds the counter's constant and, for the final block, the complement of `iv6`. -/
theorem AllBindings.vinit {n : Nat} (h : AllBindings Q s) (hu : vinitBody n s = .ok u)
    (hc : Q ⟨counterWord s n, s.cur, .word⟩)
    (hf : ∀ x, s.iv[6] = some x → isFinalBlock s.params.inputLen s.keyLen n = true →
      Q ⟨~~~x.val, s.cur + 2, .word⟩) : AllBindings Q u := by
  obtain ⟨hm, hh, hiv, -⟩ := vinitBody_frame hu
  obtain ⟨x, f, hx, hv, hp, hfx⟩ := vinitBody_vector hu
  have hqf : Q f := by
    obtain rfl | ⟨hlast, rfl⟩ := hfx
    · exact h.1 (.iv 6) f hx
    · exact hf x hx hlast
  refine ⟨fun o b hb => ?_, fun b hb => nomatch hp.symm.trans hb⟩
  cases o with
  | v i =>
    simp only [State.binding, hv] at hb
    obtain ⟨j, he⟩ | ⟨j, he⟩ | he | he := vectorBindings_getElem s _ (some f) i
    · exact h.1 (.h j) b (he.symm.trans hb)
    · exact h.1 (.iv j) b (he.symm.trans hb)
    · exact Option.some.inj (he.symm.trans hb) ▸ hc
    · exact Option.some.inj (he.symm.trans hb) ▸ hqf
  | m i => exact h.1 (.m i) b (by simpa only [State.binding, hm] using hb)
  | h i => exact h.1 (.h i) b (by simpa only [State.binding, hh] using hb)
  | iv i => exact h.1 (.iv i) b (by simpa only [State.binding, hiv] using hb)

/-- OUT replaces words by decomposed copies. -/
theorem AllBindings.out (h : AllBindings Q s) (hs : s.traceWf = true) (hu : outBody s = .ok u)
    (hq : ∀ o b b', s.binding o = some b → Copied u b b' → Q b') : AllBindings Q u := by
  obtain ⟨-, w, hw, rfl⟩ := outBody_ok.mp hu
  refine ⟨fun o b hb => ?_, nofun⟩
  have hb' : w.binding o = some b := (binding_congr rfl rfl rfl rfl o).trans hb
  obtain he | ⟨a, b', ha, -, hb'', hc⟩ := (decomposeH_binding hs hw).1 o
  · exact h.1 o b (he.symm.trans hb')
  · obtain rfl := Option.some.inj (hb'.symm.trans hb'')
    exact hq o a b ha (hc.mono ((extends_copyAll (digestCopies w) w).congr rfl rfl)
      ((KeepsRows.refl 0 w).congr rfl))

end

/-! ## The rows of the new bindings -/

section
variable {s u : State}

/-- The row of constant `n`. -/
theorem afterConsts_row {as : List Word} {n : Nat} {a : Word} (hs : s.traceWf = true)
    (ha : as[n]? = some a) : (afterConsts as s).trace[s.cur + n]? = some (fixedRow a) := by
  show (s.trace ++ as.map fixedRow)[s.cur + n]? = _
  rw [((traceWf_iff s).mp hs).1, List.getElem?_append_right (Nat.le_add_right ..)]
  simp [ha]

theorem afterConsts_backed {as : List Word} {n : Nat} {a : Word} (hs : s.traceWf = true)
    (ha : as[n]? = some a) : Backed (afterConsts as s) ⟨a, s.cur + n, .word⟩ :=
  .of_row (afterConsts_row hs ha) (iff_of_false nofun nofun) rfl nofun

theorem initConstants_iv (kk nn : Nat) (i : Fin 8) : (initConstants kk nn)[i.val]? = some (ivWord i) := by
  fin_cases i <;> rfl

/-- LDBLK appends the row of message word `j` as row `cur + j`. -/
theorem ldblkBody_row {n : Nat} (hs : s.traceWf = true) (hu : ldblkBody n s = .ok u) (j : Fin 16) :
    u.trace[s.cur + j.val]? = some (messageRow s n j) := by
  obtain ⟨-, -, -, -, hu⟩ := ldblkBody_ok.mp hu
  have htr : u.trace = s.trace ++ (List.finRange 16).map (messageRow s n) := by rw [hu]; rfl
  simp [htr, ((traceWf_iff s).mp hs).1]

/-- The bytes of a little-endian sum (R63). -/
theorem byteAt_limbSum {l : Fin 8 → Nat} (h : ∀ i, l i < 256) (i : Fin 8) :
    (byteAt (BitVec.ofNat 64 (limbSum l)) i).toNat = l i := by
  have hsum := limbSum_lt h
  have := h 0; have := h 1; have := h 2; have := h 3
  have := h 4; have := h 5; have := h 6; have := h 7
  rw [byteAt_toNat, BitVec.toNat_ofNat, Nat.mod_eq_of_lt hsum]
  simp only [limbSum]
  fin_cases i <;> simp only [Fin.reduceFinMk, Nat.reducePow] <;> omega

/-- A message row whose limbs are Bytes holds its word (R218). -/
theorem messageRow_holds {n r : Nat} {j : Fin 16} (hr : u.trace[r]? = some (messageRow s n j))
    (hb : ∀ i, s.messageByte n j i < 256) :
    BindingHolds u ⟨messageWord s.params.fieldP (s.messageByte n j), r, .row⟩ := by
  refine ⟨_, hr, ?_, fun _ => ?_⟩
  · simp only [messageRow, messageFelt_of_bytes hb, messageWord_of_bytes hb, BitVec.toNat_ofNat,
      Nat.mod_eq_of_lt (limbSum_lt hb)]
  · simp only [messageRow, leLimbs, messageWord_of_bytes hb, byteAt_limbSum hb]

/-- The two bindings VINIT makes are backed by its rows. -/
theorem vinitBody_backed {n : Nat} (hs : s.traceWf = true) (hu : vinitBody n s = .ok u) :
    Backed u ⟨counterWord s n, s.cur, .word⟩ ∧
    ∀ x, s.iv[6] = some x → isFinalBlock s.params.inputLen s.keyLen n = true →
      Backed u ⟨~~~x.val, s.cur + 2, .word⟩ := by
  obtain ⟨-, -, -, x, f, t, hx, room, ht, rfl⟩ := vinitBody_ok.mp hu
  have hc := (backed_fixedRow hs (counterWord s n)).copy (.f s.cur) (.k s.cur)
  have hs' := pushRow_copy_traceWf (fixedRow (counterWord s n)) (.f s.cur) (.k s.cur) hs room
  obtain ⟨-, w, hw, ht⟩ | ⟨hlast, ht⟩ := finalWord_ok.mp ht <;> cases ht
  · refine ⟨.congr ⟨(negRows_keepsRows le_rfl hw).bindingRow hc.1,
      (Builds.refl.negRows hw).extends.bindingHolds hc.2⟩ rfl, fun y hy _ => ?_⟩
    obtain rfl := Option.some.inj (hx.symm.trans hy)
    exact (negRows_backed hs' hw).congr rfl
  · exact ⟨hc.congr rfl, fun _ _ h => nomatch hlast.symm.trans h⟩

/-- What a command that completes keeps of all bindings: a property that old bindings keep and that
follows from `Backed`, but for the message words, of which LDBLK has to show it. -/
theorem bodyOf_allBindings {Q : State → Binding → Prop} {i : Instr} (hs : s.traceWf = true)
    (hu : bodyOf i s = .ok u) (hQ : AllBindings (Q s) s) (hkeep : ∀ b, Q s b → Q u b)
    (hnew : ∀ b, Backed u b → Q u b)
    (hmsg : ∀ blk, i = .ldblk blk → ∀ j : Fin 16,
      Q u ⟨messageWord s.params.fieldP (s.messageByte blk.toNat j), s.cur + j.val, .row⟩) :
    AllBindings (Q u) u := by
  have hold := hQ.imp hkeep
  cases i with
  | init =>
    have ⟨_, _, _, _, _, hu'⟩ := initBody_ok.mp hu
    refine hold.init hu (fun i => hnew _ ?_) (hnew _ ?_) <;> subst hu'
    · exact (afterConsts_backed hs (initConstants_iv _ _ i)).congr rfl
    · exact (afterConsts_backed (n := 8) hs rfl).congr rfl
  | ldblk blk => exact hold.ldblk hu (hmsg blk rfl)
  | vinit blk =>
    obtain ⟨hc, hf⟩ := vinitBody_backed hs hu
    exact hold.vinit hu (hnew _ hc) fun x hx hlast => hnew _ (hf x hx hlast)
  | out => exact hold.out hs hu fun _ _ _ _ hc => hnew _ hc.backed
  | row rd | add rd | addp rd | xor rd | xorp rd | not rd | rotr16 rd | rotr24 rd | rotr32 rd
  | rotr63 rd =>
    obtain ⟨-, b, hb, hbacked⟩ := wordBody_publishes (rd := rd) rfl hs hu
    exact hold.word (rd := rd) rfl hu hb (hnew b hbacked)

end

/-- No command clears or sets `q_dec` on a row there is. -/
theorem bodyOf_keepsRows {i : Instr} {s u : State} (hs : s.traceWf = true) (hu : bodyOf i s = .ok u) :
    KeepsRows 0 s u := by
  cases i with
  | init => obtain ⟨-, -, -, -, -, rfl⟩ := initBody_ok.mp hu; exact .append _ rfl
  | ldblk blk => obtain ⟨-, -, -, -, rfl⟩ := ldblkBody_ok.mp hu; exact .append _ rfl
  | vinit blk =>
    obtain ⟨-, -, -, -, -, hk⟩ := vinitBody_frame hu
    exact fun r row hr => (hk r row hr).imp fun _ h => ⟨h.1, h.2.1, nofun⟩
  | out =>
    obtain ⟨-, w, hw, rfl⟩ := outBody_ok.mp hu
    exact ((decomposeH_frame hw).2 0).congr rfl
  | row rd | add rd | addp rd | xor rd | xorp rd | not rd | rotr16 rd | rotr24 rd | rotr32 rd
  | rotr63 rd =>
    exact fun r row hr =>
      ((wordBody_publishes (rd := rd) rfl hs hu).1 r row hr).imp fun _ h => ⟨h.1, h.2.1, nofun⟩

/-- Only a word command leaves a binding in `P`, and it stands on the last row (R27). -/
theorem bodyOf_p_row {i : Instr} {s u : State} (hu : bodyOf i s = .ok u) :
    ∀ b, u.p = some b → b.row + 1 = u.cur := by
  cases i with
  | init => obtain ⟨-, -, -, -, -, rfl⟩ := initBody_ok.mp hu; exact nofun
  | ldblk blk => obtain ⟨-, -, -, -, rfl⟩ := ldblkBody_ok.mp hu; exact nofun
  | vinit blk =>
    obtain ⟨-, -, -, -, hp, -⟩ := vinitBody_vector hu
    exact fun b hb => nomatch hp.symm.trans hb
  | out => obtain ⟨-, w, -, rfl⟩ := outBody_ok.mp hu; exact nofun
  | row rd | add rd | addp rd | xor rd | xorp rd | not rd | rotr16 rd | rotr24 rd | rotr32 rd
  | rotr63 rd =>
    obtain ⟨b, tr, c, e, rfl, hrow, -⟩ := wordBody_ok (rd := rd) rfl hu
    intro b' hb'
    obtain rfl := Option.some.inj ((publish_p ..).symm.trans hb')
    rw [publish_cur, grow_cur, hrow]

/-! ## Kinds, rows and values -/

theorem bindingRows_iff {s : State} : BindingRows s ↔
    AllBindings (BindingRow s) s ∧ ∀ b, s.p = some b → b.row + 1 = s.cur :=
  ⟨fun ⟨h, hp⟩ => ⟨⟨h, fun b hb => (hp b hb).1⟩, fun b hb => (hp b hb).2⟩,
    fun ⟨⟨h, hp⟩, hr⟩ => ⟨h, fun b hb => ⟨hp b hb, hr b hb⟩⟩⟩

theorem bindingRows_mark {n : Nat} {f : Option Fault} {s : State} :
    BindingRows (s.mark n f) ↔ BindingRows s := by
  simp only [bindingRows_iff, allBindings_mark]
  rfl

theorem bodyOf_bindingRows {i : Instr} {s u : State} (hs : s.traceWf = true) (hb : BindingRows s)
    (hu : bodyOf i s = .ok u) : BindingRows u := by
  refine bindingRows_iff.mpr ⟨?_, bodyOf_p_row hu⟩
  refine bodyOf_allBindings (Q := BindingRow) hs hu (bindingRows_iff.mp hb).1
    (fun b h => (bodyOf_keepsRows hs hu).bindingRow h) (fun b h => h.1) fun blk hi j => ?_
  subst hi
  exact ⟨_, ldblkBody_row hs hu j, iff_of_true rfl rfl⟩

/-- Settles O50: rows keep their `q_dec`, and every new binding is backed by a row of its kind. -/
theorem bindingRowsKept : Obligations.BindingRowsKept := by
  intro s t hs hb h
  obtain ⟨n, f, rfl⟩ | ⟨i, u, n, f, -, -, -, hu, rfl⟩ := step_mark h
  · exact bindingRows_mark.mpr hb
  · exact bindingRows_mark.mpr (bodyOf_bindingRows hs hb hu)

theorem bindingValues_iff {s : State} : BindingValues s ↔ AllBindings (BindingHolds s) s := Iff.rfl

theorem bindingValues_mark {n : Nat} {f : Option Fault} {s : State} :
    BindingValues (s.mark n f) ↔ BindingValues s := by
  simp only [bindingValues_iff, allBindings_mark]
  rfl

theorem blockInRange_messageByte {s : State} {n : Nat} (h : blockInRange s n = true) (j : Fin 16)
    (i : Fin 8) : s.messageByte n j i < 256 :=
  blockInRange_iff.mp h _ (by omega)

theorem bodyOf_bindingValues {i : Instr} {s u : State} (hs : s.traceWf = true)
    (hc : s.params.hostRangeCheck = true) (hb : BindingValues s) (hu : bodyOf i s = .ok u) :
    BindingValues u := by
  refine bodyOf_allBindings (Q := BindingHolds) hs hu hb
    (fun b h => (bodyOf_builds hu).extends.bindingHolds h) (fun b h => h.2) fun blk hi j => ?_
  subst hi
  obtain ⟨-, -, hbytes, -⟩ := ldblkBody_ok.mp hu
  exact messageRow_holds (ldblkBody_row hs hu j) (blockInRange_messageByte (hbytes hc) j)

/-- Settles O51: cells keep their contents, and every new binding is backed by a row that holds its value,
the message words because the host has checked their Bytes. -/
theorem bindingValuesKept : Obligations.BindingValuesKept := by
  intro s t hs hc hb h
  obtain ⟨n, f, rfl⟩ | ⟨i, u, n, f, -, -, -, hu, rfl⟩ := step_mark h
  · exact bindingValues_mark.mpr hb
  · exact bindingValues_mark.mpr (bodyOf_bindingValues hs hc hb hu)

end Sys2Proof.Machine

/-! Faults: which a command's own rule can raise once its checks pass (R278), that a full trace is one of
them (R31, R319), and that none has another effect (R42, R271). -/

namespace Sys2Proof.Machine

/-! ## Faults have no other effect -/

theorem Builds.fault_eq {s t : State} (h : Builds s t) : t.fault = s.fault := by
  induction h with
  | refl => rfl
  | push _ _ _ ih | copyAll _ _ ih | sel _ _ _ ih | write _ _ _ _ _ _ _ _ ih => exact ih

/-- Settles O7: a command that completes leaves the fault mark alone, so a step that records a fault is
`raiseFault`. -/
theorem faultsArePreciseAndFinal : Obligations.FaultsArePreciseAndFinal := by
  refine ⟨fun s t hs h ht => ?_, fun s hs => step_of_fault hs, fun is s hs => runInstrs_of_fault hs,
    fun is js s t h => ⟨fun ht => ?_, fun _ => runInstrs_append h⟩⟩
  · obtain rfl | he | ⟨-, u, hu, rfl⟩ := step_builds h
    · exact absurd hs ht
    · exact he
    · exact absurd (hu.fault_eq.trans hs) ht
  · rw [runInstrs_append h, runInstrs_of_fault ht]

/-- Settles O8: `exec_next` gives the two ends of a command, and its own rule moves neither `pc` nor the
fault mark. -/
theorem commandsAdvanceOrFault : Obligations.CommandsAdvanceOrFault := by
  intro i s
  obtain ⟨t, ht⟩ := exec_total i s
  refine ⟨t, ht, ?_⟩
  obtain he | ⟨-, -, -, u, hu, rfl⟩ := exec_next ht
  · exact .inr he
  · have hb := bodyOf_builds hu
    exact .inl ⟨congrArg (· + 1) hb.pc_eq, hb.fault_eq⟩

/-! ## Unbound sources -/

section
variable {s : State} {o : Operand} {f : Binding → Except Fault State}

theorem readOperand_bind_unbound (h : s.binding o = none) :
    (s.readOperand o >>= f) = .error .unboundOperand := by
  rw [readOperand_none h]
  rfl

/-- A second source is read whatever the first one holds. -/
theorem readOperand_bind_error (h : ∀ b, f b = .error .unboundOperand) :
    (s.readOperand o >>= f) = .error .unboundOperand := by
  cases hb : s.binding o with
  | none => exact readOperand_bind_unbound hb
  | some b =>
    rw [readOperand_ok.mpr hb]
    exact h b

end

/-- The sources are read before `P` and before any row is emitted (R278). -/
theorem bodyOf_unbound {i : Instr} {s : State} {o : Operand} (ho : o ∈ i.sources)
    (h : s.binding o = none) : bodyOf i s = .error .unboundOperand := by
  cases i with
  | init | ldblk | vinit | out => cases ho
  | row rd rs | not rd rs | rotr16 rd rs | rotr24 rd rs | rotr32 rd rs | rotr63 rd rs | addp rd rs
  | xorp rd rs =>
    obtain rfl := List.mem_singleton.mp ho
    exact readOperand_bind_unbound h
  | add rd rs1 rs2 | xor rd rs1 rs2 =>
    obtain rfl | ho := List.mem_cons.mp ho
    · exact readOperand_bind_unbound h
    · obtain rfl := List.mem_singleton.mp ho
      exact readOperand_bind_error fun _ => readOperand_bind_unbound h

theorem acceptsOf_of_sources {i : Instr} {o : Operand} (ho : o ∈ i.sources) :
    acceptsOf i = acceptsWord := by
  cases i with
  | init | ldblk | vinit | out => cases ho
  | _ => rfl

/-- A legal command that the machine accepts, whose own rule raises a fault. -/
theorem exec_error {i : Instr} {s : State} {e : Fault} (hwf : i.wf = true) (hl : s.loaded = true)
    (ha : acceptsOf i s.gadget = true) (h : bodyOf i s = .error e) : exec i s = .next (raiseFault e s) := by
  rw [exec_eq_command]
  exact command_error hwf hl ha h

/-- A legal command that the machine accepts, whose own rule completes. -/
theorem exec_ok {i : Instr} {s u : State} (hwf : i.wf = true) (hl : s.loaded = true)
    (ha : acceptsOf i s.gadget = true) (h : bodyOf i s = .ok u) :
    exec i s = .next { u with pc := u.pc + 1 } := by
  rw [exec_eq_command]
  exact command_ok hwf hl ha h

/-- A fault that a legal command records is `SequenceViolation`, or its own rule has raised it. -/
theorem exec_fault {i : Instr} {s t : State} {c : Fault} (hwf : i.wf = true) (hs : s.fault = none)
    (h : exec i s = .next t) (hc : t.fault = some c) :
    c = .sequenceViolation ∨ s.loaded = true ∧ acceptsOf i s.gadget = true ∧ bodyOf i s = .error c := by
  by_cases hready : s.loaded = true ∧ acceptsOf i s.gadget = true
  · obtain ⟨hl, ha⟩ := hready
    cases hb : bodyOf i s with
    | ok u =>
      obtain rfl := Host.Outcome.next.inj ((exec_ok hwf hl ha hb).symm.trans h)
      exact nomatch hc.symm.trans ((bodyOf_builds hb).fault_eq.trans hs)
    | error e =>
      obtain rfl := Host.Outcome.next.inj ((exec_error hwf hl ha hb).symm.trans h)
      exact .inr ⟨hl, ha, congrArg Except.error (Option.some.inj hc)⟩
  · rw [not_and_or, Bool.not_eq_true, Bool.not_eq_true] at hready
    rw [exec_eq_command, command_sequence hwf hready] at h
    obtain rfl := Host.Outcome.next.inj h
    exact .inl (Option.some.inj hc).symm

/-- Settles O12: a source is read before anything else the command does. -/
theorem unboundSourcesFault : Obligations.UnboundSourcesFault := by
  intro i s o hwf ⟨hl, ha⟩ ho h
  exact exec_error hwf hl (acceptsOf_of_sources ho ▸ ha) (bodyOf_unbound ho h)

/-! ## A full trace is the last fault a command can raise -/

/-- The only fault left is that of a full trace. -/
def OnlyFull {α : Type} (x : Except Fault α) : Prop := ∀ e, x = .error e → e = .internalInvariant

section
variable {α β : Type} {s : State}

theorem onlyFull_ok (a : α) : OnlyFull (.ok a) := nofun

theorem OnlyFull.of_ok {x : Except Fault α} {a : α} (h : x = .ok a) : OnlyFull x := h ▸ onlyFull_ok a

theorem OnlyFull.bind {x : Except Fault α} {f : α → Except Fault β} (hx : OnlyFull x)
    (hf : ∀ a, x = .ok a → OnlyFull (f a)) : OnlyFull (x >>= f) := by
  cases x with
  | ok a => exact hf a rfl
  | error e => exact fun e' he => hx e' (congrArg Except.error (Except.error.inj he))

theorem onlyFull_require {c : Bool} {e : Fault} (h : c = true) : OnlyFull (require c e) :=
  .of_ok (require_of_true e h)

theorem onlyFull_read {o : Operand} (h : s.binding o ≠ none) : OnlyFull (s.readOperand o) := by
  obtain ⟨b, hb⟩ := Option.ne_none_iff_exists'.mp h
  exact .of_ok (readOperand_ok.mpr hb)

theorem onlyFull_requireBound {os : List Operand} (h : ∀ o ∈ os, s.binding o ≠ none) :
    OnlyFull (requireBound os s) :=
  .of_ok (requireBound_ok.mpr fun o ho => Option.ne_none_iff_exists'.mp (h o ho)) (a := ())

theorem onlyFull_emitRow (row : TraceRow) (s : State) : OnlyFull (emitRow row s) := by
  intro e he
  by_cases h : s.cur < s.params.circuitRows
  · rw [emitRow_ok.mpr ⟨h, rfl⟩] at he
    cases he
  · rw [emitRow_full h] at he
    cases he
    rfl

theorem onlyFull_matRow (a : Word) (c : Cell) (s : State) : OnlyFull (matRow a c s) :=
  (onlyFull_emitRow _ s).bind fun _ _ => onlyFull_ok _

theorem onlyFull_copyWordRow (a : Word) (c : Cell) (s : State) : OnlyFull (copyWordRow a c s) :=
  (onlyFull_emitRow _ s).bind fun _ _ => onlyFull_ok _

theorem onlyFull_constRow (a : Word) (s : State) : OnlyFull (constRow a s) :=
  (onlyFull_emitRow _ s).bind fun _ _ => onlyFull_ok _

theorem onlyFull_constRows (as : List Word) (s : State) : OnlyFull (constRows as s) := by
  induction as generalizing s with
  | nil => exact onlyFull_ok s
  | cons a as ih => exact (onlyFull_constRow a s).bind fun t _ => ih t

theorem onlyFull_messageRows (b : Nat) (js : List (Fin 16)) (t : State) :
    OnlyFull (messageRows s b js t) := by
  induction js generalizing t with
  | nil => exact onlyFull_ok t
  | cons j js ih => exact (onlyFull_emitRow _ t).bind fun u _ => ih _

theorem onlyFull_addOnto (rd : Operand) (a : Word) (b : Binding) (r : Nat) (s : State) :
    OnlyFull (addOnto rd a b r s) :=
  OnlyFull.bind ((onlyFull_emitRow _ s).bind fun _ _ => onlyFull_ok _) fun _ _ =>
    (onlyFull_emitRow _ _).bind fun _ _ => onlyFull_ok _

theorem onlyFull_xorOnto (rd : Operand) (a : Word) (b : Binding) (r : Nat) (s : State) :
    OnlyFull (xorOnto rd a b r s) :=
  (onlyFull_matRow _ _ s).bind fun _ _ => (onlyFull_emitRow _ _).bind fun _ _ => onlyFull_ok _

theorem onlyFull_negRows (x : Binding) (s : State) : OnlyFull (negRows x s) :=
  (onlyFull_copyWordRow _ _ s).bind fun _ _ => (onlyFull_emitRow _ _).bind fun _ _ => onlyFull_ok _

theorem onlyFull_decomposedSource (b : Binding) (s : State) : OnlyFull (decomposedSource b s) := by
  unfold decomposedSource
  cases b.kind with
  | row => exact onlyFull_ok _
  | word => exact (onlyFull_matRow _ _ s).bind fun _ _ => onlyFull_ok _

theorem onlyFull_rot63Source (b : Binding) (s : State) : OnlyFull (rot63Source b s) := by
  unfold rot63Source
  split
  · exact onlyFull_ok _
  · exact (onlyFull_copyWordRow _ _ s).bind fun _ _ => onlyFull_ok _

theorem onlyFull_finalWord (n : Nat) (x : Binding) (s : State) : OnlyFull (finalWord n x s) := by
  unfold finalWord
  split
  · exact (onlyFull_negRows x s).bind fun _ _ => onlyFull_ok _
  · exact onlyFull_ok _

theorem onlyFull_limbRotBody {k : Fin 8} {rd rs1 : Operand} (h : s.binding rs1 ≠ none) :
    OnlyFull (limbRotBody k rd rs1 s) :=
  (onlyFull_read h).bind fun b _ => (onlyFull_decomposedSource b s).bind fun _ _ =>
    (onlyFull_emitRow _ _).bind fun _ _ => onlyFull_ok _

theorem onlyFull_rotr63Body {rd rs1 : Operand} (h : s.binding rs1 ≠ none) :
    OnlyFull (rotr63Body rd rs1 s) :=
  (onlyFull_read h).bind fun b _ => (onlyFull_rot63Source b s).bind fun _ _ =>
    (onlyFull_emitRow _ _).bind fun _ _ => (onlyFull_emitRow _ _).bind fun _ _ => onlyFull_ok _

theorem onlyFull_decomposeH {js : List (Fin 8)} (h : ∀ j : Fin 8, s.h[j] ≠ none) :
    OnlyFull (decomposeH js s) := by
  induction js generalizing s with
  | nil => exact onlyFull_ok s
  | cons j js ih =>
    refine (onlyFull_read (o := .h j) (h j)).bind fun b _ => ?_
    cases b.kind with
    | row => exact ih h
    | word =>
      refine (onlyFull_matRow _ _ s).bind fun t ht => ih fun i => ?_
      obtain ⟨-, rfl⟩ := matRow_ok.mp ht
      show ((((s.pushRow _).copy _ _).bind (.h j) _).binding (.h i)) ≠ none
      rw [binding_bind]
      split
      · exact nofun
      · exact h i

end

theorem forall_mem_hOperands {s : State} (h : ∀ j : Fin 8, s.h[j] ≠ none) :
    ∀ o ∈ hOperands, s.binding o ≠ none := by
  simp only [hOperands, List.forall_mem_cons, List.not_mem_nil, State.binding]
  exact ⟨h 0, h 1, h 2, h 3, h 4, h 5, h 6, h 7, nofun⟩

theorem forall_mem_vinitIvOperands {s : State} (h : ∀ j : Fin 8, s.iv[j] ≠ none) :
    ∀ o ∈ vinitIvOperands, s.binding o ≠ none := by
  simp only [vinitIvOperands, List.forall_mem_cons, List.not_mem_nil, State.binding]
  exact ⟨h 0, h 1, h 2, h 3, h 5, h 7, nofun⟩

/-- Once its checks pass, the only fault a command can raise is that of a full trace (R278). -/
theorem bodyOf_onlyFull {i : Instr} {s : State} (h : ChecksPass i s) : OnlyFull (bodyOf i s) := by
  cases i with
  | init =>
    obtain ⟨h1, h2, h3, h4, h5⟩ := h
    exact (onlyFull_require (by simp [h1, h2])).bind fun _ _ =>
      (onlyFull_require (by simp [h3])).bind fun _ _ => (onlyFull_require (by simp [h4])).bind fun _ _ =>
      (onlyFull_require (by simp [h5])).bind fun _ _ => (onlyFull_constRows _ s).bind fun _ _ => onlyFull_ok _
  | ldblk blk =>
    obtain ⟨h1, h2, h3⟩ := h
    have hc : (!s.params.hostRangeCheck || blockInRange s blk.toNat) = true := by
      cases hh : s.params.hostRangeCheck
      · rfl
      · exact blockInRange_iff.mpr (h3 hh)
    exact (onlyFull_require (by simp [h1])).bind fun _ _ => (onlyFull_require h2).bind fun _ _ =>
      (onlyFull_require hc).bind fun _ _ => (onlyFull_messageRows _ _ s).bind fun _ _ => onlyFull_ok _
  | vinit blk =>
    obtain ⟨h1, h2, h3⟩ := h
    exact (onlyFull_require (by simp [h1])).bind fun _ _ =>
      (onlyFull_requireBound (forall_mem_hOperands h2)).bind fun _ _ =>
      (onlyFull_requireBound (forall_mem_vinitIvOperands h3)).bind fun _ _ =>
      (onlyFull_read (o := .iv 6) (h3 6)).bind fun _ _ => (onlyFull_constRow _ s).bind fun _ _ =>
      (onlyFull_finalWord _ _ _).bind fun _ _ => onlyFull_ok _
  | out =>
    exact (onlyFull_requireBound (forall_mem_hOperands h)).bind fun _ _ =>
      (onlyFull_decomposeH h).bind fun _ _ => onlyFull_ok _
  | row rd rs1 =>
    exact (onlyFull_read h).bind fun _ _ => (onlyFull_matRow _ _ s).bind fun _ _ => onlyFull_ok _
  | add rd rs1 rs2 =>
    exact (onlyFull_read h.1).bind fun _ _ => (onlyFull_read h.2).bind fun _ _ =>
      (onlyFull_copyWordRow _ _ s).bind fun _ _ => onlyFull_addOnto _ _ _ _ _
  | addp rd rs2 =>
    obtain ⟨h2, hp⟩ := h
    obtain ⟨a, ha⟩ := Option.ne_none_iff_exists'.mp hp
    refine (onlyFull_read h2).bind fun b _ => ?_
    simp only [ha]
    exact onlyFull_addOnto _ _ _ _ _
  | xor rd rs1 rs2 =>
    exact (onlyFull_read h.1).bind fun _ _ => (onlyFull_read h.2).bind fun _ _ =>
      (onlyFull_matRow _ _ s).bind fun _ _ => onlyFull_xorOnto _ _ _ _ _
  | xorp rd rs2 =>
    obtain ⟨h2, a, ha, hk⟩ := h
    refine (onlyFull_read h2).bind fun b _ => ?_
    simp only [ha, hk]
    exact onlyFull_xorOnto _ _ _ _ _
  | not rd rs1 =>
    exact (onlyFull_read h).bind fun _ _ => (onlyFull_negRows _ s).bind fun _ _ => onlyFull_ok _
  | rotr16 rd rs1 | rotr24 rd rs1 | rotr32 rd rs1 => exact onlyFull_limbRotBody h
  | rotr63 rd rs1 => exact onlyFull_rotr63Body h

/-! ## The rows a command emits (R318) -/

/-- The trace grows only where there is room. -/
theorem Builds.room {s t : State} (h : Builds s t) :
    s.cur ≤ t.cur ∧ (s.cur < t.cur → t.cur ≤ t.params.circuitRows) := by
  induction h with
  | refl => exact ⟨le_rfl, fun h => absurd h (lt_irrefl _)⟩
  | push _ room _ ih => exact ⟨ih.1.trans (Nat.le_succ _), fun _ => room⟩
  | copyAll _ _ ih | sel _ _ _ ih | write _ _ _ _ _ _ _ _ ih => exact ih

theorem addOnto_cur {rd : Operand} {a : Word} {b : Binding} {r : Nat} {s u : State}
    (h : addOnto rd a b r s = .ok u) : u.cur = s.cur + 2 := by
  obtain ⟨-, rfl⟩ := addOnto_ok.mp h
  simp

theorem xorOnto_cur {rd : Operand} {a : Word} {b : Binding} {r : Nat} {s u : State}
    (h : xorOnto rd a b r s = .ok u) : u.cur = s.cur + 2 := by
  obtain ⟨-, rfl⟩ := xorOnto_ok.mp h
  simp

theorem negRows_cur {x : Binding} {s u : State} (h : negRows x s = .ok u) : u.cur = s.cur + 2 := by
  obtain ⟨-, rfl⟩ := negRows_ok.mp h
  simp

theorem limbRotBody_cur {k : Fin 8} {rd rs1 : Operand} {s u : State}
    (h : limbRotBody k rd rs1 s = .ok u) :
    u.cur = s.cur + if (s.binding rs1).any (fun b => b.kind == .word) then 2 else 1 := by
  obtain ⟨b, r, t, hb, ht, -, rfl⟩ := limbRotBody_ok.mp h
  obtain ⟨hk, ht⟩ | ⟨hk, -, ht⟩ := decomposedSource_ok.mp ht <;> cases ht <;> simp [hb, hk]

theorem rotr63Body_cur {rd rs1 : Operand} {s u : State} (h : rotr63Body rd rs1 s = .ok u) :
    u.cur = s.cur + if s.p.any (fun q => (s.binding rs1).any fun b => q.cell == b.cell) then 2 else 3 := by
  obtain ⟨b, r, t, hb, ht, -, rfl⟩ := rotr63Body_ok.mp h
  obtain ⟨⟨a, ha, hr⟩, ht⟩ | ⟨hne, -, ht⟩ := rot63Source_ok.mp ht <;> cases ht
  · simp [hb, ha, Binding.cell, hr]
  · cases hp : s.p with
    | none => simp
    | some a => simp [hb, Binding.cell, hne a hp]

/-- OUT emits one row for each word of kind `Word` it goes over. -/
theorem decomposeH_cur {js : List (Fin 8)} {s u : State} (hjs : js.Nodup)
    (h : decomposeH js s = .ok u) :
    u.cur = s.cur + js.countP fun j => s.h[j].any fun b => b.kind == .word := by
  induction js generalizing s with
  | nil => cases h; rfl
  | cons j js ih =>
    obtain ⟨hj, hjs⟩ := List.nodup_cons.mp hjs
    obtain ⟨b, hb, ⟨hk, h⟩ | ⟨hk, -, h⟩⟩ := decomposeH_cons_ok.mp h
    · rw [ih hjs h, List.countP_cons_of_neg (by simp [hb, hk])]
    · rw [ih hjs h, List.countP_cons_of_pos (by simp [hb, hk])]
      have hcount : ∀ i ∈ js, ((((s.pushRow (decRow b.val)).copy (.f s.cur) b.cell).bind (.h j)
          ⟨b.val, s.cur, .row⟩).h[i].any fun b => b.kind == .word) =
          s.h[i].any fun b => b.kind == .word := fun i hi =>
        congrArg (Option.any _) (binding_bind_of_ne (.h j) (.h i) _
          ((s.pushRow (decRow b.val)).copy (.f s.cur) b.cell) fun e => hj (Operand.h.inj e ▸ hi))
      rw [List.countP_congr fun i hi => by rw [hcount i hi], bind_cur, copy_cur, pushRow_cur]
      omega

/-- A command that completes emits the rows of R318. -/
theorem bodyOf_cur {i : Instr} {s u : State} (h : bodyOf i s = .ok u) : u.cur = s.cur + rowCost i s := by
  cases i with
  | init => obtain ⟨-, -, -, -, -, rfl⟩ := initBody_ok.mp h; rfl
  | ldblk blk => obtain ⟨-, -, -, -, rfl⟩ := ldblkBody_ok.mp h; rfl
  | vinit blk =>
    obtain ⟨-, -, -, x, f, t, -, -, ht, rfl⟩ := vinitBody_ok.mp h
    obtain ⟨hlast, w, hw, ht⟩ | ⟨hlast, ht⟩ := finalWord_ok.mp ht <;> cases ht
    · have hlast' : isFinalBlock s.params.inputLen s.keyLen blk.toNat = true := hlast
      simp [rowCost, hlast', negRows_cur hw]
    · have hlast' : isFinalBlock s.params.inputLen s.keyLen blk.toNat = false := hlast
      simp [rowCost, hlast']
  | out =>
    obtain ⟨-, w, hw, rfl⟩ := outBody_ok.mp h
    exact (decomposeH_cur (List.nodup_finRange 8) hw :)
  | row rd rs1 => obtain ⟨b, -, -, rfl⟩ := rowBody_ok.mp h; simp [rowCost]
  | add rd rs1 rs2 => obtain ⟨a, b, -, -, h⟩ := addBody_ok.mp h; simp [rowCost, addOnto_cur h]
  | addp rd rs2 => obtain ⟨a, b, -, -, h⟩ := addpBody_ok.mp h; exact addOnto_cur h
  | xor rd rs1 rs2 => obtain ⟨a, b, -, -, h⟩ := xorBody_ok.mp h; simp [rowCost, xorOnto_cur h]
  | xorp rd rs2 => obtain ⟨a, b, -, -, -, h⟩ := xorpBody_ok.mp h; exact xorOnto_cur h
  | not rd rs1 => obtain ⟨x, t, -, ht, rfl⟩ := notBody_ok.mp h; simp [rowCost, negRows_cur ht]
  | rotr16 rd rs1 | rotr24 rd rs1 | rotr32 rd rs1 => exact limbRotBody_cur h
  | rotr63 rd rs1 => exact rotr63Body_cur h

/-- The permission table and the model's own accept the same commands (R280). -/
theorem isSome_permission (i : Instr) (g : GadgetState) : (permission i g).isSome = acceptsOf i g := by
  cases i <;> cases g <;> rfl

/-- Settles O16: the command cannot complete, since `bodyOf_cur` rows do not fit, and once its checks pass
no other fault is left (`bodyOf_onlyFull`). -/
theorem fullTraceFaults : Obligations.FullTraceFaults := by
  intro i s hwf hl hperm hchecks hcost hfull
  have ha := isSome_permission i s.gadget ▸ Option.isSome_iff_ne_none.mpr hperm
  cases h : bodyOf i s with
  | ok u =>
    have hcur := bodyOf_cur h
    have hroom := (bodyOf_builds h).room.2 (by omega)
    rw [(bodyOf_builds h).sameHost.params] at hroom
    omega
  | error e =>
    obtain rfl := bodyOf_onlyFull hchecks e h
    exact exec_error hwf hl ha h

end Sys2Proof.Machine

/-! The gadget state tells what is bound (R24, R37, R45, R211, R212, R218), and so VINIT and OUT find their
operands bound (R226, R248). -/

namespace Sys2Proof.Machine

/-! ## What a command needs of the gadget state, and which it leaves (R280) -/

theorem acceptsLdblk_iff {g : GadgetState} :
    acceptsLdblk g = true ↔ g = .constantsLoaded ∨ g = .processingBlock := by
  cases g <;> decide

theorem acceptsVinit_iff {g : GadgetState} : acceptsVinit g = true ↔ g = .processingBlock := by
  cases g <;> decide

theorem acceptsOut_iff {g : GadgetState} : acceptsOut g = true ↔ g = .processingBlock := by
  cases g <;> decide

theorem acceptsOf_ne_finalized {i : Instr} {g : GadgetState} (h : acceptsOf i g = true) :
    g ≠ .finalized := by
  rintro rfl
  cases i <;> cases h

/-! ## The invariant -/

section
variable {s u : State}

theorem SameHost.keyLen (h : SameHost s u) : u.keyLen = s.keyLen := congrArg List.length h.y

theorem SameHost.blockCount (h : SameHost s u) : u.blockCount = s.blockCount := by
  unfold State.blockCount
  rw [h.keyLen, h.params]

theorem gadgetInv_mark {n : Nat} {f : Option Fault} : GadgetInv (s.mark n f) ↔ GadgetInv s := by
  constructor <;> rintro ⟨h1, h2, h3, h4, h5, h6, h7⟩
  · exact ⟨fun hg => ⟨fun o => mark_binding n f s o ▸ (h1 hg).1 o, (h1 hg).2⟩, h2, h3, h4, h5, h6, h7⟩
  · exact ⟨fun hg => ⟨fun o => (mark_binding n f s o).trans ((h1 hg).1 o), (h1 hg).2⟩, h2, h3, h4, h5, h6, h7⟩

/-- After INIT, a command that keeps `iv`, `Z` and what is bound of `h` and `m` keeps the invariant. -/
theorem GadgetInv.keep (h : GadgetInv s) (hs : s.gadget ≠ .uninitialized) (hu : Builds s u)
    (hg : u.gadget ≠ .uninitialized) (hiv : u.iv = s.iv) (hz : u.z = s.z)
    (hh : ∀ i : Fin 8, s.h[i].isSome = true → u.h[i].isSome = true)
    (hm : u.gadget = .processingBlock ∨ u.gadget = .finalized → ∀ i : Fin 16, u.m[i].isSome = true) :
    GadgetInv u where
  before h0 := absurd h0 hg
  loaded _ := hu.sameHost.loaded.trans (h.loaded hs)
  sizes _ := by
    rw [hu.sameHost.keyLen, hu.sameHost.blockCount, hu.sameHost.params, hu.sameHost.x]
    exact h.sizes hs
  iv _ := hiv ▸ h.iv hs
  h _ i := hh i (h.h hs i)
  z _ := by
    obtain ⟨r, row, hr, hrow, hf⟩ := h.z hs
    obtain ⟨row', hrow', hf', -⟩ := hu.extends.cells r row hrow
    exact ⟨r, row', hz.trans hr, hrow', hf'.trans hf⟩
  m := hm

/-- INIT establishes the invariant. -/
theorem initBody_gadgetInv (hs : s.traceWf = true) (hl : s.loaded = true) (hu : initBody s = .ok u) :
    GadgetInv u := by
  have hz := afterConsts_backed (as := initConstants s.keyLen s.params.outLen) (n := 9) hs rfl
  obtain ⟨⟨h1, h1'⟩, h2, h3, h4, -, rfl⟩ := initBody_ok.mp hu
  obtain ⟨-, row, hrow, hf, -⟩ := hz
  refine ⟨nofun, fun _ => hl, fun _ => ⟨h1, h1', h2, h3, h4⟩, fun _ i => ⟨s.cur + i.val, ?_⟩,
    fun _ i => ?_, fun _ => ⟨_, row, rfl, hrow, hf⟩, nofun⟩
  · simp [ivBindings]
  · simp only [hBindings, Fin.getElem_fin, Vector.getElem_ofFn]
    split <;> rfl

/-- A word command leaves bound what is bound. -/
theorem wordBody_isSome {i : Instr} {rd : Operand} (hd : i.dest? = some rd) (hu : bodyOf i s = .ok u)
    {o : Operand} (ho : (s.binding o).isSome = true) : (u.binding o).isSome = true := by
  obtain ⟨b, tr, c, e, rfl, -⟩ := wordBody_ok hd hu
  rw [publish_binding, binding_bind]
  split
  · rfl
  · exact ho

theorem wordBody_gadgetInv {i : Instr} {rd : Operand} (hd : i.dest? = some rd) (hw : rd.writable = true)
    (h : GadgetInv s) (ha : acceptsWord s.gadget = true) (hu : bodyOf i s = .ok u) : GadgetInv u := by
  have hs : s.gadget ≠ .uninitialized := fun e => by rw [e] at ha; cases ha
  obtain ⟨b, tr, c, e, he, -⟩ := wordBody_ok hd hu
  have hg : u.gadget = s.gadget := by rw [he, publish_gadget, grow_gadget]
  refine h.keep hs (bodyOf_builds hu) (hg ▸ hs) ?_ (by rw [he, publish_z, grow_z])
    (fun j hj => wordBody_isSome hd hu (o := .h j) hj)
    (fun hgu j => wordBody_isSome hd hu (o := .m j) (h.m (hg ▸ hgu) j))
  rw [he]
  exact bind_iv_of_writable rd b (s.grow tr c e) hw

/-- The invariant that a command starts from holds when it completes. -/
theorem bodyOf_gadgetInv {i : Instr} (hs : s.traceWf = true) (h : GadgetInv s) (hwf : i.wf = true)
    (hl : s.loaded = true) (ha : acceptsOf i s.gadget = true) (hu : bodyOf i s = .ok u) : GadgetInv u := by
  have hb := bodyOf_builds hu
  cases i with
  | init => exact initBody_gadgetInv hs hl hu
  | ldblk blk =>
    have hg : s.gadget ≠ .uninitialized := by
      obtain e | e := acceptsLdblk_iff.mp ha <;> rw [e] <;> nofun
    obtain ⟨-, -, -, -, rfl⟩ := ldblkBody_ok.mp hu
    exact h.keep hg hb nofun rfl rfl (fun _ h => h) fun _ j => by simp [messageBindings]
  | vinit blk =>
    have hg := acceptsVinit_iff.mp ha
    obtain ⟨hm, hh, hiv, hz, hgu, -⟩ := vinitBody_frame hu
    exact h.keep (by rw [hg]; nofun) hb (by rw [hgu, hg]; nofun) hiv hz (fun _ => hh ▸ id)
      fun _ => hm ▸ h.m (.inl hg)
  | out =>
    have hg := acceptsOut_iff.mp ha
    obtain ⟨-, w, hw, rfl⟩ := outBody_ok.mp hu
    have hbound : ∀ j : Fin 8, w.h[j].isSome = true := fun j => by
      obtain ⟨b, hb, -⟩ := (decomposeH_binding hs hw).2 j (List.mem_finRange j)
      exact Option.isSome_of_eq_some hb
    obtain ⟨⟨tr, c, e, hs', rfl⟩, -⟩ := decomposeH_frame hw
    exact h.keep (by rw [hg]; nofun) hb nofun rfl rfl (fun j _ => hbound j) fun _ => h.m (.inl hg)
  | row rd | add rd | addp rd | xor rd | xorp rd | not rd | rotr16 rd | rotr24 rd | rotr32 rd
  | rotr63 rd => exact wordBody_gadgetInv (rd := rd) rfl hwf h ha hu

/-- VINIT and OUT of a state between INIT and OUT raise no `UnboundOperand`: their operands are bound. -/
theorem bodyOf_ne_unbound {i : Instr} (h : GadgetInv s) (hs : s.gadget ≠ .uninitialized)
    (hi : i = .out ∨ ∃ blk, i = .vinit blk) : bodyOf i s ≠ .error .unboundOperand := by
  have hh : ∀ j : Fin 8, s.h[j] ≠ none := fun j => Option.isSome_iff_ne_none.mp (h.h hs j)
  intro he
  obtain rfl | ⟨blk, rfl⟩ := hi
  · cases bodyOf_onlyFull (i := .out) hh _ he
  · by_cases hb : blk.toNat < s.blockCount
    · have hiv : ∀ j : Fin 8, s.iv[j] ≠ none := fun j => by
        obtain ⟨r, hr⟩ := h.iv hs j
        exact fun e => nomatch hr.symm.trans e
      cases bodyOf_onlyFull (i := .vinit blk) ⟨hb, hh, hiv⟩ _ he
    · simp only [bodyOf, vinitBody, hb, decide_false, require_of_false] at he
      cases he

end

/-- Settles O52: INIT establishes the invariant and every other command keeps it; with `h` and `iv` bound,
VINIT and OUT pass their checks of the operands. -/
theorem gadgetStateInvariantKept : Obligations.GadgetStateInvariantKept := by
  refine ⟨fun s t hs h ht => ?_, fun s t i h hf hi ht => ?_⟩
  · obtain ⟨n, f, rfl⟩ | ⟨i, u, n, f, hwf, hl, ha, hu, rfl⟩ := step_mark ht
    · exact gadgetInv_mark.mpr h
    · exact gadgetInv_mark.mpr (bodyOf_gadgetInv hs h hwf hl ha hu)
  · have hwf : i.wf = true := by obtain rfl | ⟨blk, rfl⟩ := hi <;> rfl
    intro he
    obtain hc | ⟨-, ha, hb⟩ := exec_fault hwf hf ht he
    · cases hc
    · refine bodyOf_ne_unbound h (fun e => ?_) hi hb
      rw [e] at ha
      obtain rfl | ⟨blk, rfl⟩ := hi <;> cases ha

end Sys2Proof.Machine

/-! The gates on Words: each gate ties its result to the operation of its command, in both directions (R121,
R126, R143, R145, R163, R166, R182, R185, R190, R192, R202, R204). -/

namespace Sys2Proof.Machine

/-! ## The tables (R66, R67) -/

section
variable {s : State} {a b c : Nat}

theorem lt_of_mem_rangeTable (h : a ∈ s.rangeTable) : a < 256 := by
  unfold State.rangeTable at h
  split at h
  · exact List.mem_range.mp h
  · cases h

theorem mem_rangeTable (hl : s.loaded = true) (h : a < 256) : a ∈ s.rangeTable := by
  rw [State.rangeTable, if_pos hl]
  exact List.mem_range.mpr h

theorem xor_of_mem_xorTable (h : (a, b, c) ∈ s.xorTable) : c = a ^^^ b := by
  unfold State.xorTable at h
  split at h
  · obtain ⟨n, -, he⟩ := List.mem_map.mp h
    cases he
    rfl
  · cases h

theorem mem_xorTable (hl : s.loaded = true) (ha : a < 256) (hb : b < 256) :
    (a, b, a ^^^ b) ∈ s.xorTable := by
  rw [State.xorTable, if_pos hl]
  refine List.mem_map.mpr ⟨256 * a + b, List.mem_range.mpr (by omega), ?_⟩
  rw [show (256 * a + b) / 256 = a by omega, show (256 * a + b) % 256 = b by omega]

end

/-! ## Words by their limbs -/

/-- The exclusive or of two numbers by their last bytes. -/
theorem xor_add_mul_256 {x y : Nat} (hx : x < 256) (hy : y < 256) (m n : Nat) :
    (x + 256 * m) ^^^ (y + 256 * n) = (x ^^^ y) + 256 * (m ^^^ n) := by
  have hxy : x ^^^ y < 2 ^ 8 := Nat.xor_lt_two_pow hx hy
  refine Nat.eq_of_testBit_eq fun i => ?_
  rw [Nat.testBit_xor, Nat.add_comm x, Nat.add_comm y, Nat.add_comm (x ^^^ y)]
  simp only [show 256 = 2 ^ 8 from rfl, Nat.testBit_two_pow_mul_add _ (show x < 2 ^ 8 from hx),
    Nat.testBit_two_pow_mul_add _ (show y < 2 ^ 8 from hy), Nat.testBit_two_pow_mul_add _ hxy]
  split <;> rw [Nat.testBit_xor]

theorem limbSum_eq_nested (l : Fin 8 → Nat) : limbSum l = l 0 + 256 * (l 1 + 256 * (l 2 + 256 * (l 3 +
    256 * (l 4 + 256 * (l 5 + 256 * (l 6 + 256 * l 7)))))) := by
  simp only [limbSum]
  ring

/-- R162 on the limbs. -/
theorem limbSum_xor {l l' : Fin 8 → Nat} (h : ∀ i, l i < 256) (h' : ∀ i, l' i < 256) :
    limbSum (fun i => l i ^^^ l' i) = limbSum l ^^^ limbSum l' := by
  simp only [limbSum_eq_nested, xor_add_mul_256 (h _) (h' _)]

theorem byteAt_xor (a b : Word) (i : Fin 8) :
    (byteAt (a ^^^ b) i).toNat = (byteAt a i).toNat ^^^ (byteAt b i).toNat := by
  rw [byteAt, BitVec.extractLsb'_xor, BitVec.toNat_xor]
  rfl

/-- A rotation swaps the low `n` bits and the rest (R13). -/
theorem rotr_toNat (a : Word) {n : Nat} (hn : n ≤ 64) :
    (rotr a n).toNat = a.toNat / 2 ^ n + a.toNat % 2 ^ n * 2 ^ (64 - n) := by
  have hsplit : 2 ^ 64 = 2 ^ n * 2 ^ (64 - n) := by rw [← pow_add, Nat.add_sub_cancel' hn]
  have hlow : a.toNat / 2 ^ n < 2 ^ (64 - n) :=
    Nat.div_lt_of_lt_mul (hsplit ▸ a.isLt)
  rw [rotr, BitVec.toNat_or, BitVec.toNat_ushiftRight, BitVec.toNat_shiftLeft, Nat.shiftLeft_eq,
    Nat.shiftRight_eq_div_pow, hsplit, Nat.mul_mod_mul_right, Nat.or_comm, ← Nat.shiftLeft_eq,
    ← Nat.shiftLeft_add_eq_or_of_lt hlow, Nat.shiftLeft_eq, Nat.add_comm]

/-- R182 on the limbs, for the three rotations by limbs. -/
theorem limbSum_rotr {l : Fin 8 → Nat} (h : ∀ i, l i < 256) {k : Fin 8} (hk : k ∈ [2, 3, 4]) :
    limbSum (fun i => l (i + k)) = (rotr (BitVec.ofNat 64 (limbSum l)) (8 * k.val)).toNat := by
  have hsum := limbSum_lt h
  have := h 0; have := h 1; have := h 2; have := h 3
  have := h 4; have := h 5; have := h 6; have := h 7
  rw [rotr_toNat _ (by omega), BitVec.toNat_ofNat, Nat.mod_eq_of_lt hsum]
  simp only [List.mem_cons, List.not_mem_nil, or_false] at hk
  rcases hk with rfl | rfl | rfl <;>
    simp only [limbSum, Fin.reduceAdd, Fin.coe_ofNat_eq_mod, Nat.reduceMod, Nat.reduceMul, Nat.reduceSub,
      Nat.reducePow] <;> omega

/-- R182, read at the output limb. -/
theorem byteAt_rotr (a : Word) {k : Fin 8} (hk : k ∈ [2, 3, 4]) (i : Fin 8) :
    (byteAt (rotr a (8 * k.val)) i).toNat = (byteAt a (i + k)).toNat := by
  have hb : ∀ i, (byteAt a i).toNat < 256 := fun i => (byteAt a i).isLt
  have hr := limbSum_rotr hb hk
  rw [limbSum_byteAt, BitVec.ofNat_toNat, BitVec.setWidth_eq] at hr
  have := byteAt_limbSum (l := fun i => (byteAt a (i + k)).toNat) (fun i => hb _) i
  rwa [hr, BitVec.ofNat_toNat, BitVec.setWidth_eq] at this

theorem highBit_eq (a : Word) : highBit a = a.toNat / 2 ^ 63 := Nat.shiftRight_eq_div_pow ..

/-- R191. -/
theorem rotr63_toNat (a : Word) : (rotr a 63).toNat + highBit a * (2 ^ 64 - 1) = 2 * a.toNat := by
  rw [rotr_toNat a (by omega), highBit_eq]
  omega

theorem carryOf_eq (a b : Word) : carryOf a b = (a.toNat + b.toNat) / 2 ^ 64 :=
  Nat.shiftRight_eq_div_pow ..

/-- R140, R142. -/
theorem add_toNat_add_carryOf (a b : Word) :
    (a + b).toNat + carryOf a b * 2 ^ 64 = a.toNat + b.toNat := by
  rw [carryOf_eq, BitVec.toNat_add]
  omega

theorem not_toNat_add (a : Word) : a.toNat + (~~~a).toNat = 2 ^ 64 - 1 := by
  rw [BitVec.toNat_not]
  omega

/-! ## The gates are sound -/

section
variable {s : State} {w : Witness} {p r : Nat}

/-- A multiple of `p` nearer to zero than `p` is zero. -/
theorem int_eq_zero_of_dvd {p : Nat} {x : Int} (h : (p : Int) ∣ x) (h1 : -(p : Int) < x)
    (h2 : x < p) : x = 0 := Int.eq_zero_of_abs_lt_dvd h (abs_lt.mpr ⟨h1, h2⟩)

/-- A field element whose product with its complement to 1 is 0 is a Bit. -/
theorem bit_of_dvd {c : Nat} (hp : p.Prime) (hc : c < p) (h : (p : Int) ∣ (c : Int) * (1 - c)) :
    c = 0 ∨ c = 1 := by
  have := hp.two_le
  obtain h | h := (Nat.prime_iff_prime_int.mp hp).dvd_or_dvd h
  · have := int_eq_zero_of_dvd h (by omega) (by omega)
    omega
  · have := int_eq_zero_of_dvd h (by omega) (by omega)
    omega

/-- R126. -/
theorem gateDec_sound (hp : 2 ^ 65 < s.params.fieldP) (hw : ∀ c, w c < s.params.fieldP)
    (h : gateDec s w r) : (∀ i, w (.l i r) < 256) ∧ w (.f r) = limbSum fun i => w (.l i r) := by
  obtain ⟨hf, hl⟩ := h
  have hl' : ∀ i, w (.l i r) < 256 := fun i => lt_of_mem_rangeTable (hl i)
  have := limbSum_lt hl'
  exact ⟨hl', hf.eq_of_lt_of_lt (hw _) (by omega)⟩

/-- The F cell of a decomposed row holds a Word. -/
theorem gateDec_word (hp : 2 ^ 65 < s.params.fieldP) (hw : ∀ c, w c < s.params.fieldP)
    (h : gateDec s w r) : w (.f r) < 2 ^ 64 := by
  obtain ⟨hl, hf⟩ := gateDec_sound hp hw h
  exact hf ▸ limbSum_lt hl

/-- R145. -/
theorem gateAdd_sound {a b : Word} (hp : p.Prime) (hp' : 2 ^ 65 < p) (hw : ∀ c, w c < p)
    (ha : w (.f r) = a.toNat) (hb : w (.f (r + 1)) = b.toNat) (hs : w (.f (r + 2)) < 2 ^ 64)
    (h : gateAdd p w r) : w (.f (r + 2)) = (a + b).toNat ∧ w (.l 0 (r + 1)) = carryOf a b := by
  obtain ⟨hsum, hbit⟩ := h
  have hadd := add_toNat_add_carryOf a b
  have := (a + b).isLt
  have := a.isLt; have := b.isLt
  rw [ha, hb] at hsum
  obtain hc | hc := bit_of_dvd hp (hw _) hbit <;> rw [hc] at hsum ⊢
  all_goals
    have := int_eq_zero_of_dvd hsum (by omega) (by omega)
    omega

/-- R166. -/
theorem gateXor_sound {a b : Word} (hp : 2 ^ 65 < s.params.fieldP) (hw : ∀ c, w c < s.params.fieldP)
    (ha : w (.f r) = a.toNat) (hb : w (.f (r + 1)) = b.toNat) (h0 : gateDec s w r)
    (h1 : gateDec s w (r + 1)) (h2 : gateDec s w (r + 2)) (h : gateXor s w r) :
    w (.f (r + 2)) = (a ^^^ b).toNat := by
  obtain ⟨hl0, hf0⟩ := gateDec_sound hp hw h0
  obtain ⟨hl1, hf1⟩ := gateDec_sound hp hw h1
  rw [(gateDec_sound hp hw h2).2, BitVec.toNat_xor, ← ha, ← hb, hf0, hf1, ← limbSum_xor hl0 hl1]
  exact congrArg limbSum (funext fun i => xor_of_mem_xorTable (h i))

/-- R185. -/
theorem limbCopies_sound {a : Word} {k : Fin 8} {o : Nat} (hk : k ∈ [2, 3, 4])
    (hp : 2 ^ 65 < s.params.fieldP) (hw : ∀ c, w c < s.params.fieldP) (ha : w (.f r) = a.toNat)
    (hr : gateDec s w r) (ho : gateDec s w o) (h : ∀ i, w (.l i o) = w (.l (i + k) r)) :
    w (.f o) = (rotr a (8 * k.val)).toNat := by
  obtain ⟨hl, hf⟩ := gateDec_sound hp hw hr
  have hrot := limbSum_rotr hl hk
  rw [← hf, ha, BitVec.ofNat_toNat, BitVec.setWidth_eq] at hrot
  rw [(gateDec_sound hp hw ho).2, ← hrot]
  exact congrArg limbSum (funext h)

/-- R192. -/
theorem gateRot63_sound {a : Word} (hp : p.Prime) (hp' : 2 ^ 65 < p) (hw : ∀ c, w c < p)
    (ha : w (.f r) = a.toNat) (ho : w (.f (r + 2)) < 2 ^ 64) (h : gateRot63 p w r) :
    w (.f (r + 2)) = (rotr a 63).toNat ∧ w (.f (r + 1)) = highBit a := by
  obtain ⟨hrot, hbit⟩ := h
  have hval := rotr63_toNat a
  have := (rotr a 63).isLt
  have := a.isLt
  have := highBit_le_one a
  rw [ha] at hrot
  obtain hc | hc := bit_of_dvd hp (hw _) hbit <;> rw [hc] at hrot ⊢
  all_goals
    have := int_eq_zero_of_dvd hrot (by omega) (by omega)
    omega

/-- R204. -/
theorem gateNot_sound {a : Word} (hp : 2 ^ 64 < p) (hw : ∀ c, w c < p) (ha : w (.f r) = a.toNat)
    (h : gateNot p w r) : w (.f (r + 1)) = (~~~a).toNat := by
  have hnot := not_toNat_add a
  have := hw (.f (r + 1))
  have := a.isLt
  unfold gateNot at h
  rw [ha] at h
  have := int_eq_zero_of_dvd h (by omega) (by omega)
  omega

/-! ## The gates are complete -/

theorem gateDec_complete (hl : s.loaded = true) (hb : ∀ i, w (.l i r) < 256)
    (hf : w (.f r) = limbSum fun i => w (.l i r)) : gateDec s w r :=
  ⟨by rw [hf], fun i => mem_rangeTable hl (hb i)⟩

theorem gateDec_of_word {a : Word} (hl : s.loaded = true) (hf : w (.f r) = a.toNat)
    (hb : ∀ i, w (.l i r) = (byteAt a i).toNat) : gateDec s w r :=
  gateDec_complete hl (fun i => hb i ▸ (byteAt a i).isLt) (by simp only [hf, hb, limbSum_byteAt])

theorem gateAdd_complete {a b : Word} (ha : w (.f r) = a.toNat) (hb : w (.f (r + 1)) = b.toNat)
    (hc : w (.l 0 (r + 1)) = carryOf a b) (hs : w (.f (r + 2)) = (a + b).toNat) : gateAdd p w r := by
  have hadd := add_toNat_add_carryOf a b
  have hle := carryOf_le_one a b
  unfold gateAdd
  rw [ha, hb, hc, hs]
  refine ⟨⟨0, by omega⟩, ⟨0, ?_⟩⟩
  obtain h | h : carryOf a b = 0 ∨ carryOf a b = 1 := by omega
  all_goals simp [h]

theorem gateXor_complete {a b : Word} (hl : s.loaded = true)
    (ha : ∀ i, w (.l i r) = (byteAt a i).toNat) (hb : ∀ i, w (.l i (r + 1)) = (byteAt b i).toNat)
    (hx : ∀ i, w (.l i (r + 2)) = (byteAt (a ^^^ b) i).toNat) : gateXor s w r := by
  intro i
  rw [ha, hb, hx, byteAt_xor]
  exact mem_xorTable hl (byteAt a i).isLt (byteAt b i).isLt

theorem gateRot63_complete {a : Word} (ha : w (.f r) = a.toNat) (hh : w (.f (r + 1)) = highBit a)
    (ho : w (.f (r + 2)) = (rotr a 63).toNat) : gateRot63 p w r := by
  have hval := rotr63_toNat a
  have hle := highBit_le_one a
  unfold gateRot63
  rw [ha, hh, ho]
  refine ⟨⟨0, by omega⟩, ⟨0, ?_⟩⟩
  obtain h | h : highBit a = 0 ∨ highBit a = 1 := by omega
  all_goals simp [h]

theorem gateNot_complete {a : Word} (ha : w (.f r) = a.toNat) (hn : w (.f (r + 1)) = (~~~a).toNat) :
    gateNot p w r := by
  have hnot := not_toNat_add a
  unfold gateNot
  rw [ha, hn]
  exact ⟨0, by omega⟩

end

end Sys2Proof.Machine

/-! What every witness of the constraints has in the cells of the bindings: Words (R127), and where it holds
the machine's inputs the values the machine computed (R44, R219). -/

namespace Sys2Proof.Machine

/-! ## What a witness of a longer circuit meets -/

section
variable {s t : State} {w : Witness}

theorem Satisfies.of_builds (h : Satisfies t w) (hb : Builds s t) : Satisfies s w :=
  h.of_extends hb.extends hb.sameHost

/-- The constraints are a matter of the circuit and of what the host sets. -/
theorem satisfies_mark {n : Nat} {f : Option Fault} : Satisfies (s.mark n f) w ↔ Satisfies s w := by
  refine ⟨fun h => h.of_extends (mark_extends n f s) (mark_sameHost n f s), fun h => h.of_extends ?_ ?_⟩
  · exact (Extends.refl (s.mark n f)).congr rfl rfl
  · exact (SameHost.refl (s.mark n f)).congr rfl rfl rfl rfl rfl rfl rfl

theorem Satisfies.of_pushRow {row : TraceRow} (hs : s.traceWf = true) (h : Satisfies (s.pushRow row) w) :
    Satisfies s w ∧ (∀ a, row.k = some a → w (.k s.cur) = a) ∧
      ∀ q, row.sel.isSet q = true → gateHolds s w q s.cur :=
  have hh := pushRow_sameHost row s
  have hrow := pushRow_trace_cur (row := row) hs
  ⟨h.of_extends (extends_pushRow row s) hh, fun a => h.fixed _ row a hrow,
    fun q hq => hh.meets (c := .gate q s.cur) |>.mp (h.gates _ row q hrow hq)⟩

theorem Satisfies.of_decRow {a : Word} (hs : s.traceWf = true)
    (h : Satisfies (s.pushRow (decRow a)) w) : Satisfies s w ∧ gateDec s w s.cur :=
  have ⟨h1, _, h2⟩ := h.of_pushRow hs
  ⟨h1, h2 .qDec rfl⟩

theorem Satisfies.of_copyAll {ps : List (Cell × Cell)} (h : Satisfies (s.copyAll ps) w) :
    Satisfies s w ∧ ∀ q ∈ ps, w q.1 = w q.2 :=
  ⟨h.of_builds (Builds.refl.copyAll ps), fun q hq => h.copies q (List.mem_append_right _ hq)⟩

theorem Satisfies.of_copy {c d : Cell} (h : Satisfies (s.copy c d) w) : Satisfies s w ∧ w c = w d :=
  have ⟨h1, h2⟩ := Satisfies.of_copyAll (ps := [(c, d)]) h
  ⟨h1, h2 (c, d) (List.mem_singleton_self _)⟩

theorem Satisfies.of_sel {q : Selector} {r : Nat} (hr : r < s.trace.length)
    (h : Satisfies (s.sel q r) w) : Satisfies s w ∧ gateHolds s w q r := by
  have hb := Builds.refl.sel q r (s := s)
  refine ⟨h.of_builds hb, hb.sameHost.meets (c := .gate q r) |>.mp ?_⟩
  refine h.gates r _ q (sel_trace_some (List.getElem?_eq_getElem hr)) ?_
  rw [if_pos rfl, Selectors.isSet_enable, decide_eq_true rfl, Bool.or_true]

theorem Satisfies.of_publish {rd : Operand} {b : Binding} (h : Satisfies (publish rd b s) w) :
    Satisfies s w :=
  h.of_builds (Builds.refl.publish rd b)

end

/-! ## Words in cells -/

/-- In the witness the cell holds a Word, and under `P` it is the word given. -/
def Carries (w : Witness) (P : Prop) (c : Cell) (a : Word) : Prop :=
  ∃ A : Word, w c = A.toNat ∧ (P → A = a)

section
variable {w : Witness} {P : Prop} {c d : Cell} {a : Word}

theorem Carries.of_eq (h : Carries w P d a) (he : w c = w d) : Carries w P c a := by
  obtain ⟨A, hA, hP⟩ := h
  exact ⟨A, he.trans hA, hP⟩

theorem Carries.lt (h : Carries w P c a) : w c < 2 ^ 64 := by
  obtain ⟨A, hA, -⟩ := h
  exact hA ▸ A.isLt

theorem carries_true_iff : Carries w True c a ↔ w c = a.toNat :=
  ⟨fun ⟨_, hA, hP⟩ => hP trivial ▸ hA, fun h => ⟨a, h, fun _ => rfl⟩⟩

theorem carries_false_iff : Carries w False c a ↔ w c < 2 ^ 64 :=
  ⟨Carries.lt, fun h => ⟨BitVec.ofNat 64 (w c), by rw [BitVec.toNat_ofNat, Nat.mod_eq_of_lt h], nofun⟩⟩

theorem carries_of_eq (h : w c = a.toNat) : Carries w P c a := ⟨a, h, fun _ => rfl⟩

end

/-! ## The operations are sound -/

section
variable {s t u : State} {w : Witness} {P : Prop} {rd : Operand}

theorem pushRow_copy_cur_lt (row : TraceRow) (c d : Cell) {r : Nat} (hs : s.traceWf = true)
    (hr : r ≤ s.cur) : r < ((s.pushRow row).copy c d).trace.length := by
  have := ((traceWf_iff s).mp hs).1
  simp only [copy_trace, pushRow_trace, List.length_append, List.length_singleton]
  omega

/-- R145: an addition whose lhs is on the row before `cur`. -/
theorem addOnto_sound {a : Word} {b : Binding} {r : Nat} (hs : s.traceWf = true) (hr : r + 1 = s.cur)
    (hp : s.params.fieldP.Prime) (hp' : 2 ^ 65 < s.params.fieldP) (hu : addOnto rd a b r s = .ok u)
    (hw : Satisfies u w) (ha : Carries w P (.f r) a) (hb : Carries w P b.cell b.val) :
    ∃ c, u.p = some c ∧ Carries w P c.cell c.val := by
  obtain ⟨room, rfl⟩ := addOnto_ok.mp hu
  have hs' := pushRow_copy_traceWf (carryRow b.val (carryOf a b.val)) (.f s.cur) b.cell hs (by omega)
  obtain ⟨hw, hadd⟩ := hw.of_publish.of_sel (by
    have := ((traceWf_iff s).mp hs).1
    simp only [pushRow_trace, copy_trace, List.length_append, List.length_singleton]
    omega)
  obtain ⟨hw, hdec⟩ := hw.of_decRow hs'
  obtain ⟨-, hcopy⟩ := hw.of_copy
  obtain ⟨A, hA, hPA⟩ := ha
  obtain ⟨B, hB, hPB⟩ := hb.of_eq hcopy
  refine ⟨_, publish_p .., A + B, ?_, fun h => by rw [hPA h, hPB h]⟩
  have hlt := gateDec_word hp' hw.field hdec
  rw [← hr] at hB
  rw [copy_cur, pushRow_cur, ← hr] at hlt
  exact hr ▸ (gateAdd_sound hp hp' hw.field hA hB hlt hadd).1

/-- R166: an exclusive or whose lhs is on the decomposed row before `cur`. -/
theorem xorOnto_sound {a : Word} {b : Binding} {r : Nat} (hs : s.traceWf = true) (hr : r + 1 = s.cur)
    (hp' : 2 ^ 65 < s.params.fieldP) (hu : xorOnto rd a b r s = .ok u)
    (hw : Satisfies u w) (hr0 : gateDec s w r) (ha : Carries w P (.f r) a)
    (hb : Carries w P b.cell b.val) : ∃ c, u.p = some c ∧ Carries w P c.cell c.val := by
  obtain ⟨room, rfl⟩ := xorOnto_ok.mp hu
  have hs' := pushRow_copy_traceWf (decRow b.val) (.f s.cur) b.cell hs (by omega)
  obtain ⟨hw, hxor⟩ := hw.of_publish.of_sel (by
    have := ((traceWf_iff s).mp hs).1
    simp only [pushRow_trace, copy_trace, List.length_append, List.length_singleton]
    omega)
  obtain ⟨hw, hr2⟩ := hw.of_decRow hs'
  obtain ⟨hw, hcopy⟩ := hw.of_copy
  obtain ⟨hw, hr1⟩ := hw.of_decRow hs
  obtain ⟨A, hA, hPA⟩ := ha
  obtain ⟨B, hB, hPB⟩ := hb.of_eq hcopy
  refine ⟨_, publish_p .., A ^^^ B, ?_, fun h => by rw [hPA h, hPB h]⟩
  rw [← hr] at hB hr1
  rw [copy_cur, pushRow_cur, ← hr] at hr2
  exact hr ▸ gateXor_sound hp' hw.field hA hB hr0 hr1 hr2 hxor

/-- R204. -/
theorem negRows_sound {x : Binding} (hs : s.traceWf = true) (hp' : 2 ^ 65 < s.params.fieldP)
    (hu : negRows x s = .ok u) (hw : Satisfies u w) (hx : Carries w P x.cell x.val) :
    Carries w P (.f (s.cur + 1)) (~~~x.val) := by
  obtain ⟨room, rfl⟩ := negRows_ok.mp hu
  have hs' := pushRow_copy_traceWf (wordRow x.val) (.f s.cur) x.cell hs (by omega)
  obtain ⟨hw, hnot⟩ := hw.of_sel (by
    have := ((traceWf_iff s).mp hs).1
    simp only [pushRow_trace, copy_trace, List.length_append, List.length_singleton]
    omega)
  obtain ⟨hw, -⟩ := hw.of_pushRow hs'
  obtain ⟨hw, hcopy⟩ := hw.of_copy
  obtain ⟨A, hA, hPA⟩ := hx.of_eq hcopy
  exact ⟨~~~A, gateNot_sound (lt_trans (by decide) hp') hw.field hA hnot, fun h => by rw [hPA h]⟩

/-- The row a rotation by limbs reads is decomposed and holds its source. -/
theorem decomposedSource_sound {b : Binding} {r : Nat} (hs : s.traceWf = true) (hb : BindingRow s b)
    (ht : decomposedSource b s = .ok (r, t)) (hw : Satisfies t w) (hc : Carries w P b.cell b.val) :
    gateDec t w r ∧ Carries w P (.f r) b.val := by
  obtain ⟨hk, ht⟩ | ⟨-, room, ht⟩ := decomposedSource_ok.mp ht <;> cases ht
  · obtain ⟨row, hrow, hdec⟩ := hb
    exact ⟨hw.gates _ row .qDec hrow (hdec.mpr hk), hc⟩
  · obtain ⟨hw, hcopy⟩ := hw.of_copy
    exact ⟨(hw.of_decRow hs).2, hc.of_eq hcopy⟩

/-- R185. -/
theorem limbRotBody_sound {k : Fin 8} {rs1 : Operand} (hk : k ∈ [2, 3, 4]) (hs : s.traceWf = true)
    (hp' : 2 ^ 65 < s.params.fieldP) (hrows : BindingRows s) (hu : limbRotBody k rd rs1 s = .ok u)
    (hw : Satisfies u w) (hall : AllBindings (fun b => Carries w P b.cell b.val) s) :
    ∃ c, u.p = some c ∧ Carries w P c.cell c.val := by
  obtain ⟨b, r, t, hb, ht, room, rfl⟩ := limbRotBody_ok.mp hu
  have hparams : t.params = s.params := by
    obtain ⟨-, ht⟩ | ⟨-, -, ht⟩ := decomposedSource_ok.mp ht <;> cases ht <;> rfl
  obtain ⟨hw, hcopies⟩ := hw.of_publish.of_copyAll
  obtain ⟨hw, ho⟩ := hw.of_decRow (decomposedSource_traceWf hs ht)
  obtain ⟨hr, A, hA, hPA⟩ := decomposedSource_sound hs (hrows.1 _ b hb) ht hw (hall.1 _ b hb)
  refine ⟨_, publish_p .., rotr A (8 * k.val), ?_, fun h => by rw [hPA h]⟩
  refine limbCopies_sound hk (hparams ▸ hp') hw.field hA hr ho fun i => hcopies (.l i t.cur, .l (i + k) r) ?_
  fin_cases i <;> simp [limbCopies]

/-- The row a rotation by 63 reads is the one before `cur` and holds its source. -/
theorem rot63Source_sound {b : Binding} {r : Nat} (hrows : BindingRows s)
    (ht : rot63Source b s = .ok (r, t)) (hw : Satisfies t w) (hc : Carries w P b.cell b.val) :
    r + 1 = t.cur ∧ Carries w P (.f r) b.val := by
  obtain ⟨⟨a, ha, hab⟩, ht⟩ | ⟨-, room, ht⟩ := rot63Source_ok.mp ht <;> cases ht
  · have hrow := (hrows.2 a ha).2
    have hr : s.cur - 1 = b.row := by omega
    exact ⟨by omega, hr ▸ hc⟩
  · exact ⟨rfl, hc.of_eq hw.of_copy.2⟩

/-- R192. -/
theorem rotr63Body_sound {rs1 : Operand} (hs : s.traceWf = true)
    (hp : s.params.fieldP.Prime) (hp' : 2 ^ 65 < s.params.fieldP) (hrows : BindingRows s)
    (hu : rotr63Body rd rs1 s = .ok u) (hw : Satisfies u w)
    (hall : AllBindings (fun b => Carries w P b.cell b.val) s) :
    ∃ c, u.p = some c ∧ Carries w P c.cell c.val := by
  obtain ⟨b, r, t, hb, ht, room, rfl⟩ := rotr63Body_ok.mp hu
  have hparams : t.params = s.params := by
    obtain ⟨-, ht⟩ | ⟨-, -, ht⟩ := rot63Source_ok.mp ht <;> cases ht <;> rfl
  rw [← hparams] at hp hp'
  have hst := rot63Source_traceWf hs ht
  have hst' := pushRow_traceWf (row := highBitRow b.val) hst (by omega)
  have hw := hw.of_publish
  obtain ⟨hr, A, hA, hPA⟩ := rot63Source_sound hrows ht (hw.of_builds (((Builds.refl.push
    (by omega) (.highBit _)).push room (.dec _)).sel _ _)) (hall.1 _ b hb)
  obtain ⟨hw, hrot⟩ := hw.of_sel (by
    have := ((traceWf_iff t).mp hst).1
    simp only [pushRow_trace, List.length_append, List.length_singleton]
    omega)
  obtain ⟨hw, hdec⟩ := hw.of_decRow hst'
  refine ⟨_, publish_p .., rotr A 63, ?_, fun h => by rw [hPA h]⟩
  have hlt := gateDec_word hp' hw.field hdec
  rw [pushRow_cur, ← hr] at hlt
  exact hr ▸ (gateRot63_sound hp hp' hw.field hA hlt hrot).1

end

/-! ## Every command is sound -/

section
variable {s u : State} {w : Witness} {P : Prop}

/-- What a word command binds its destination to, from what its operands hold. -/
theorem wordBody_sound {i : Instr} {rd : Operand} (hd : i.dest? = some rd) (hs : s.traceWf = true)
    (hp : s.params.fieldP.Prime) (hp' : 2 ^ 65 < s.params.fieldP) (hrows : BindingRows s)
    (hu : bodyOf i s = .ok u) (hw : Satisfies u w)
    (hall : AllBindings (fun b => Carries w P b.cell b.val) s) :
    ∃ c, u.p = some c ∧ Carries w P c.cell c.val := by
  cases i with
  | init | ldblk | vinit | out => cases hd
  | row rd rs1 =>
    obtain ⟨b, hb, room, rfl⟩ := rowBody_ok.mp hu
    exact ⟨_, publish_p .., (hall.1 _ b hb).of_eq hw.of_publish.of_copy.2⟩
  | add rd rs1 rs2 =>
    obtain ⟨a, b, ha, hb, hu⟩ := addBody_ok.mp hu
    have room := (addOnto_ok.mp hu).1
    simp only [copy_cur, pushRow_cur, copy_params, pushRow_params] at room
    have hcopy := (hw.of_builds (Builds.refl.addOnto hu)).of_copy.2
    exact addOnto_sound (pushRow_copy_traceWf _ _ _ hs (by omega)) rfl hp hp' hu hw
      ((hall.1 _ a ha).of_eq hcopy) (hall.1 _ b hb)
  | addp rd rs2 =>
    obtain ⟨a, b, ha, hb, hu⟩ := addpBody_ok.mp hu
    have hrow := (hrows.2 a ha).2
    rw [← hrow, Nat.add_sub_cancel] at hu
    exact addOnto_sound hs hrow hp hp' hu hw (hall.2 a ha) (hall.1 _ b hb)
  | xor rd rs1 rs2 =>
    obtain ⟨a, b, ha, hb, hu⟩ := xorBody_ok.mp hu
    have room := (xorOnto_ok.mp hu).1
    simp only [copy_cur, pushRow_cur, copy_params, pushRow_params] at room
    obtain ⟨hw', hcopy⟩ := (hw.of_builds (Builds.refl.xorOnto hu)).of_copy
    exact xorOnto_sound (pushRow_copy_traceWf _ _ _ hs (by omega)) rfl hp' hu hw (hw'.of_decRow hs).2
      ((hall.1 _ a ha).of_eq hcopy) (hall.1 _ b hb)
  | xorp rd rs2 =>
    obtain ⟨a, b, ha, hk, hb, hu⟩ := xorpBody_ok.mp hu
    obtain ⟨⟨row, hrow, hdec⟩, hcur⟩ := hrows.2 a ha
    rw [← hcur, Nat.add_sub_cancel] at hu
    have hgate := (hw.of_builds (Builds.refl.xorOnto hu)).gates _ row .qDec hrow (hdec.mpr hk)
    exact xorOnto_sound hs hcur hp' hu hw hgate (hall.2 a ha) (hall.1 _ b hb)
  | not rd rs1 =>
    obtain ⟨x, t, hx, ht, rfl⟩ := notBody_ok.mp hu
    exact ⟨_, publish_p .., negRows_sound hs hp' ht hw.of_publish (hall.1 _ x hx)⟩
  | rotr16 rd rs1 | rotr24 rd rs1 | rotr32 rd rs1 =>
    exact limbRotBody_sound (by decide) hs hp' hrows hu hw hall
  | rotr63 rd rs1 => exact rotr63Body_sound hs hp hp' hrows hu hw hall

/-- R210: a constant row holds its word in every witness. -/
theorem afterConsts_sound {as : List Word} {n : Nat} {a : Word} (hs : s.traceWf = true)
    (hw : Satisfies (afterConsts as s) w) (ha : as[n]? = some a) : w (.f (s.cur + n)) = a.toNat := by
  have hn := (List.getElem?_eq_some_iff.mp ha).1
  refine (hw.copies (.f (s.cur + n), .k (s.cur + n)) ?_).trans
    (hw.fixed _ _ _ (afterConsts_row hs ha) rfl)
  exact List.mem_append_right _ (List.mem_map.mpr ⟨n, List.mem_range.mpr hn, rfl⟩)

/-- R218, R219: a message row is decomposed, and its limbs are tied to the sources of the block. -/
theorem ldblkBody_sound {n : Nat} (hs : s.traceWf = true) (hu : ldblkBody n s = .ok u)
    (hw : Satisfies u w) (j : Fin 16) : gateDec s w (s.cur + j.val) ∧
      ∀ i : Fin 8, w (.l i (s.cur + j.val)) = w (s.sourceCell (s.source n (8 * j.val + i.val))) := by
  have hrow := ldblkBody_row hs hu j
  obtain ⟨-, -, -, -, hu⟩ := ldblkBody_ok.mp hu
  have hh : SameHost s u := hu ▸ (SameHost.refl s).congr rfl rfl rfl rfl rfl rfl rfl
  refine ⟨hh.meets (c := .gate .qDec _) |>.mp (hw.gates _ _ .qDec hrow rfl), fun i =>
    hw.copies (.l i (s.cur + j.val), s.sourceCell (s.source n (8 * j.val + i.val))) ?_⟩
  rw [hu]
  refine List.mem_append_right _ (List.mem_flatMap.mpr ⟨(j, s.cur + j.val), ?_, ?_⟩)
  · rw [List.mk_mem_zipIdx_iff_le_and_getElem?_sub]
    simp
  · exact List.mem_map.mpr ⟨i, List.mem_finRange i, rfl⟩

/-- The constant and the negation of VINIT. -/
theorem vinitBody_sound {n : Nat} (hs : s.traceWf = true) (hp' : 2 ^ 65 < s.params.fieldP)
    (hu : vinitBody n s = .ok u) (hw : Satisfies u w)
    (hall : AllBindings (fun b => Carries w P b.cell b.val) s) :
    AllBindings (fun b => Carries w P b.cell b.val) u := by
  have hu' := hu
  obtain ⟨-, -, -, x, f, t, hx, room, ht, rfl⟩ := vinitBody_ok.mp hu'
  have hwt : Satisfies t w := hw.of_builds (Builds.refl.write _ _ _ _ _ _ _)
  have hs' := pushRow_copy_traceWf (fixedRow (counterWord s n)) (.f s.cur) (.k s.cur) hs room
  have hbuilds : Builds ((s.pushRow (fixedRow (counterWord s n))).copy (.f s.cur) (.k s.cur)) t := by
    obtain ⟨-, v, hv, ht⟩ | ⟨-, ht⟩ := finalWord_ok.mp ht <;> cases ht
    · exact Builds.refl.negRows hv
    · exact .refl
  obtain ⟨hconst, hcopy⟩ := (hwt.of_builds hbuilds).of_copy
  refine hall.vinit hu (carries_of_eq (hcopy.trans ((hconst.of_pushRow hs).2.1 _ rfl))) fun y hy hlast => ?_
  obtain rfl := Option.some.inj (hx.symm.trans hy)
  obtain ⟨-, v, hv, ht⟩ | ⟨hlast', -⟩ := finalWord_ok.mp ht
  · cases ht
    exact negRows_sound hs' hp' hv hwt (hall.1 (.iv 6) x hx)
  · exact nomatch hlast.symm.trans hlast'

/-- What every witness has in the cells of the bindings after a command, from what it has in those before;
of the message words LDBLK has to show it. -/
theorem bodyOf_sound {i : Instr} (hs : s.traceWf = true) (hp : s.params.fieldP.Prime)
    (hp' : 2 ^ 65 < s.params.fieldP) (hrows : BindingRows s) (hu : bodyOf i s = .ok u)
    (hw : Satisfies u w) (hall : AllBindings (fun b => Carries w P b.cell b.val) s)
    (hmsg : ∀ blk, i = .ldblk blk → ∀ j : Fin 16, Carries w P (.f (s.cur + j.val))
      (messageWord s.params.fieldP (s.messageByte blk.toNat j))) :
    AllBindings (fun b => Carries w P b.cell b.val) u := by
  cases i with
  | init =>
    have ⟨_, _, _, _, _, hu'⟩ := initBody_ok.mp hu
    have hw' : Satisfies (afterConsts (initConstants s.keyLen s.params.outLen) s) w := by
      subst hu'
      exact hw.of_builds (Builds.refl.write _ _ _ _ _ _ _)
    exact hall.init hu (fun i => carries_of_eq (afterConsts_sound hs hw' (initConstants_iv _ _ i)))
      (carries_of_eq (afterConsts_sound (n := 8) hs hw' rfl))
  | ldblk blk => exact hall.ldblk hu (hmsg blk rfl)
  | vinit blk => exact vinitBody_sound hs hp' hu hw hall
  | out =>
    exact hall.out hs hu fun o b b' hb hc =>
      hc.val ▸ (hall.1 o b hb).of_eq (hw.copies _ hc.tied)
  | row rd | add rd | addp rd | xor rd | xorp rd | not rd | rotr16 rd | rotr24 rd | rotr32 rd
  | rotr63 rd =>
    obtain ⟨c, hc, hq⟩ := wordBody_sound (rd := rd) rfl hs hp hp' hrows hu hw hall
    exact hall.word (rd := rd) rfl hu hc hq

/-! ## The zero cell -/

/-- Only INIT writes `Z`. -/
theorem bodyOf_z {i : Instr} (hi : i ≠ .init) (hu : bodyOf i s = .ok u) : u.z = s.z := by
  cases i with
  | init => exact absurd rfl hi
  | ldblk blk => obtain ⟨-, -, -, -, rfl⟩ := ldblkBody_ok.mp hu; rfl
  | vinit blk =>
    obtain ⟨-, -, -, hz, -⟩ := vinitBody_frame hu
    exact hz
  | out =>
    obtain ⟨-, w, hw, rfl⟩ := outBody_ok.mp hu
    obtain ⟨⟨tr, c, e, hs, rfl⟩, -⟩ := decomposeH_frame hw
    rfl
  | row rd | add rd | addp rd | xor rd | xorp rd | not rd | rotr16 rd | rotr24 rd | rotr32 rd
  | rotr63 rd =>
    obtain ⟨b, tr, c, e, rfl, -⟩ := wordBody_ok (rd := rd) rfl hu
    exact publish_z ..

/-- R212: the zero cell holds 0 in every witness. -/
theorem bodyOf_zero {i : Instr} (hs : s.traceWf = true) (hu : bodyOf i s = .ok u)
    (hw : Satisfies u w) (hz : ∀ z, s.z = some z → w (.f z) = 0) : ∀ z, u.z = some z → w (.f z) = 0 := by
  by_cases hi : i = .init
  · subst hi
    obtain ⟨-, -, -, -, -, rfl⟩ := initBody_ok.mp hu
    rintro z hz'
    obtain rfl := Option.some.inj hz'
    exact afterConsts_sound (as := initConstants s.keyLen s.params.outLen) (n := 9) (a := 0) hs
      (hw.of_builds (Builds.refl.write _ _ _ _ _ _ _)) rfl
  · exact bodyOf_z hi hu ▸ hz

end

/-! ## The sources of a block -/

section
variable {s : State} {w : Witness}

theorem source_input_lt {b k i : Nat} (h : s.source b k = .input i) : i < s.params.inputLen := by
  unfold State.source blockSource at h
  dsimp only at h
  generalize 128 * (b - if 0 < s.keyLen then 1 else 0) + k = n at h
  split at h
  · split at h <;> cases h
  · split at h
    · obtain rfl := ByteSource.input.inj h
      assumption
    · cases h

theorem source_key_lt {b k i : Nat} (h : s.source b k = .key i) : i < s.keyLen := by
  unfold State.source blockSource at h
  dsimp only at h
  generalize 128 * (b - if 0 < s.keyLen then 1 else 0) + k = n at h
  split at h
  · split at h
    · obtain rfl := ByteSource.key.inj h
      assumption
    · cases h
  · split at h <;> cases h

/-- A witness that holds the machine's inputs and 0 in the zero cell has in a source cell of a block the
value LDBLK reads there (R217). -/
theorem sourceCell_value (he : s.sourcesExist = true) (hin : AgreesOnInputs s w)
    (hz : ∀ z, s.z = some z → w (.f z) = 0) (b k : Nat) :
    w (s.sourceCell (s.source b k)) = s.sourceValue (s.source b k) := by
  simp only [State.sourcesExist, Bool.and_eq_true, beq_iff_eq] at he
  cases hsrc : s.source b k with
  | input i =>
    have hlt : i < s.x.length := he.1 ▸ source_input_lt hsrc
    have hget := List.getElem?_eq_getElem hlt
    simp only [State.sourceCell, State.sourceValue, List.getD_eq_getElem?_getD, hget, Option.getD_some]
    exact hin.1 i _ hget
  | key i =>
    have hget := List.getElem?_eq_getElem (source_key_lt hsrc : i < s.y.length)
    simp only [State.sourceCell, State.sourceValue, List.getD_eq_getElem?_getD, hget, Option.getD_some]
    exact hin.2 i _ hget
  | zero =>
    obtain ⟨z, hz'⟩ := Option.isSome_iff_exists.mp he.2
    simp only [State.sourceCell, State.sourceValue, hz', Option.getD_some]
    exact hz z hz'

end

/-! ## The range invariant (R127) -/

theorem rangeInv_mark {n : Nat} {f : Option Fault} {s : State} : RangeInv (s.mark n f) ↔ RangeInv s := by
  unfold RangeInv
  simp only [satisfies_mark, mark_binding]
  rfl

theorem rangeInv_iff {s : State} : RangeInv s ↔ ∀ w, Satisfies s w →
    AllBindings (fun b => Carries w False b.cell b.val) s ∧ ∀ z, s.z = some z → w (.f z) = 0 := by
  simp only [RangeInv, AllBindings, carries_false_iff, and_assoc]

theorem bodyOf_rangeInv {i : Instr} {s u : State} (hs : s.traceWf = true) (hrows : BindingRows s)
    (hp : s.params.fieldP.Prime) (hp' : 2 ^ 65 < s.params.fieldP) (h : RangeInv s)
    (hu : bodyOf i s = .ok u) : RangeInv u := by
  refine rangeInv_iff.mpr fun w hw => ?_
  have hws := hw.of_builds (bodyOf_builds hu)
  obtain ⟨hall, hz⟩ := rangeInv_iff.mp h w hws
  refine ⟨bodyOf_sound hs hp hp' hrows hu hw hall fun blk hi j => ?_, bodyOf_zero hs hu hw hz⟩
  subst hi
  exact carries_false_iff.mpr (gateDec_word hp' hws.field (ldblkBody_sound hs hu hw j).1)

/-- Settles O54: the gates make every result a Word when their operands are, and an LDBLK ties the source
cells of its block to limbs that `q_dec` makes Bytes. -/
theorem rangeInvariantKept : Obligations.RangeInvariantKept := by
  refine ⟨fun s t hs hrows hp hp' h ht => ?_, fun blk s t w hs hp' h ht hf hw => ?_⟩
  · obtain ⟨n, f, rfl⟩ | ⟨i, u, n, f, -, -, -, hu, rfl⟩ := step_mark ht
    · exact rangeInv_mark.mpr h
    · exact rangeInv_mark.mpr (bodyOf_rangeInv hs hrows hp hp' h hu)
  · obtain ⟨e, rfl⟩ | ⟨-, -, -, u, hu, rfl⟩ := exec_next ht
    · cases hf
    have hw' : Satisfies u w := satisfies_mark.mp hw
    have hws := hw'.of_builds (bodyOf_builds hu)
    have hrow := ldblkBody_sound hs hu hw'
    have hdec := fun j => gateDec_sound hp' hws.field (hrow j).1
    refine ⟨fun k hk => ?_, fun j => ⟨(hdec j).2, fun i => ⟨(hdec j).1 i, (hrow j).2 i, fun hzero => ?_⟩⟩⟩
    · have hsrc := (hrow ⟨k / 8, by omega⟩).2 ⟨k % 8, by omega⟩
      rw [show 8 * (k / 8) + k % 8 = k by omega] at hsrc
      exact hsrc ▸ (hdec _).1 _
    · obtain ⟨-, he, -⟩ := ldblkBody_ok.mp hu
      simp only [State.sourcesExist, Bool.and_eq_true] at he
      obtain ⟨z, hz⟩ := Option.isSome_iff_exists.mp he.2
      rw [(hrow j).2 i, hzero, State.sourceCell, hz]
      exact (h w hws).2.2 z hz

/-! ## The constraints determine the values (R44) -/

theorem determined_mark {n : Nat} {f : Option Fault} {s : State} :
    Determined (s.mark n f) ↔ Determined s := by
  unfold Determined AgreesOnInputs
  simp only [satisfies_mark, mark_binding]
  rfl

theorem determined_iff {s : State} : Determined s ↔ ∀ w, Satisfies s w → AgreesOnInputs s w →
    AllBindings (fun b => Carries w True b.cell b.val) s := by
  simp only [Determined, AllBindings, carries_true_iff]

/-- The limbs of a message row are the Bytes LDBLK read, so its F cell holds the word it computed. -/
theorem messageWord_sound {n : Nat} {j : Fin 16} {s : State} {w : Witness}
    (hp' : 2 ^ 65 < s.params.fieldP) (hw : ∀ c, w c < s.params.fieldP)
    (hdec : gateDec s w (s.cur + j.val))
    (hl : ∀ i : Fin 8, w (.l i (s.cur + j.val)) = s.messageByte n j i) :
    w (.f (s.cur + j.val)) = (messageWord s.params.fieldP (s.messageByte n j)).toNat := by
  obtain ⟨hbytes, hf⟩ := gateDec_sound hp' hw hdec
  have hb : ∀ i, s.messageByte n j i < 256 := fun i => hl i ▸ hbytes i
  rw [hf, messageWord_of_bytes hb, BitVec.toNat_ofNat, Nat.mod_eq_of_lt (limbSum_lt hb)]
  exact congrArg limbSum (funext hl)

theorem bodyOf_determined {i : Instr} {s u : State} (hs : s.traceWf = true) (hrows : BindingRows s)
    (hp : s.params.fieldP.Prime) (hp' : 2 ^ 65 < s.params.fieldP) (hr : RangeInv s) (h : Determined s)
    (hu : bodyOf i s = .ok u) : Determined u := by
  refine determined_iff.mpr fun w hw hin => ?_
  have hws := hw.of_builds (bodyOf_builds hu)
  have hh := (bodyOf_builds hu).sameHost
  have hin' : AgreesOnInputs s w := by
    unfold AgreesOnInputs at hin ⊢
    rwa [hh.x, hh.y] at hin
  refine bodyOf_sound hs hp hp' hrows hu hw (determined_iff.mp h w hws hin') fun blk hi j => ?_
  subst hi
  obtain ⟨hdec, hlimbs⟩ := ldblkBody_sound hs hu hw j
  obtain ⟨-, he, -⟩ := ldblkBody_ok.mp hu
  exact carries_of_eq (messageWord_sound hp' hws.field hdec fun i =>
    (hlimbs i).trans (sourceCell_value he hin' (hr w hws).2.2 _ _))

/-- Settles O55: the gates determine each result from its operands, and LDBLK ties its limbs to the input
and key cells. -/
theorem constraintsDetermineValues : Obligations.ConstraintsDetermineValues := by
  intro s t hs hrows hp hp' hr h ht
  obtain ⟨n, f, rfl⟩ | ⟨i, u, n, f, -, -, -, hu, rfl⟩ := step_mark ht
  · exact determined_mark.mpr h
  · exact determined_mark.mpr (bodyOf_determined hs hrows hp hp' hr h hu)

end Sys2Proof.Machine

/-! The honest witness (R41) satisfies every constraint a command adds, whatever the free cells hold; and so
what is accepted in a finalised state is the digest (R40, R43, R44, R248, R249). -/

namespace Sys2Proof.Machine

/-! ## Cells that hold a value -/

section
variable {s t : State} {c : Cell} {a : Nat} {row : TraceRow}

/-- A cell that holds a value keeps it. -/
theorem Extends.cell (h : Extends s t) (hh : SameHost s t) (hc : s.cell? c = some a) :
    t.cell? c = some a := by
  cases c with
  | f r =>
    obtain ⟨row, hr, he⟩ := Option.bind_eq_some_iff.mp hc
    obtain ⟨row', hr', hf, -⟩ := h.cells r row hr
    exact Option.bind_eq_some_iff.mpr ⟨row', hr', hf.trans he⟩
  | l i r =>
    obtain ⟨row, hr, he⟩ := Option.bind_eq_some_iff.mp hc
    obtain ⟨row', hr', -, hl, -⟩ := h.cells r row hr
    exact Option.bind_eq_some_iff.mpr ⟨row', hr', hl ▸ he⟩
  | k r =>
    obtain ⟨row, hr, he⟩ := Option.bind_eq_some_iff.mp hc
    obtain ⟨row', hr', -, -, hk⟩ := h.cells r row hr
    exact Option.bind_eq_some_iff.mpr ⟨row', hr', hk.trans he⟩
  | x i => exact (congrArg (·[i]?) hh.x).trans hc
  | y i => exact (congrArg (·[i]?) hh.y).trans hc
  | inst k => exact (congrArg (fun v => some v[k]) hh.inst).trans hc

theorem cell_pushRow (hc : s.cell? c = some a) : (s.pushRow row).cell? c = some a :=
  (extends_pushRow row s).cell (pushRow_sameHost row s) hc

theorem cell_pushRow_f (hs : s.traceWf = true) : (s.pushRow row).cell? (.f s.cur) = row.f := by
  rw [State.cell?, pushRow_trace_cur hs, Option.bind_some]

theorem cell_pushRow_l (hs : s.traceWf = true) (i : Fin 8) :
    (s.pushRow row).cell? (.l i s.cur) = row.l[i] := by
  rw [State.cell?, pushRow_trace_cur hs, Option.bind_some]

theorem cell_pushRow_k (hs : s.traceWf = true) : (s.pushRow row).cell? (.k s.cur) = row.k := by
  rw [State.cell?, pushRow_trace_cur hs, Option.bind_some]

/-- The limbs of a decomposed row. -/
theorem cell_decRow_l {b : Word} (hs : s.traceWf = true) (i : Fin 8) :
    (s.pushRow (decRow b)).cell? (.l i s.cur) = some (byteAt b i).toNat :=
  (cell_pushRow_l hs i).trans (leLimbs_getElem b i)

theorem BindingHolds.cell {b : Binding} (h : BindingHolds s b) : s.cell? b.cell = some b.val.toNat := by
  obtain ⟨row, hr, hf, -⟩ := h
  exact Option.bind_eq_some_iff.mpr ⟨row, hr, hf⟩

theorem BindingHolds.limb {b : Binding} (h : BindingHolds s b) (hk : b.kind = .row) (i : Fin 8) :
    s.cell? (.l i b.row) = some (byteAt b.val i).toNat := by
  obtain ⟨row, hr, -, hl⟩ := h
  exact Option.bind_eq_some_iff.mpr ⟨row, hr, hl hk ▸ leLimbs_getElem b.val i⟩

/-! ## The honest witness -/

theorem honest_of_cell (free : Witness) (hc : s.cell? c = some a) : s.honest free c = a := by
  rw [State.honest, hc, Option.getD_some]

/-- The honest witness of a longer circuit is one of the shorter circuit, its new cells taken as free. -/
theorem Extends.honest (h : Extends s t) (hh : SameHost s t) (free : Witness) :
    t.honest free = s.honest (t.honest free) := by
  funext c
  cases hc : s.cell? c with
  | none => rw [State.honest.eq_def s, hc, Option.getD_none]
  | some a => rw [honest_of_cell _ hc, honest_of_cell free (h.cell hh hc)]

end

/-- The honest witness meets every constraint, whatever the free cells hold, and no cell `I[k]` is tied. -/
structure Honest (s : State) : Prop where
  meets : ∀ free c, Imposes s c → Meets s (s.honest free) c
  untied : ∀ q ∈ s.eq, ∀ k, q.2 ≠ .inst k

theorem honestInv_iff {s : State} (hg : s.gadget ≠ .finalized) : HonestInv s ↔ Honest s := by
  constructor
  · rintro ⟨h1, h2, h3, h4⟩
    have hno : ∀ q ∈ s.eq, ∀ k, q.2 ≠ .inst k := fun q hq k hk => hg (h4 q hq k hk).1
    refine ⟨fun free c hc => ?_, hno⟩
    cases hc with
    | copy h => exact h1 free _ h (hno _ h)
    | fixed h hk => exact h2 free _ _ _ h hk
    | gate h hq => exact h3 free _ _ _ h hq
  · rintro ⟨h, hno⟩
    exact ⟨fun free q hq _ => h free _ (.copy hq), fun free r row a hr hk => h free _ (.fixed hr hk),
      fun free r row q hr hq => h free _ (.gate hr hq), fun q hq k hk => absurd hk (hno q hq k)⟩

section
variable {s t : State}

/-- The honest witness of a longer circuit meets the old constraints; the new ones have to be shown. -/
theorem Honest.extend (h : Honest s) (hx : Extends s t) (hh : SameHost s t)
    (hnew : ∀ free c, Imposes t c → Imposes s c ∨ Meets t (t.honest free) c)
    (huntied : ∀ q ∈ t.eq, q ∈ s.eq ∨ ∀ k, q.2 ≠ .inst k) : Honest t where
  meets free c hc := by
    obtain hold | hm := hnew free c hc
    · rw [hx.honest hh]
      exact hh.meets.mpr (h.meets _ c hold)
    · exact hm
  untied q hq := (huntied q hq).elim (h.untied q) id

/-- `Honest` is a matter of the circuit and of what the host sets. -/
theorem Honest.congr (h : Honest s) (htr : t.trace = s.trace) (heq : t.eq = s.eq)
    (hh : SameHost s t) : Honest t := by
  refine h.extend ((Extends.refl s).congr htr heq) hh (fun free c hc => .inl ?_) fun q hq => .inl (heq ▸ hq)
  cases hc with
  | copy hq => exact .copy (heq ▸ hq)
  | fixed hr hk => exact .fixed (htr ▸ hr) hk
  | gate hr hq => exact .gate (htr ▸ hr) hq

theorem Honest.publish (h : Honest s) (rd : Operand) (b : Binding) : Honest (publish rd b s) :=
  h.congr (publish_trace ..) (publish_eq ..) (Builds.refl.publish rd b).sameHost

theorem Honest.pushRow {row : TraceRow} (h : Honest s) (hs : s.traceWf = true)
    (hgate : ∀ free q, row.sel.isSet q = true → gateHolds s ((s.pushRow row).honest free) q s.cur) :
    Honest (s.pushRow row) := by
  have hlen := ((traceWf_iff s).mp hs).1
  have hh := pushRow_sameHost row s
  have hrow : ∀ {r : Nat} {new : TraceRow}, (s.pushRow row).trace[r]? = some new →
      s.trace[r]? = some new ∨ r = s.cur ∧ row = new := fun {r new} hr => by
    rw [pushRow_trace, List.getElem?_append] at hr
    split at hr
    · exact .inl hr
    · rw [List.getElem?_singleton] at hr
      split at hr
      · exact .inr ⟨by omega, Option.some.inj hr⟩
      · cases hr
  refine h.extend (extends_pushRow row s) hh (fun free c hc => ?_) fun q hq => .inl hq
  cases hc with
  | copy hq => exact .inl (.copy hq)
  | fixed hr hk =>
    obtain hr | ⟨rfl, rfl⟩ := hrow hr
    · exact .inl (.fixed hr hk)
    · exact .inr (honest_of_cell free ((cell_pushRow_k hs).trans hk))
  | gate hr hq =>
    obtain hr | ⟨rfl, rfl⟩ := hrow hr
    · exact .inl (.gate hr hq)
    · exact .inr (hh.meets (c := .gate _ _) |>.mpr (hgate free _ hq))

/-- A row without selectors. -/
theorem Honest.plainRow {row : TraceRow} (h : Honest s) (hs : s.traceWf = true) (hsel : row.sel = {}) :
    Honest (s.pushRow row) :=
  h.pushRow hs fun _ q hq => by rw [hsel] at hq; cases q <;> cases hq

/-- A row with `q_dec` alone has only the gate of `q_dec`. -/
theorem isSet_qDec_only {q : Selector} : ({ qDec := true } : Selectors).isSet q = true ↔ q = .qDec := by
  cases q <;> decide

theorem Honest.decRow (h : Honest s) (hs : s.traceWf = true) (hl : s.loaded = true) (a : Word) :
    Honest (s.pushRow (decRow a)) := by
  refine h.pushRow hs fun free q hq => ?_
  obtain rfl := isSet_qDec_only.mp hq
  exact gateDec_of_word hl (honest_of_cell free (cell_pushRow_f hs))
    fun i => honest_of_cell free (cell_decRow_l hs i)

theorem Honest.copyAll {ps : List (Cell × Cell)} (h : Honest s)
    (hps : ∀ free, ∀ q ∈ ps, s.honest free q.1 = s.honest free q.2)
    (huntied : ∀ q ∈ ps, ∀ k, q.2 ≠ .inst k) : Honest (s.copyAll ps) := by
  refine h.extend (extends_copyAll ps s) (Builds.refl.copyAll ps).sameHost (fun free c hc => ?_)
    fun q hq => (List.mem_append.mp hq).imp id (huntied q)
  cases hc with
  | copy hq => exact (List.mem_append.mp hq).imp .copy (hps free _)
  | fixed hr hk => exact .inl (.fixed hr hk)
  | gate hr hq => exact .inl (.gate hr hq)

/-- A copy constraint between two cells that hold the same value. -/
theorem Honest.copy {c d : Cell} {a : Nat} (h : Honest s) (hc : s.cell? c = some a)
    (hd : s.cell? d = some a) (hinst : ∀ k, d ≠ .inst k) : Honest (s.copy c d) := by
  refine Honest.copyAll (ps := [(c, d)]) h (fun free q hq => ?_) fun q hq => ?_
  all_goals obtain rfl := List.mem_singleton.mp hq
  · exact (honest_of_cell free hc).trans (honest_of_cell free hd).symm
  · exact hinst

theorem Honest.sel {q : Selector} {r : Nat} (h : Honest s)
    (hg : ∀ free, gateHolds s (s.honest free) q r) : Honest (s.sel q r) := by
  have hh := (Builds.refl.sel q r (s := s)).sameHost
  have hhon : ∀ free, (s.sel q r).honest free = s.honest free := fun free => by
    funext c
    rw [State.honest, sel_cell, State.honest]
  refine h.extend (extends_sel q r s) hh (fun free c hc => ?_) fun q hq => .inl hq
  cases hc with
  | copy hq => exact .inl (.copy hq)
  | fixed hr hk =>
    rw [sel_trace, List.getElem?_modify] at hr
    obtain ⟨row, hrow, rfl⟩ := Option.map_eq_some_iff.mp hr
    refine .inl (.fixed hrow ?_)
    split at hk <;> exact hk
  | @gate q' r' _ hr hq =>
    rw [sel_trace, List.getElem?_modify] at hr
    obtain ⟨row, hrow, rfl⟩ := Option.map_eq_some_iff.mp hr
    split at hq
    case isFalse => exact .inl (.gate hrow hq)
    case isTrue he =>
      rw [Selectors.isSet_enable, Bool.or_eq_true, decide_eq_true_eq] at hq
      obtain hq | rfl := hq
      · exact .inl (.gate hrow hq)
      · subst he
        exact .inr (hhon free ▸ (hh.meets (c := .gate q' r)).mpr (hg free))

end

/-! ## The operations are complete -/

section
variable {s t u : State} {rd : Operand}

/-- A row and a copy constraint from its F cell. -/
theorem Honest.copyRow {row : TraceRow} {c : Cell} {a : Nat} (h : Honest (s.pushRow row))
    (hs : s.traceWf = true) (hf : row.f = some a) (hc : s.cell? c = some a)
    (hinst : ∀ k, c ≠ .inst k) : Honest ((s.pushRow row).copy (.f s.cur) c) :=
  h.copy ((cell_pushRow_f hs).trans hf) (cell_pushRow hc) hinst

theorem copy_cell (c d e : Cell) (s : State) : (s.copy c d).cell? e = s.cell? e := rfl

/-- R143. -/
theorem addOnto_honest {a : Word} {b : Binding} {r : Nat} (h : Honest s) (hs : s.traceWf = true)
    (hl : s.loaded = true) (hr : r + 1 = s.cur) (ha : s.cell? (.f r) = some a.toNat)
    (hb : s.cell? b.cell = some b.val.toNat) (hu : addOnto rd a b r s = .ok u) : Honest u := by
  obtain ⟨room, rfl⟩ := addOnto_ok.mp hu
  have hs' := pushRow_copy_traceWf (carryRow b.val (carryOf a b.val)) (.f s.cur) b.cell hs (by omega)
  refine Honest.publish (Honest.sel (((h.plainRow hs rfl).copyRow hs rfl hb nofun).decRow hs' hl _)
    fun free => ?_) _ _
  refine gateAdd_complete (a := a) (b := b.val) ?_ ?_ ?_ ?_ <;> refine honest_of_cell free ?_
  · exact cell_pushRow (cell_pushRow ha)
  · exact cell_pushRow (hr ▸ cell_pushRow_f hs)
  · exact cell_pushRow (hr ▸ cell_pushRow_l hs 0)
  · exact (congrArg (· + 1) hr) ▸ cell_pushRow_f hs'

/-- R163. -/
theorem xorOnto_honest {a : Word} {b : Binding} {r : Nat} (h : Honest s) (hs : s.traceWf = true)
    (hl : s.loaded = true) (hr : r + 1 = s.cur) (ha : ∀ i, s.cell? (.l i r) = some (byteAt a i).toNat)
    (hb : s.cell? b.cell = some b.val.toNat) (hu : xorOnto rd a b r s = .ok u) : Honest u := by
  obtain ⟨room, rfl⟩ := xorOnto_ok.mp hu
  have hs' := pushRow_copy_traceWf (decRow b.val) (.f s.cur) b.cell hs (by omega)
  refine Honest.publish (Honest.sel (((h.decRow hs hl _).copyRow hs rfl hb nofun).decRow hs' hl _)
    fun free => ?_) _ _
  refine gateXor_complete (a := a) (b := b.val) hl ?_ ?_ ?_ <;> refine fun i => honest_of_cell free ?_
  · exact cell_pushRow (cell_pushRow (ha i))
  · exact cell_pushRow (hr ▸ cell_decRow_l hs i)
  · exact (congrArg (· + 1) hr) ▸ cell_decRow_l hs' i

/-- R202. -/
theorem negRows_honest {x : Binding} (h : Honest s) (hs : s.traceWf = true)
    (hx : s.cell? x.cell = some x.val.toNat) (hu : negRows x s = .ok u) : Honest u := by
  obtain ⟨room, rfl⟩ := negRows_ok.mp hu
  have hs' := pushRow_copy_traceWf (wordRow x.val) (.f s.cur) x.cell hs (by omega)
  refine Honest.sel (((h.plainRow hs rfl).copyRow hs rfl hx nofun).plainRow hs' rfl) fun free => ?_
  refine gateNot_complete (a := x.val) ?_ ?_ <;> refine honest_of_cell free ?_
  · exact cell_pushRow (cell_pushRow_f hs)
  · exact cell_pushRow_f hs'

theorem decomposedSource_honest {b : Binding} {r : Nat} (h : Honest s) (hs : s.traceWf = true)
    (hl : s.loaded = true) (hb : BindingHolds s b) (ht : decomposedSource b s = .ok (r, t)) :
    Honest t ∧ t.loaded = true ∧ ∀ i, t.cell? (.l i r) = some (byteAt b.val i).toNat := by
  obtain ⟨hk, ht⟩ | ⟨-, room, ht⟩ := decomposedSource_ok.mp ht <;> cases ht
  · exact ⟨h, hl, hb.limb hk⟩
  · exact ⟨(h.decRow hs hl _).copyRow hs rfl hb.cell nofun, hl, cell_decRow_l hs⟩

/-- R182. -/
theorem limbRotBody_honest {k : Fin 8} {rs1 : Operand} (hk : k ∈ [2, 3, 4]) (h : Honest s)
    (hs : s.traceWf = true) (hl : s.loaded = true) (hv : BindingValues s)
    (hu : limbRotBody k rd rs1 s = .ok u) : Honest u := by
  obtain ⟨b, r, t, hb, ht, room, rfl⟩ := limbRotBody_ok.mp hu
  have hst := decomposedSource_traceWf hs ht
  obtain ⟨h, hl, hlimb⟩ := decomposedSource_honest h hs hl (hv.1 _ b hb) ht
  have hcopies : ∀ q ∈ limbCopies k t.cur r, ∃ i, q = (.l i t.cur, .l (i + k) r) := by
    simp only [limbCopies, List.forall_mem_cons, List.not_mem_nil]
    exact ⟨⟨0, rfl⟩, ⟨1, rfl⟩, ⟨2, rfl⟩, ⟨3, rfl⟩, ⟨4, rfl⟩, ⟨5, rfl⟩, ⟨6, rfl⟩, ⟨7, rfl⟩, nofun⟩
  refine Honest.publish (Honest.copyAll (h.decRow hst hl _) (fun free q hq => ?_) fun q hq => ?_) _ _
  all_goals obtain ⟨i, rfl⟩ := hcopies q hq
  · rw [honest_of_cell free (cell_decRow_l hst i), honest_of_cell free (cell_pushRow (hlimb (i + k))),
      byteAt_rotr b.val hk i]
  · nofun

theorem rot63Source_honest {b : Binding} {r : Nat} (h : Honest s) (hs : s.traceWf = true)
    (hrows : BindingRows s) (hb : BindingHolds s b) (ht : rot63Source b s = .ok (r, t)) :
    Honest t ∧ r + 1 = t.cur ∧ t.loaded = s.loaded ∧ t.cell? (.f r) = some b.val.toNat := by
  obtain ⟨⟨a, ha, hab⟩, ht⟩ | ⟨-, room, ht⟩ := rot63Source_ok.mp ht <;> cases ht
  · have hrow := (hrows.2 a ha).2
    have hr : s.cur - 1 = b.row := by omega
    exact ⟨h, by omega, rfl, hr ▸ hb.cell⟩
  · exact ⟨(h.plainRow hs rfl).copyRow hs rfl hb.cell nofun, rfl, rfl, cell_pushRow_f hs⟩

/-- R190. -/
theorem rotr63Body_honest {rs1 : Operand} (h : Honest s) (hs : s.traceWf = true)
    (hl : s.loaded = true) (hrows : BindingRows s) (hv : BindingValues s)
    (hu : rotr63Body rd rs1 s = .ok u) : Honest u := by
  obtain ⟨b, r, t, hb, ht, room, rfl⟩ := rotr63Body_ok.mp hu
  have hst := rot63Source_traceWf hs ht
  have hst' := pushRow_traceWf (row := highBitRow b.val) hst (by omega)
  obtain ⟨h, hr, hlt, hf⟩ := rot63Source_honest h hs hrows (hv.1 _ b hb) ht
  refine Honest.publish (Honest.sel ((h.plainRow hst rfl).decRow hst' (hlt.trans hl) _) fun free => ?_) _ _
  refine gateRot63_complete (a := b.val) ?_ ?_ ?_ <;> refine honest_of_cell free ?_
  · exact cell_pushRow (cell_pushRow hf)
  · exact cell_pushRow (hr ▸ cell_pushRow_f hst)
  · exact (congrArg (· + 1) hr) ▸ cell_pushRow_f hst'

/-- R210. -/
theorem constRow_honest {a : Word} (h : Honest s) (hs : s.traceWf = true) :
    Honest ((s.pushRow (fixedRow a)).copy (.f s.cur) (.k s.cur)) :=
  (h.plainRow hs rfl).copy (a := a.toNat) (cell_pushRow_f hs) (cell_pushRow_k hs) nofun

theorem constRows_honest {as : List Word} (h : Honest s) (hs : s.traceWf = true)
    (hu : constRows as s = .ok u) : Honest u := by
  induction as generalizing s with
  | nil => cases hu; exact h
  | cons a as ih =>
    obtain ⟨t, ht, hu⟩ := except_bind_ok.mp hu
    have hst := constRow_traceWf hs ht
    obtain ⟨-, rfl⟩ := constRow_ok.mp ht
    exact ih (constRow_honest h hs) hst hu

/-- R218, R220: the rows of a block whose sources hold Bytes. -/
theorem messageRows_honest {n : Nat} {js : List (Fin 16)} (h : Honest t) (hs : t.traceWf = true)
    (hx : Extends s t) (hh : SameHost s t) (hl : s.loaded = true) (he : s.sourcesExist = true)
    (hbytes : blockInRange s n = true) (hz : ∀ z, s.z = some z → s.cell? (.f z) = some 0)
    (hu : messageRows s n js t = .ok u) : Honest u := by
  induction js generalizing t with
  | nil => cases hu; exact h
  | cons j js ih =>
    obtain ⟨t', ht, hu⟩ := except_bind_ok.mp hu
    have hst := emitRow_traceWf hs ht
    obtain ⟨room, rfl⟩ := emitRow_ok.mp ht
    have hb := blockInRange_messageByte hbytes j
    have hx' := hx.trans (extends_pushRow (messageRow s n j) t)
    have hh' : SameHost s (t.pushRow (messageRow s n j)) := hh.congr rfl rfl rfl rfl rfl rfl rfl
    have hlimb : ∀ free i, (t.pushRow (messageRow s n j)).honest free (.l i t.cur) =
        s.messageByte n j i := fun free i =>
      honest_of_cell free ((cell_pushRow_l hs i).trans (by simp [messageRow]))
    have hrow : Honest (t.pushRow (messageRow s n j)) := by
      refine h.pushRow hs fun free q hq => ?_
      obtain rfl := isSet_qDec_only.mp hq
      refine gateDec_complete (hh.loaded.trans hl) (fun i => hlimb free i ▸ hb i) ?_
      simp only [hlimb]
      exact honest_of_cell free ((cell_pushRow_f hs).trans (congrArg some (messageFelt_of_bytes hb)))
    refine ih (Honest.copyAll hrow (fun free q hq => ?_) fun q hq k => ?_) hst
      (hx'.trans (extends_copyAll _ _)) (hh'.congr rfl rfl rfl rfl rfl rfl rfl) hu
    all_goals obtain ⟨i, -, rfl⟩ := List.mem_map.mp hq
    · refine (hlimb free i).trans (sourceCell_value he ⟨fun m a ha => ?_, fun m a ha => ?_⟩
        (fun z hz' => honest_of_cell free (hx'.cell hh' (hz z hz'))) n _).symm
      · exact honest_of_cell free (hx'.cell hh' (c := .x m) ha)
      · exact honest_of_cell free (hx'.cell hh' (c := .y m) ha)
    · cases s.source n (8 * j.val + i.val) <;> nofun

/-- R124, R248. -/
theorem decomposeH_honest {js : List (Fin 8)} (h : Honest s) (hs : s.traceWf = true)
    (hl : s.loaded = true) (hv : ∀ (j : Fin 8) b, s.h[j] = some b → BindingHolds s b)
    (hu : decomposeH js s = .ok u) : Honest u := by
  induction js generalizing s with
  | nil => cases hu; exact h
  | cons j js ih =>
    obtain ⟨b, hb, ⟨-, hu⟩ | ⟨-, room, hu⟩⟩ := decomposeH_cons_ok.mp hu
    · exact ih h hs hl hv hu
    · have hs' := pushRow_copy_traceWf (decRow b.val) (.f s.cur) b.cell hs room
      have hbind := (Builds.refl (s := (s.pushRow (decRow b.val)).copy (.f s.cur) b.cell)).bind (.h j)
        ⟨b.val, s.cur, .row⟩
      refine ih (((h.decRow hs hl _).copyRow hs rfl (hv j b hb).cell nofun).congr (bind_trace ..) (bind_eq ..)
        hbind.sameHost) ((bind_traceWf ..).trans hs') ((bind_loaded ..).trans hl) (fun i c hc => ?_) hu
      refine hbind.extends.bindingHolds ?_
      have hc' := (binding_bind (.h j) (.h i) _ _).symm.trans hc
      split at hc'
      · obtain rfl := Option.some.inj hc'
        exact ((backed_decRow hs b.val).copy _ _).2
      · exact ((extends_pushRow _ s).congr rfl rfl).bindingHolds (hv i c hc')
end

end Sys2Proof.Machine

/-! The honest witness after every command, the digest cells OUT exposes, and what is accepted of a finalised
state (R40, R41, R43, R44, R248, R249). -/

namespace Sys2Proof.Machine

section
variable {s u : State}

/-! ## Every command is complete -/

theorem wordBody_honest {i : Instr} {rd : Operand} (hd : i.dest? = some rd) (h : Honest s)
    (hs : s.traceWf = true) (hl : s.loaded = true) (hrows : BindingRows s) (hv : BindingValues s)
    (hu : bodyOf i s = .ok u) : Honest u := by
  cases i with
  | init | ldblk | vinit | out => cases hd
  | row rd rs1 =>
    obtain ⟨b, hb, room, rfl⟩ := rowBody_ok.mp hu
    exact ((h.decRow hs hl _).copyRow hs rfl (hv.1 _ b hb).cell nofun).publish _ _
  | add rd rs1 rs2 =>
    obtain ⟨a, b, ha, hb, hu⟩ := addBody_ok.mp hu
    have room := (addOnto_ok.mp hu).1
    simp only [copy_cur, pushRow_cur, copy_params, pushRow_params] at room
    exact addOnto_honest ((h.plainRow hs rfl).copyRow hs rfl (hv.1 _ a ha).cell nofun)
      (pushRow_copy_traceWf _ _ _ hs (by omega)) hl rfl (cell_pushRow_f (row := wordRow a.val) hs)
      (cell_pushRow (hv.1 _ b hb).cell) hu
  | addp rd rs2 =>
    obtain ⟨a, b, ha, hb, hu⟩ := addpBody_ok.mp hu
    have hrow := (hrows.2 a ha).2
    rw [← hrow, Nat.add_sub_cancel] at hu
    exact addOnto_honest h hs hl hrow (hv.2 a ha).cell (hv.1 _ b hb).cell hu
  | xor rd rs1 rs2 =>
    obtain ⟨a, b, ha, hb, hu⟩ := xorBody_ok.mp hu
    have room := (xorOnto_ok.mp hu).1
    simp only [copy_cur, pushRow_cur, copy_params, pushRow_params] at room
    exact xorOnto_honest ((h.decRow hs hl _).copyRow hs rfl (hv.1 _ a ha).cell nofun)
      (pushRow_copy_traceWf _ _ _ hs (by omega)) hl rfl (cell_decRow_l hs)
      (cell_pushRow (hv.1 _ b hb).cell) hu
  | xorp rd rs2 =>
    obtain ⟨a, b, ha, hk, hb, hu⟩ := xorpBody_ok.mp hu
    have hrow := (hrows.2 a ha).2
    rw [← hrow, Nat.add_sub_cancel] at hu
    exact xorOnto_honest h hs hl hrow ((hv.2 a ha).limb hk) (hv.1 _ b hb).cell hu
  | not rd rs1 =>
    obtain ⟨x, t, hx, ht, rfl⟩ := notBody_ok.mp hu
    exact (negRows_honest h hs (hv.1 _ x hx).cell ht).publish _ _
  | rotr16 rd rs1 | rotr24 rd rs1 | rotr32 rd rs1 => exact limbRotBody_honest (by decide) h hs hl hv hu
  | rotr63 rd rs1 => exact rotr63Body_honest h hs hl hrows hv hu

theorem vinitBody_honest {n : Nat} (h : Honest s) (hs : s.traceWf = true) (hv : BindingValues s)
    (hu : vinitBody n s = .ok u) : Honest u := by
  obtain ⟨-, -, -, x, f, t, hx, room, ht, rfl⟩ := vinitBody_ok.mp hu
  have hs' := pushRow_copy_traceWf (fixedRow (counterWord s n)) (.f s.cur) (.k s.cur) hs room
  have ht : Honest t := by
    obtain ⟨-, w, hw, ht⟩ | ⟨-, ht⟩ := finalWord_ok.mp ht <;> cases ht
    · exact negRows_honest (constRow_honest h hs) hs' (cell_pushRow (hv.1 (.iv 6) x hx).cell) hw
    · exact constRow_honest h hs
  exact ht.congr rfl rfl (Builds.refl.write _ _ _ _ _ _ _).sameHost

/-- The zero cell of a state after INIT holds 0. -/
theorem GadgetInv.zero_cell (h : GadgetInv s) (hg : s.gadget ≠ .uninitialized) :
    ∀ z, s.z = some z → s.cell? (.f z) = some 0 := by
  obtain ⟨r, row, hz, hrow, hf⟩ := h.z hg
  intro z hz'
  obtain rfl := Option.some.inj (hz.symm.trans hz')
  exact Option.bind_eq_some_iff.mpr ⟨row, hrow, hf⟩

theorem bodyOf_honest {i : Instr} (hi : i ≠ .out) (h : Honest s) (hs : s.traceWf = true)
    (hrows : BindingRows s) (hv : BindingValues s) (hg : GadgetInv s)
    (hc : s.params.hostRangeCheck = true) (hl : s.loaded = true) (ha : acceptsOf i s.gadget = true)
    (hu : bodyOf i s = .ok u) : Honest u := by
  cases i with
  | out => exact absurd rfl hi
  | init =>
    obtain ⟨-, -, -, -, room, rfl⟩ := initBody_ok.mp hu
    have hrun := constRows_ok.mpr ⟨.inr (show s.cur + (initConstants s.keyLen s.params.outLen).length ≤ _
      from room), rfl⟩
    exact (constRows_honest h hs hrun).congr rfl rfl (Builds.refl.write _ _ _ _ _ _ _).sameHost
  | ldblk blk =>
    have hne : s.gadget ≠ .uninitialized := by
      obtain e | e := acceptsLdblk_iff.mp ha <;> rw [e] <;> nofun
    obtain ⟨-, he, hbytes, room, rfl⟩ := ldblkBody_ok.mp hu
    have hrun := (messageRows_ok (s := s) (b := blk.toNat) (js := List.finRange 16)).mpr
      ⟨.inr (by rw [List.length_finRange]; exact room), rfl⟩
    exact (messageRows_honest h hs (Extends.refl s) Builds.refl.sameHost hl he (hbytes hc)
      (hg.zero_cell hne) hrun).congr rfl rfl (Builds.refl.write _ _ _ _ _ _ _).sameHost
  | vinit blk => exact vinitBody_honest h hs hv hu
  | row rd | add rd | addp rd | xor rd | xorp rd | not rd | rotr16 rd | rotr24 rd | rotr32 rd
  | rotr63 rd => exact wordBody_honest (rd := rd) rfl h hs hl hrows hv hu

/-! ## The digest cells (R65, R248, R249) -/

theorem mem_digestCopies {q : Cell × Cell} : q ∈ digestCopies s ↔
    ∃ k : Fin 64, k.val < s.params.outLen ∧ s.digestCell? k = some q.1 ∧ q.2 = .inst k := by
  obtain ⟨c, d⟩ := q
  simp only [digestCopies, List.mem_filterMap, List.mem_filter, List.mem_finRange, true_and,
    decide_eq_true_eq, Option.map_eq_some_iff, Prod.mk.injEq]
  constructor
  · rintro ⟨k, hk, d', hd', rfl, rfl⟩
    exact ⟨k, hk, hd', rfl⟩
  · rintro ⟨k, hk, hd', rfl⟩
    exact ⟨k, hk, c, hd', rfl, rfl⟩

/-- OUT ties the digest cells, and nothing else, to cells of the column `I`. -/
theorem outBody_honestInv (h : Honest s) (hs : s.traceWf = true) (hl : s.loaded = true)
    (hv : BindingValues s) (hu : outBody s = .ok u) : HonestInv u ∧ DigestExposed u := by
  obtain ⟨-, w, hw, rfl⟩ := outBody_ok.mp hu
  have hon := decomposeH_honest h hs hl (fun j => hv.1 (.h j)) hw
  have hrow := (decomposeH_binding hs hw).2
  refine ⟨⟨fun free q hq hne => ?_, fun free r row a hr hk => hon.meets free _ (.fixed hr hk),
    fun free r row q hr hq => ?_, fun q hq k hk => ?_⟩, fun _ => ⟨fun j => hrow j (List.mem_finRange j),
      fun k hk => ?_⟩⟩
  · obtain hq | hq := List.mem_append.mp hq
    · exact hon.meets free _ (.copy hq)
    · obtain ⟨k, -, -, hk⟩ := mem_digestCopies.mp hq
      exact absurd hk (hne k)
  · have hb := (Builds.refl (s := w)).copyAll (digestCopies w) |>.write w.v w.m w.h w.iv none .finalized w.z
    exact hb.sameHost.meets (c := .gate q r) |>.mpr (hon.meets free _ (.gate hr hq))
  · obtain hq | hq := List.mem_append.mp hq
    · exact absurd hk (hon.untied q hq k)
    · obtain ⟨k', hlt, hd, hk'⟩ := mem_digestCopies.mp hq
      obtain rfl := Cell.inst.inj (hk'.symm.trans hk)
      exact ⟨rfl, hlt, hd⟩
  · obtain ⟨b, hb, -⟩ := hrow (digestWord k) (List.mem_finRange _)
    have hd : w.digestCell? k = some (.l (digestLane k) b.row) := congrArg (Option.map _) hb
    exact ⟨_, hd, List.mem_append_right _ (mem_digestCopies.mpr ⟨k, hk, hd, rfl⟩)⟩

end

/-! ## The invariant -/

section
variable {n : Nat} {f : Option Fault} {s : State}

theorem honestInv_mark : HonestInv (s.mark n f) ↔ HonestInv s := by
  have hgate : ∀ w q r, gateHolds (s.mark n f) w q r ↔ gateHolds s w q r := fun w q r =>
    (mark_sameHost n f s).meets (c := .gate q r)
  constructor <;> rintro ⟨h1, h2, h3, h4⟩
  · exact ⟨h1, h2, fun free r row q hr hq => (hgate _ q r).mp (h3 free r row q hr hq), h4⟩
  · exact ⟨h1, h2, fun free r row q hr hq => (hgate _ q r).mpr (h3 free r row q hr hq), h4⟩

theorem digestExposed_mark : DigestExposed (s.mark n f) ↔ DigestExposed s := Iff.rfl

end

/-- Only OUT leaves the machine finalised. -/
theorem bodyOf_ne_finalized {i : Instr} {s u : State} (hi : i ≠ .out)
    (ha : acceptsOf i s.gadget = true) (hu : bodyOf i s = .ok u) : u.gadget ≠ .finalized := by
  have hs := acceptsOf_ne_finalized ha
  cases i with
  | out => exact absurd rfl hi
  | init => obtain ⟨-, -, -, -, -, rfl⟩ := initBody_ok.mp hu; nofun
  | ldblk blk => obtain ⟨-, -, -, -, rfl⟩ := ldblkBody_ok.mp hu; nofun
  | vinit blk =>
    obtain ⟨-, -, -, -, hg, -⟩ := vinitBody_frame hu
    exact hg ▸ hs
  | row rd | add rd | addp rd | xor rd | xorp rd | not rd | rotr16 rd | rotr24 rd | rotr32 rd
  | rotr63 rd =>
    obtain ⟨b, tr, c, e, rfl, -⟩ := wordBody_ok (rd := rd) rfl hu
    rwa [publish_gadget, grow_gadget]

/-- Settles O53: no command runs once the machine is finalised, so until OUT no cell `I[k]` is tied
and the honest witness meets every constraint (`bodyOf_honest`); OUT then ties the digest cells. -/
theorem honestWitnessInvariantKept : Obligations.HonestWitnessInvariantKept := by
  intro s t hs hrows hv hg hc _ h hd ht
  obtain ⟨n, f, rfl⟩ | ⟨i, u, n, f, -, hl, ha, hu, rfl⟩ := step_mark ht
  · exact ⟨honestInv_mark.mpr h, digestExposed_mark.mpr hd⟩
  · have hon := (honestInv_iff (acceptsOf_ne_finalized ha)).mp h
    rw [honestInv_mark, digestExposed_mark]
    by_cases hi : i = .out
    · subst hi
      exact outBody_honestInv hon hs hl hv hu
    · have hne := bodyOf_ne_finalized hi ha hu
      exact ⟨(honestInv_iff hne).mpr (bodyOf_honest hi hon hs hrows hv hg hc hl ha hu),
        fun he => absurd he hne⟩

/-! ## What is accepted -/

/-- In a finalised state a digest cell below `nn` holds its digest byte, and every witness that holds the
machine's inputs has that byte there. -/
theorem digest_cell_byte {s : State} (hrows : BindingRows s) (hv : BindingValues s)
    (hd : DigestExposed s) (hdet : Determined s) (hp : 2 ^ 65 < s.params.fieldP)
    (hg : s.gadget = .finalized) {k : Fin 64} (hk : k.val < s.params.outLen) :
    ∃ d a, s.digestCell? k = some d ∧ (d, Cell.inst k) ∈ s.eq ∧ s.digestByte? k = some a ∧
      s.cell? d = some a.toNat ∧ ∀ w, Satisfies s w → AgreesOnInputs s w → w d = a.toNat := by
  obtain ⟨hword, htied⟩ := hd hg
  obtain ⟨b, hb, hkind⟩ := hword (digestWord k)
  obtain ⟨d, hd, hmem⟩ := htied k hk
  have hcell : s.digestCell? k = some (.l (digestLane k) b.row) := congrArg (Option.map _) hb
  obtain rfl := Option.some.inj (hcell.symm.trans hd)
  refine ⟨_, byteAt b.val (digestLane k), hd, hmem, congrArg (Option.map _) hb,
    (hv.1 (.h (digestWord k)) b hb).limb hkind _, fun w hw hin => ?_⟩
  obtain ⟨row, hrow, hdec⟩ := hrows.1 (.h (digestWord k)) b hb
  obtain ⟨hl, hf⟩ := gateDec_sound hp hw.field (hw.gates _ row .qDec hrow (hdec.mpr hkind))
  have hval : w (.f b.row) = b.val.toNat := (hdet w hw hin).1 (.h (digestWord k)) b hb
  have hbyte := byteAt_limbSum hl (digestLane k)
  rw [← hf, hval, BitVec.ofNat_toNat, BitVec.setWidth_eq] at hbyte
  exact hbyte.symm

/-- Settles O56: with the digest bytes in the column `I` the honest witness meets the
copies of OUT too; and an accepted public value is tied to a digest cell, where every witness has the digest byte. -/
theorem acceptedDigestIsTheComputedOne : Obligations.AcceptedDigestIsTheComputedOne := by
  intro s hrows hv hgi hon hd hdet hp hg
  have hbyte := fun {k : Fin 64} => digest_cell_byte (k := k) hrows hv hd hdet hp hg
  have hlen : s.params.outLen ≤ 64 := (hgi.sizes (by rw [hg]; nofun)).2.1
  refine ⟨fun free hfield hinst => ⟨⟨hfield, fun q hq => ?_, hon.fixed free, hon.gates free⟩, ?_, ?_⟩,
    fun w pub ⟨hw, _, hpub⟩ hin k hk => ?_⟩
  · by_cases hq2 : ∃ k, q.2 = .inst k
    · obtain ⟨k, hk⟩ := hq2
      obtain ⟨-, hlt, hcell⟩ := hon.instances q hq k hk
      obtain ⟨d, a, hd, -, ha, hda, -⟩ := hbyte hlt
      obtain rfl := Option.some.inj (hd.symm.trans hcell)
      have hi := hinst k hlt
      rw [ha] at hi
      rw [honest_of_cell free hda, hk, honest_of_cell (c := .inst k) free rfl]
      exact Option.some.inj hi
    · exact hon.copies free q hq (not_exists.mp hq2)
  · simpa using hlen
  · intro k hk
    rw [honest_of_cell (c := .inst k) free rfl, List.getElem?_take_of_lt hk]
    simp
  · obtain ⟨d, a, -, hmem, ha, -, hw'⟩ := hbyte hk
    rw [hpub k hk, ha, ← hw.copies _ hmem, hw' w hw hin]
    rfl

/-! ## The start state (R45) -/

theorem reset_binding (o : Operand) : State.reset.binding o = none := by
  cases o <;> simp [State.binding, State.reset]

theorem reset_allBindings (Q : Binding → Prop) : AllBindings Q State.reset :=
  ⟨fun o _ h => absurd ((reset_binding o).symm.trans h) nofun, nofun⟩

/-- Settles O9. -/
theorem startState : Obligations.StartState :=
  ⟨reset_binding, rfl, rfl, rfl, rfl, rfl, rfl, rfl, rfl, rfl, rfl, rfl, rfl⟩

/-- Settles O57: nothing is bound, and there is no row and no constraint. -/
theorem startStateMeetsTheInvariants : Obligations.StartStateMeetsTheInvariants :=
  ⟨reset_traceWf, reset_wf, nofun, Nat.le_refl 0, bindingRows_iff.mpr ⟨reset_allBindings _, nofun⟩,
    reset_allBindings _,
    ⟨fun _ => ⟨reset_binding, rfl, rfl⟩, fun h => absurd rfl h, fun h => absurd rfl h,
      fun h => absurd rfl h, fun h => absurd rfl h, fun h => absurd rfl h, nofun⟩,
    ⟨nofun, nofun, nofun, nofun⟩,
    rangeInv_iff.mpr fun _ _ => ⟨reset_allBindings _, nofun⟩,
    determined_iff.mpr fun _ _ _ => reset_allBindings _, nofun⟩

end Sys2Proof.Machine

/-! The reuse forms of ADD, XOR and ROTR63, and what the host does before and around a run. -/

namespace Sys2Proof.Machine

/-! ## Commands that work on `P`'s row (R27, R148, R169, R193) -/

/-- The state after a word command that the machine accepts, from the binding it publishes. -/
theorem exec_publish {i : Instr} {rd : Operand} {b : Binding} {tr : List TraceRow} {c : Nat}
    {e : List (Cell × Cell)} {s : State} (hwf : i.wf = true) (hr : ReadyForWords s)
    (ha : acceptsOf i = acceptsWord) (h : bodyOf i s = .ok (publish rd b (s.grow tr c e))) :
    exec i s = .next { s.bind rd b with p := some b, pc := s.pc + 1, cur := c, trace := tr, eq := e } := by
  rw [exec_ok hwf hr.1 (ha ▸ hr.2) h, publish_grow]

/-- A selector set on a row there was, after two more rows. -/
theorem modify_append_two {l : List TraceRow} {r : Nat} (hr : r < l.length) (x y : TraceRow)
    (f : TraceRow → TraceRow) : (l ++ [x] ++ [y]).modify r f = l.modify r f ++ [x, y] := by
  rw [List.append_assoc, List.singleton_append, modify_append_lt hr]

theorem carryOf_eq_ite (a b : Word) :
    carryOf a b = if 2 ^ 64 ≤ a.toNat + b.toNat then 1 else 0 := by
  have := a.isLt; have := b.isLt
  rw [carryOf_eq]
  split <;> omega

theorem highBit_eq_ite (a : Word) : highBit a = if 2 ^ 63 ≤ a.toNat then 1 else 0 := by
  have := a.isLt
  rw [highBit_eq]
  split <;> omega

/-- The result of an addition whose lhs is on a row there is. -/
theorem addOnto_grow {rd : Operand} {a : Word} {b : Binding} {r : Nat} {s : State}
    (hr : r < s.trace.length) (hroom : Room 2 s) : addOnto rd a b r s =
      .ok (publish rd ⟨a + b.val, s.cur + 1, .row⟩ (s.grow
        (s.trace.modify r (fun row => { row with sel := row.sel.enable .qAdd }) ++
          [carryRow b.val (carryOf a b.val), decRow (a + b.val)])
        (s.cur + 2) (s.eq ++ [(.f s.cur, b.cell)]))) := by
  refine addOnto_ok.mpr ⟨hroom, ?_⟩
  rw [pushRow_as_grow _ s, copy_grow, pushRow_grow, sel_grow, modify_append_two hr]

/-- The result of an exclusive or whose lhs is on a row there is. -/
theorem xorOnto_grow {rd : Operand} {a : Word} {b : Binding} {r : Nat} {s : State}
    (hr : r < s.trace.length) (hroom : Room 2 s) : xorOnto rd a b r s =
      .ok (publish rd ⟨a ^^^ b.val, s.cur + 1, .row⟩ (s.grow
        (s.trace.modify r (fun row => { row with sel := row.sel.enable .qXor }) ++
          [decRow b.val, decRow (a ^^^ b.val)])
        (s.cur + 2) (s.eq ++ [(.f s.cur, b.cell)]))) := by
  refine xorOnto_ok.mpr ⟨hroom, ?_⟩
  rw [pushRow_as_grow _ s, copy_grow, pushRow_grow, sel_grow, modify_append_two hr]

/-- The result of a rotation by 63 of the operand `P` is bound to. -/
theorem rotr63Body_grow {rd rs1 : Operand} {a b : Binding} {s : State} (hb : s.binding rs1 = some b)
    (hp : s.p = some a) (hab : a.row = b.row) (hr : s.cur - 1 < s.trace.length) (hroom : Room 2 s) :
    rotr63Body rd rs1 s = .ok (publish rd ⟨rotr b.val 63, s.cur + 1, .row⟩ (s.grow
        (s.trace.modify (s.cur - 1) (fun row => { row with sel := row.sel.enable .qRot63 }) ++
          [highBitRow b.val, decRow (rotr b.val 63)])
        (s.cur + 2) s.eq)) := by
  refine rotr63Body_ok.mpr ⟨b, s.cur - 1, s, hb, rot63Source_ok.mpr (.inl ⟨⟨a, hp, hab⟩, rfl⟩), hroom, ?_⟩
  rw [pushRow_as_grow _ s, pushRow_grow, sel_grow, modify_append_two hr]

/-- Settles O19: with `P` on row `cur − 1`, ADDP is the addition onto that row. -/
theorem addpCompletes : Obligations.AddpCompletes := by
  intro rd rs2 a b s hwf hr hp hrow hb hroom hs
  have hlen := ((traceWf_iff s).mp hs).1
  have hcur : s.cur - 1 = a.row := by omega
  rw [exec_publish (i := .addp rd rs2) hwf hr rfl
    (addpBody_ok.mpr ⟨a, b, hp, hb, addOnto_grow (by omega) hroom⟩), hcur, carryOf_eq_ite]
  simp only [carryRow, wordRow, decRow, BitVec.toNat_add]

/-- Settles O21: with `P` of kind `Row` on row `cur − 1`, XORP is the exclusive or onto that row. -/
theorem xorpCompletes : Obligations.XorpCompletes := by
  intro rd rs2 a b s hwf hr hp hk hrow hb hroom hs
  have hlen := ((traceWf_iff s).mp hs).1
  have hcur : s.cur - 1 = a.row := by omega
  rw [exec_publish (i := .xorp rd rs2) hwf hr rfl
    (xorpBody_ok.mpr ⟨a, b, hp, hk, hb, xorOnto_grow (by omega) hroom⟩), hcur]
  simp only [decRow, BitVec.toNat_xor]

/-- Settles O25: with the source's cell in `P`, ROTR63 copies nothing. -/
theorem rotr63CompletesInPlace : Obligations.Rotr63CompletesInPlace := by
  intro rd rs1 a b s hwf hr hb hp hcell hrow hroom hs
  have hlen := ((traceWf_iff s).mp hs).1
  have hcur : s.cur - 1 = a.row := by omega
  rw [exec_publish (i := .rotr63 rd rs1) hwf hr rfl
    (rotr63Body_grow hb hp (Cell.f.inj hcell) (by omega) hroom), hcur,
    ← bind_eq rd ⟨rotr b.val 63, s.cur + 1, .row⟩ s]
  simp only [decRow, highBitRow, highBit_eq_ite]

/-! ## The host operations (R287, R288) -/

theorem configure_of_not_configured {s : State} (hf : s.fault = none) (h : s.configured = false) :
    s.configure = { s with configured := true } := by
  simp [State.configure, hostOperation, hf, h]

theorem rangeTable_getElem {s : State} (hl : s.loaded = true) :
    s.rangeTable.length = 256 ∧ ∀ i < 256, s.rangeTable[i]? = some i := by
  rw [State.rangeTable, if_pos hl]
  exact ⟨List.length_range, fun i hi => List.getElem?_range hi⟩

theorem xorTable_getElem {s : State} (hl : s.loaded = true) : s.xorTable.length = 65536 ∧
    ∀ a < 256, ∀ b < 256, s.xorTable[256 * a + b]? = some (a, b, a ^^^ b) := by
  rw [State.xorTable, if_pos hl]
  refine ⟨by rw [List.length_map, List.length_range], fun a ha b hb => ?_⟩
  rw [List.getElem?_map, List.getElem?_range (by omega), Option.map_some,
    show (256 * a + b) / 256 = a by omega, show (256 * a + b) % 256 = b by omega]

/-- A run always answers a next state. -/
theorem runSteps_total (n : Nat) (s : State) : ∃ t, runSteps n s = .next t := by
  induction n generalizing s with
  | zero => exact ⟨s, rfl⟩
  | succ n ih =>
    obtain ⟨t, ht⟩ := step_total s
    simpa only [runSteps, ht] using ih t

theorem initBody_outputSize {s : State} (h : ¬ (1 ≤ s.params.outLen ∧ s.params.outLen ≤ 64)) :
    initBody s = .error .preconditionOutputSize := by
  have hc : (decide (1 ≤ s.params.outLen) && decide (s.params.outLen ≤ 64)) = false := by
    rwa [← Bool.not_eq_true, Bool.and_eq_true, decide_eq_true_eq, decide_eq_true_eq]
  simp only [initBody, require_of_false _ hc]
  rfl

theorem initBody_keySize {s : State} (h1 : 1 ≤ s.params.outLen) (h2 : s.params.outLen ≤ 64)
    (h : 64 < s.keyLen) : initBody s = .error .preconditionKeySize := by
  have hc : (decide (1 ≤ s.params.outLen) && decide (s.params.outLen ≤ 64)) = true := by
    rw [Bool.and_eq_true, decide_eq_true_eq, decide_eq_true_eq]
    exact ⟨h1, h2⟩
  have hk : decide (s.keyLen ≤ 64) = false := decide_eq_false (by omega)
  simp only [initBody, require_of_true _ hc, require_of_false _ hk]
  rfl

section
variable {s : State} (input key : List (Fin s.params.fieldP)) (nn : Nat)

/-- A run of `hash` whose INIT raises a fault ends there, at `pc` 0. -/
theorem hash_of_init_fault (hf : s.fault = none) {c : Fault}
    (h : exec .init (s.prepareHash input key nn) = .next (raiseFault c (s.prepareHash input key nn))) :
    ∃ t, s.hash input key nn = .next t ∧ t.reply = some (.error (c, 0)) := by
  have hprep := prepareHash_of_no_fault hf input key nn
  refine ⟨raiseFault c (s.prepareHash input key nn), ?_, ?_⟩
  · have hstep : step (s.prepareHash input key nn) = exec .init (s.prepareHash input key nn) := by
      have hfetch : (s.prepareHash input key nn).fetch = some (encode .init) := by
        rw [fetch_eq_some, hprep]
        exact ⟨rfl, rfl⟩
      simp only [step, hfetch, show decode (encode .init) = .ok .init by decide]
    obtain ⟨n, hn⟩ : ∃ n, (s.prepareHash input key nn).program.length -
        (s.prepareHash input key nn).pc = n + 1 := by
      rw [hprep]
      exact ⟨_, rfl⟩
    rw [State.hash, State.run, hn]
    simp only [runSteps, hstep, h]
    exact runSteps_of_fault nofun
  · rw [hprep]
    rfl

end

/-- Settles O10. -/
theorem hostPreparesTheMachine : Obligations.HostPreparesTheMachine := by
  intro s hf
  refine ⟨configure_of_not_configured hf, fun h => ?_, fun h1 h2 => ?_, fun h => ?_,
    fun input key nn => ⟨?_, ?_⟩⟩
  · simp [State.configure, hostOperation, hf, h, hostFault, raiseFault]
  · have hload : s.load = { s with loaded := true } := by
      simp [State.load, hostOperation, hf, h1, h2]
    have hl : s.load.loaded = true := by rw [hload]
    exact ⟨hload, (rangeTable_getElem hl).1, (rangeTable_getElem hl).2, xorTable_getElem hl⟩
  · have hc : (s.configured && !s.loaded) = false := by
      obtain h | h := h <;> simp [h]
    simp [State.load, hostOperation, hf, hc, hostFault, raiseFault]
  · rw [prepareHash_of_no_fault hf]
    exact ⟨rfl, rfl, rfl, List.length_map _, rfl, rfl, rfl, rfl, rfl⟩
  · obtain ⟨t, ht⟩ : ∃ t, s.hash input key nn = .next t := runSteps_total _ _
    have hreply : ∀ c, exec .init (s.prepareHash input key nn) =
        .next (raiseFault c (s.prepareHash input key nn)) → t.reply = some (.error (c, 0)) := by
      intro c hc
      obtain ⟨t', ht', hr⟩ := hash_of_init_fault input key nn hf hc
      rwa [Host.Outcome.next.inj (ht.symm.trans ht')]
    have hprep := prepareHash_of_no_fault hf input key nn
    refine ⟨t, ht, fun hl => hreply _ ?_, fun hl hnn => hreply _ ?_, fun hl h1 h2 hk => hreply _ ?_⟩
    · rw [exec_eq_command]
      exact command_sequence rfl (.inl (hprep ▸ hl))
    · exact exec_error rfl (hprep ▸ hl) (hprep ▸ rfl) (initBody_outputSize (hprep ▸ hnn))
    · refine exec_error rfl (hprep ▸ hl) (hprep ▸ rfl) (initBody_keySize (hprep ▸ h1) (hprep ▸ h2) ?_)
      rw [hprep]
      simpa only [State.keyLen, List.length_map] using hk

end Sys2Proof.Machine

/-! What LDBLK and OUT leave when they complete: the message rows with their sources, and the digest byte
cells with the cells `I[k]` tied to them (R64, R65, R217, R218, R220, R248, R249). -/

namespace Sys2Proof.Machine

/-! ## LDBLK -/

/-- The elements of `Fin n` in order, numbered from `c` on. -/
theorem zipIdx_finRange (n c : Nat) :
    (List.finRange n).zipIdx c = (List.finRange n).map fun j => (j, c + j.val) := by
  refine List.ext_getElem (by simp) fun k hk _ => ?_
  simp

/-- The copy constraints of all message rows, the first of them being row `cur` (R218). -/
theorem afterMessages_eq (s t : State) (b : Nat) : (afterMessages s b (List.finRange 16) t).eq =
    t.eq ++ (List.finRange 16).flatMap fun j => messageCopies s b j (t.cur + j.val) := by
  simp only [afterMessages, zipIdx_finRange, List.flatMap_map]

theorem messageBindings_getElem (s : State) (b r : Nat) (j : Fin 16) : (messageBindings s b r)[j] =
    some ⟨messageWord s.params.fieldP (s.messageByte b j), r + j.val, .row⟩ := by
  simp [messageBindings]

theorem messageRow_limb (s : State) (b : Nat) (j : Fin 16) (i : Fin 8) :
    (messageRow s b j).l[i] = some (s.messageByte b j i) := by
  simp [messageRow]

/-- Settles O28: the rows are the message rows of the block, whose word is a sum of Bytes or of other field
elements. -/
theorem ldblkCompletes : Obligations.LdblkCompletes := by
  intro blk s hl hg hb hsrc hroom hcheck
  have hu := ldblkBody_ok.mpr ⟨hb, hsrc, fun hc => blockInRange_iff.mpr (hcheck hc), hroom, rfl⟩
  refine ⟨_, exec_ok (i := .ldblk blk) rfl hl (acceptsLdblk_iff.mpr hg) hu, rfl, rfl, rfl, rfl,
    ⟨messageRow s blk.toNat, rfl, fun j => ⟨rfl, rfl, messageRow_limb s _ j,
      fun hbytes => ⟨?_, ?_⟩, fun hbytes => ⟨?_, _, messageBindings_getElem s _ _ j⟩⟩⟩,
    afterMessages_eq s s blk.toNat⟩
  · exact congrArg some (messageFelt_of_bytes (l := s.messageByte blk.toNat j) hbytes)
  · refine (messageBindings_getElem s _ _ j).trans ?_
    rw [messageWord_of_bytes (l := s.messageByte blk.toNat j) hbytes]
    rfl
  · exact congrArg some (messageFelt_of_not_bytes (l := s.messageByte blk.toNat j) hbytes)

/-! ## OUT -/

/-- What OUT makes of the binding `b` of a word of `h`: it stays, or it is of kind `Word` and replaced by a
decomposed copy on a row from `n` on, tied to it in `e`. -/
def OutWord (n : Nat) (e : List (Cell × Cell)) (b b' : Binding) : Prop :=
  b' = b ∨ b.kind = .word ∧ b'.kind = .row ∧ b'.val = b.val ∧ n ≤ b'.row ∧ (.f b'.row, b.cell) ∈ e

section
variable {js : List (Fin 8)} {s u : State}

theorem OutWord.row_of_row {n : Nat} {e : List (Cell × Cell)} {b b' : Binding} (h : OutWord n e b b')
    (hb : b.kind = .row) : b' = b := by
  obtain he | ⟨hk, -⟩ := h
  · exact he
  · exact nomatch hb.symm.trans hk

theorem OutWord.mono {m n : Nat} {e : List (Cell × Cell)} {b b' : Binding} (h : OutWord n e b b')
    (hm : m ≤ n) : OutWord m e b b' :=
  h.imp_right fun ⟨h1, h2, h3, h4, h5⟩ => ⟨h1, h2, h3, hm.trans h4, h5⟩

/-- With `h` bound and a row of room for each word, the decomposition of OUT completes. -/
theorem decomposeH_completes (h : ∀ j : Fin 8, s.h[j] ≠ none) (room : Room js.length s) :
    ∃ u, decomposeH js s = .ok u := by
  induction js generalizing s with
  | nil => exact ⟨s, rfl⟩
  | cons j js ih =>
    unfold Room at room
    rw [List.length_cons] at room
    obtain ⟨b, hb⟩ := Option.ne_none_iff_exists'.mp (h j)
    cases hk : b.kind with
    | row =>
      obtain ⟨u, hu⟩ := ih h (show _ ≤ _ by omega)
      exact ⟨u, decomposeH_cons_ok.mpr ⟨b, hb, .inl ⟨hk, hu⟩⟩⟩
    | word =>
      have hbound : ∀ i : Fin 8, (((s.pushRow (decRow b.val)).copy (.f s.cur) b.cell).bind (.h j)
          ⟨b.val, s.cur, .row⟩).binding (.h i) ≠ none := fun i => by
        rw [binding_bind]
        split
        · exact nofun
        · exact h i
      obtain ⟨u, hu⟩ := ih hbound (show _ ≤ _ by simp; omega)
      exact ⟨u, decomposeH_cons_ok.mpr ⟨b, hb, .inr ⟨hk, by omega, hu⟩⟩⟩

/-- Words of kind `Row` are left alone. -/
theorem decomposeH_of_rows (h : ∀ j : Fin 8, ∃ b, s.h[j] = some b ∧ b.kind = .row) :
    decomposeH js s = .ok s := by
  induction js with
  | nil => rfl
  | cons j js ih =>
    obtain ⟨b, hb, hk⟩ := h j
    exact decomposeH_cons_ok.mpr ⟨b, hb, .inl ⟨hk, ih⟩⟩

/-- The decomposition of OUT, word by word. -/
theorem decomposeH_outWord (h : decomposeH js s = .ok u) {j : Fin 8} {b : Binding}
    (hb : s.h[j] = some b) :
    ∃ b', u.h[j] = some b' ∧ OutWord s.cur u.eq b b' ∧ (j ∈ js → b'.kind = .row) := by
  induction js generalizing s b with
  | nil => cases h; exact ⟨b, hb, .inl rfl, nofun⟩
  | cons i js ih =>
    obtain ⟨c, hc, ⟨hk, h⟩ | ⟨hk, -, h⟩⟩ := decomposeH_cons_ok.mp h
    · obtain ⟨b', hb', hout, hrow⟩ := ih h hb
      refine ⟨b', hb', hout, fun hj => (List.mem_cons.mp hj).elim (fun e => ?_) hrow⟩
      obtain rfl := Option.some.inj (hc.symm.trans (e ▸ hb))
      rw [hout.row_of_row hk, hk]
    · by_cases hj : j = i
      · subst hj
        obtain rfl := Option.some.inj (hc.symm.trans hb)
        obtain ⟨b', hb', hout, -⟩ := ih h (binding_bind_self (.h j) _ _)
        obtain rfl := hout.row_of_row rfl
        refine ⟨_, hb', .inr ⟨hk, rfl, rfl, le_rfl, ?_⟩, fun _ => rfl⟩
        refine (Builds.refl.decomposeH h).extends.copies.subset ?_
        rw [bind_eq, copy_eq]
        exact List.mem_append_right _ (List.mem_singleton_self _)
      · have hne : Operand.h j ≠ .h i := fun e => hj (Operand.h.inj e)
        obtain ⟨b', hb', hout, hrow⟩ := ih h ((binding_bind_of_ne (.h i) (.h j) _ _ hne).trans hb)
        exact ⟨b', hb', hout.mono (by simp), fun hm => hrow ((List.mem_cons.mp hm).resolve_left hj)⟩

/-- The decomposition of OUT ties trace cells only. -/
theorem decomposeH_eq (h : decomposeH js s = .ok u) : ∃ rest, u.eq = s.eq ++ rest ∧
    ∀ q ∈ rest, ∀ k, q.1 ≠ .inst k ∧ q.2 ≠ .inst k := by
  induction js generalizing s with
  | nil => cases h; exact ⟨[], (List.append_nil _).symm, nofun⟩
  | cons j js ih =>
    obtain ⟨b, -, ⟨-, h⟩ | ⟨-, -, h⟩⟩ := decomposeH_cons_ok.mp h
    · exact ih h
    · obtain ⟨rest, he, hrest⟩ := ih h
      rw [bind_eq, copy_eq, pushRow_eq, List.append_assoc] at he
      exact ⟨_, he, List.forall_mem_cons.mpr ⟨fun _ => ⟨nofun, nofun⟩, hrest⟩⟩

/-- The digest byte cell and the digest byte of a bound word (R65). -/
theorem digest_of_h {k : Fin 64} {b : Binding} (h : s.h[k.val / 8] = some b) :
    s.digestCell? k = some (.l ⟨k.val % 8, by omega⟩ b.row) ∧
      s.digestByte? k = some (byteAt b.val ⟨k.val % 8, by omega⟩) :=
  ⟨congrArg (Option.map _) h, congrArg (Option.map _) h⟩

end

/-- Settles O31: OUT decomposes word by word and then ties digest cells alone. -/
theorem outCompletes : Obligations.OutCompletes := by
  intro s hl hg hh hroom
  obtain ⟨w, hw⟩ := decomposeH_completes (js := List.finRange 8) hh hroom
  have hbound := fun o ho => Option.ne_none_iff_exists'.mp (forall_mem_hOperands hh o ho)
  have hb := Builds.refl.decomposeH hw
  obtain ⟨rest, heq, hrest⟩ := decomposeH_eq hw
  refine ⟨_, exec_ok (i := .out) rfl hl (acceptsOut_iff.mpr hg) (outBody_ok.mpr ⟨hbound, w, hw, rfl⟩),
    congrArg (· + 1) hb.pc_eq, rfl, rfl, fun j b hj => ?_, fun k b hk => digest_of_h hk,
    rest, ?_, hrest⟩
  · obtain ⟨⟨v, r, kind⟩, hb', hout, hrow⟩ := decomposeH_outWord hw hj
    obtain rfl : kind = .row := hrow (List.mem_finRange j)
    obtain rfl | ⟨hk, -, rfl, hr, hmem⟩ := hout
    · exact ⟨r, hb', fun _ => rfl, nofun⟩
    · exact ⟨r, hb', fun h => (nomatch h.symm.trans hk),
        fun _ => ⟨hr, List.mem_append_left _ hmem⟩⟩
  · rw [← heq, ← hb.sameHost.params]
    rfl

end Sys2Proof.Machine

/-! Sequences of word commands by the values they read and write: MIX computes G, and the mixes of the
twelve rounds compute the rounds (R228–R230, R235–R238). -/

namespace Sys2Proof.Machine

/-! ## Sequences that complete -/

/-- The commands run from `s` to `t` without a fault and emit `r` rows. -/
structure Runs (is : List Instr) (r : Nat) (s t : State) : Prop where
  run : runInstrs is s = .next t
  fault : t.fault = none
  host : SameHost s t
  pc : t.pc = s.pc + is.length
  cur : t.cur = s.cur + r

section
variable {is js : List Instr} {i : Instr} {r r' : Nat} {s t u : State}

theorem SameHost.trans (h : SameHost s t) (h' : SameHost t u) : SameHost s u :=
  h.congr h'.program h'.configured h'.loaded h'.inst h'.x h'.y h'.params

theorem Runs.nil (hf : s.fault = none) : Runs [] 0 s s := ⟨rfl, hf, SameHost.refl s, rfl, rfl⟩

theorem Runs.append (h : Runs is r s t) (h' : Runs js r' t u) : Runs (is ++ js) (r + r') s u where
  run := (runInstrs_append h.run).trans h'.run
  fault := h'.fault
  host := h.host.trans h'.host
  pc := by rw [h'.pc, h.pc, List.length_append, Nat.add_assoc]
  cur := by rw [h'.cur, h.cur, Nat.add_assoc]

/-- The room that is left. -/
theorem Runs.room (h : Runs is r s t) (room : Room (r + r') s) : Room r' t := by
  unfold Room at *
  rw [h.cur, h.host.params, Nat.add_assoc]
  exact room

theorem Room.mono {m n : Nat} (h : Room n s) (hm : m ≤ n) : Room m s :=
  (Nat.add_le_add_left hm _).trans h

/-- One command that the machine accepts and whose own rule completes. -/
theorem runs_command (hwf : i.wf = true) (hl : s.loaded = true) (ha : acceptsOf i s.gadget = true)
    (hf : s.fault = none) (hu : bodyOf i s = .ok u) :
    Runs [i] (rowCost i s) s { u with pc := u.pc + 1 } where
  run := runInstrs_cons hf (exec_ok hwf hl ha hu)
  fault := (bodyOf_builds hu).fault_eq.trans hf
  host := (bodyOf_extends hu).1
  pc := congrArg (· + 1) (bodyOf_builds hu).pc_eq
  cur := (bodyOf_cur hu :)

end

/-! ## Word commands that leave a decomposed row -/

/-- The rotations by limbs, with the number of limbs (R186–R188). -/
def limbRotations (rd rs1 : Operand) : List (Instr × Fin 8) :=
  [(.rotr16 rd rs1, 2), (.rotr24 rd rs1, 3), (.rotr32 rd rs1, 4)]

/-- `rd` and `P` hold the Word `x` on a decomposed row, and nothing else among the operands has changed. -/
structure Wrote (rd : Operand) (x : Word) (s t : State) : Prop where
  binding : ∃ b, t.binding rd = some b ∧ b.val = x ∧ b.kind = .row
  p : t.p = t.binding rd
  others : ∀ o, o ≠ rd → t.binding o = s.binding o
  gadget : t.gadget = s.gadget
  z : t.z = s.z

section
variable {i : Instr} {rd rs1 rs2 : Operand} {a b : Binding} {x : Word} {n r : Nat} {s u : State}

theorem Wrote.v_eq (h : Wrote rd x s u) (hrd : ∀ i, .v i ≠ rd) : u.v = s.v :=
  Vector.ext fun i hi => h.others (.v ⟨i, hi⟩) (hrd _)

theorem Wrote.m_eq (h : Wrote rd x s u) (hrd : ∀ i, .m i ≠ rd) : u.m = s.m :=
  Vector.ext fun i hi => h.others (.m ⟨i, hi⟩) (hrd _)

theorem Wrote.h_eq (h : Wrote rd x s u) (hrd : ∀ i, .h i ≠ rd) : u.h = s.h :=
  Vector.ext fun i hi => h.others (.h ⟨i, hi⟩) (hrd _)

theorem Wrote.iv_eq (h : Wrote rd x s u) (hrd : ∀ i, .iv i ≠ rd) : u.iv = s.iv :=
  Vector.ext fun i hi => h.others (.iv ⟨i, hi⟩) (hrd _)

theorem Wrote.ready (h : Wrote rd x s u) (hh : SameHost s u) (hr : ReadyForWords s) :
    ReadyForWords u := ⟨hh.loaded.trans hr.1, h.gadget ▸ hr.2⟩

/-- The state after a word command, up to `pc` and the fault mark. -/
theorem publish_wrote (rd : Operand) (x : Word) (s : State) {n c m : Nat} {tr : List TraceRow}
    {e : List (Cell × Cell)} {f : Option Fault} :
    Wrote rd x s ((publish rd ⟨x, n, .row⟩ (s.grow tr c e)).mark m f) := by
  have hbind := fun o => (mark_binding m f _ o).trans
    (publish_binding rd o ⟨x, n, .row⟩ (s.grow tr c e))
  have hself := (hbind rd).trans (binding_bind_self ..)
  exact ⟨⟨_, hself, rfl, rfl⟩, (publish_p rd _ (s.grow tr c e)).trans hself.symm,
    fun o ho => (hbind o).trans ((binding_bind_of_ne _ _ _ _ ho).trans (grow_binding ..)),
    publish_gadget .., publish_z ..⟩

/-- A word command whose own rule completes with a result of kind `Row`. -/
theorem runs_word (hd : i.dest? = some rd) (hw : rd.writable = true) (hr : ReadyForWords s)
    (hf : s.fault = none) (hu : bodyOf i s = .ok u) (hp : u.p = some ⟨x, n, .row⟩)
    (hcost : rowCost i s = r) : ∃ t, Runs [i] r s t ∧ Wrote rd x s t := by
  subst hcost
  have hwf : i.wf = true := by simp only [Instr.wf, hd, Option.all_some, hw]
  have ha : acceptsOf i s.gadget = true := by
    cases i with
    | init | ldblk | vinit | out => cases hd
    | _ => exact hr.2
  refine ⟨_, runs_command hwf hr.1 ha hf hu, ?_⟩
  obtain ⟨c, tr, k, e, rfl, -⟩ := wordBody_ok hd hu
  obtain rfl := Option.some.inj ((publish_p ..).symm.trans hp)
  exact publish_wrote rd x s

variable (hw : rd.writable = true) (hr : ReadyForWords s) (hf : s.fault = none)
include hw hr hf

theorem runs_add (ha : s.binding rs1 = some a) (hb : s.binding rs2 = some b) (room : Room 3 s) :
    ∃ t, Runs [.add rd rs1 rs2] 3 s t ∧ Wrote rd (a.val + b.val) s t :=
  runs_word rfl hw hr hf (addBody_ok.mpr ⟨a, b, ha, hb, addOnto_ok.mpr ⟨room, rfl⟩⟩) (publish_p ..)
    rfl

theorem runs_xor (ha : s.binding rs1 = some a) (hb : s.binding rs2 = some b) (room : Room 3 s) :
    ∃ t, Runs [.xor rd rs1 rs2] 3 s t ∧ Wrote rd (a.val ^^^ b.val) s t :=
  runs_word rfl hw hr hf (xorBody_ok.mpr ⟨a, b, ha, hb, xorOnto_ok.mpr ⟨room, rfl⟩⟩) (publish_p ..)
    rfl

theorem runs_addp (hp : s.p = some a) (hb : s.binding rs2 = some b) (room : Room 2 s) :
    ∃ t, Runs [.addp rd rs2] 2 s t ∧ Wrote rd (a.val + b.val) s t :=
  runs_word rfl hw hr hf (addpBody_ok.mpr ⟨a, b, hp, hb, addOnto_ok.mpr ⟨room, rfl⟩⟩) (publish_p ..)
    rfl

theorem runs_xorp (hp : s.p = some a) (hk : a.kind = .row) (hb : s.binding rs2 = some b)
    (room : Room 2 s) : ∃ t, Runs [.xorp rd rs2] 2 s t ∧ Wrote rd (a.val ^^^ b.val) s t :=
  runs_word rfl hw hr hf (xorpBody_ok.mpr ⟨a, b, hp, hk, hb, xorOnto_ok.mpr ⟨room, rfl⟩⟩) (publish_p ..)
    rfl

/-- The three rotations by limbs of a source of kind `Row`. -/
theorem runs_limbRot {k : Fin 8} (hi : (i, k) ∈ limbRotations rd rs1) (hb : s.binding rs1 = some b)
    (hk : b.kind = .row) (room : Room 1 s) :
    ∃ t, Runs [i] 1 s t ∧ Wrote rd (rotr b.val (8 * k.val)) s t := by
  have hbody := fun k => limbRotBody_ok (k := k) (rd := rd).mpr
    ⟨b, b.row, s, hb, decomposedSource_ok.mpr (.inl ⟨hk, rfl⟩), room, rfl⟩
  have hcost : (if (s.binding rs1).any (fun b => b.kind == .word) then 2 else 1) = 1 := by simp [hb, hk]
  simp only [limbRotations, List.mem_cons, Prod.mk.injEq, List.not_mem_nil, or_false] at hi
  obtain ⟨rfl, rfl⟩ | ⟨rfl, rfl⟩ | ⟨rfl, rfl⟩ := hi
  · exact runs_word rfl hw hr hf (hbody 2) (publish_p ..) hcost
  · exact runs_word rfl hw hr hf (hbody 3) (publish_p ..) hcost
  · exact runs_word rfl hw hr hf (hbody 4) (publish_p ..) hcost

/-- The rotation by 63 of what `P` holds. -/
theorem runs_rotr63 (hp : s.p = some b) (hb : s.binding rs1 = some b) (room : Room 2 s) :
    ∃ t, Runs [.rotr63 rd rs1] 2 s t ∧ Wrote rd (rotr b.val 63) s t :=
  runs_word rfl hw hr hf (rotr63Body_ok.mpr
    ⟨b, s.cur - 1, s, hb, rot63Source_ok.mpr (.inl ⟨⟨b, hp, rfl⟩, rfl⟩), room, rfl⟩) (publish_p ..)
    (by simp [rowCost, hp, hb])

end

/-! ## Words in registers -/

/-- The operands are bound to the Words `ws`. -/
def Words {n : Nat} (bs : Vector (Option Binding) n) (ws : Vector Word n) : Prop :=
  ∀ i : Fin n, bs[i].map Binding.val = some ws[i]

theorem Words.get {n : Nat} {bs : Vector (Option Binding) n} {ws : Vector Word n} (h : Words bs ws)
    (i : Fin n) : ∃ b, bs[i] = some b ∧ b.val = ws[i] := Option.map_eq_some_iff.mp (h i)

theorem Words.ne_none {n : Nat} {bs : Vector (Option Binding) n} {ws : Vector Word n} (h : Words bs ws)
    (i : Fin n) : bs[i] ≠ none := by
  obtain ⟨b, hb, -⟩ := h.get i
  exact fun e => nomatch hb.symm.trans e

/-! ## Mixes -/

/-- In `t` the operands `v` and `m` hold the Words `vs` and `ms`, and all but `v` is as in `s`. -/
structure Mixed (ms vs : Vector Word 16) (s t : State) : Prop where
  vs : Words t.v vs
  ms : Words t.m ms
  ready : ReadyForWords t
  m : t.m = s.m
  h : t.h = s.h
  iv : t.iv = s.iv
  gadget : t.gadget = s.gadget
  z : t.z = s.z

/-- `P` holds what `v_q` holds, of kind `Row`. -/
def Latest (q : Fin 16) (t : State) : Prop := t.p = t.v[q] ∧ ∃ b, t.v[q] = some b ∧ b.kind = .row

/-- Where there is room for `r` rows, the commands `is` turn the Words of `v` into `vs`, and `v_q`, if one
is named, is the latest result. -/
def MixRun (s : State) (ms : Vector Word 16) (is : List Instr) (r : Nat) (vs : Vector Word 16)
    (q : Option (Fin 16)) : Prop :=
  Room r s → ∃ t, Runs is r s t ∧ Mixed ms vs s t ∧ ∀ a, q = some a → Latest a t

section
variable {s t u : State} {ms vs : Vector Word 16} {is : List Instr} {r r' : Nat} {q : Option (Fin 16)}
  {x : Word} {i : Instr}

/-- The vector after a write to `v_a`. -/
theorem Mixed.wrote {a : Fin 16} (h : Mixed ms vs s t) (hh : SameHost t u)
    (hw : Wrote (.v a) x t u) : Mixed ms (vs.set a x) s u where
  vs i := by
    obtain ⟨b, hb, rfl, -⟩ := hw.binding
    by_cases hi : i = a
    · subst hi
      rw [show u.v[i] = some b from hb]
      simp
    · have hv : u.v[i] = t.v[i] := hw.others (.v i) fun e => hi (Operand.v.inj e)
      have hne : a.val ≠ i.val := fun e => hi (Fin.ext e.symm)
      rw [hv, h.vs i]
      simp [hne]
  ms := hw.m_eq nofun ▸ h.ms
  ready := hw.ready hh h.ready
  m := (hw.m_eq nofun).trans h.m
  h := (hw.h_eq nofun).trans h.h
  iv := (hw.iv_eq nofun).trans h.iv
  gadget := hw.gadget.trans h.gadget
  z := hw.z.trans h.z

/-- One more command. -/
theorem MixRun.snoc {a : Fin 16} (h : MixRun s ms is r vs q)
    (hstep : ∀ t, t.fault = none → Mixed ms vs s t → (∀ a, q = some a → Latest a t) → Room r' t →
      ∃ u, Runs [i] r' t u ∧ Wrote (.v a) x t u) :
    MixRun s ms (is ++ [i]) (r + r') (vs.set a x) (some a) := by
  intro room
  obtain ⟨t, ht, hm, hq⟩ := h (room.mono (Nat.le_add_right ..))
  obtain ⟨u, hu, hw⟩ := hstep t ht.fault hm hq (ht.room room)
  refine ⟨u, ht.append hu, hm.wrote hu.host hw, fun _ e => ?_⟩
  obtain rfl := Option.some.inj e
  obtain ⟨b, hb, -, hk⟩ := hw.binding
  exact ⟨hw.p, b, hb, hk⟩

theorem MixRun.forget (h : MixRun s ms is r vs q) : MixRun s ms is r vs none := fun room => by
  obtain ⟨t, ht, hm, -⟩ := h room
  exact ⟨t, ht, hm, nofun⟩

/-- What `P` holds, by the vector. -/
theorem Latest.p_some {q : Fin 16} (hl : Latest q t) (h : Mixed ms vs s t) :
    ∃ b, t.p = some b ∧ t.v[q] = some b ∧ b.kind = .row ∧ b.val = vs[q] := by
  obtain ⟨hp, b, hb, hk⟩ := hl
  obtain ⟨c, hc, hval⟩ := h.vs.get q
  obtain rfl := Option.some.inj (hb.symm.trans hc)
  exact ⟨b, hp.trans hb, hb, hk, hval⟩

theorem MixRun.add (h : MixRun s ms is r vs q) (a b : Fin 16) :
    MixRun s ms (is ++ [.add (.v a) (.v a) (.v b)]) (r + 3) (vs.set a (vs[a] + vs[b])) (some a) := by
  refine h.snoc fun t hf hm _ room => ?_
  obtain ⟨x, hx, hxv⟩ := hm.vs.get a
  obtain ⟨y, hy, hyv⟩ := hm.vs.get b
  rw [← hxv, ← hyv]
  exact runs_add rfl hm.ready hf hx hy room

variable {p : Fin 16}

theorem MixRun.addp_v (h : MixRun s ms is r vs (some p)) (a b : Fin 16) :
    MixRun s ms (is ++ [.addp (.v a) (.v b)]) (r + 2) (vs.set a (vs[b] + vs[p])) (some a) := by
  refine h.snoc fun t hf hm hq room => ?_
  obtain ⟨x, hp, -, -, hxv⟩ := (hq p rfl).p_some hm
  obtain ⟨y, hy, hyv⟩ := hm.vs.get b
  rw [← hxv, ← hyv, BitVec.add_comm]
  exact runs_addp rfl hm.ready hf hp hy room

theorem MixRun.addp_m (h : MixRun s ms is r vs (some p)) (a x : Fin 16) :
    MixRun s ms (is ++ [.addp (.v a) (.m x)]) (r + 2) (vs.set a (vs[p] + ms[x])) (some a) := by
  refine h.snoc fun t hf hm hq room => ?_
  obtain ⟨x', hp, -, -, hxv⟩ := (hq p rfl).p_some hm
  obtain ⟨y, hy, hyv⟩ := hm.ms.get x
  rw [← hxv, ← hyv]
  exact runs_addp rfl hm.ready hf hp hy room

theorem MixRun.xorp (h : MixRun s ms is r vs (some p)) (a b : Fin 16) :
    MixRun s ms (is ++ [.xorp (.v a) (.v b)]) (r + 2) (vs.set a (vs[b] ^^^ vs[p])) (some a) := by
  refine h.snoc fun t hf hm hq room => ?_
  obtain ⟨x, hp, -, hk, hxv⟩ := (hq p rfl).p_some hm
  obtain ⟨y, hy, hyv⟩ := hm.vs.get b
  rw [← hxv, ← hyv, BitVec.xor_comm]
  exact runs_xorp rfl hm.ready hf hp hk hy room

theorem MixRun.limbRot (h : MixRun s ms is r vs (some p)) {k : Fin 8}
    (hi : (i, k) ∈ limbRotations (.v p) (.v p)) :
    MixRun s ms (is ++ [i]) (r + 1) (vs.set p (rotr vs[p] (8 * k.val))) (some p) := by
  refine h.snoc fun t hf hm hq room => ?_
  obtain ⟨x, -, hx, hk, hxv⟩ := (hq p rfl).p_some hm
  rw [← hxv]
  exact runs_limbRot rfl hm.ready hf hi hx hk room

theorem MixRun.rotr63 (h : MixRun s ms is r vs (some p)) :
    MixRun s ms (is ++ [.rotr63 (.v p) (.v p)]) (r + 2) (vs.set p (rotr vs[p] 63)) (some p) := by
  refine h.snoc fun t hf hm hq room => ?_
  obtain ⟨x, hp, hx, -, hxv⟩ := (hq p rfl).p_some hm
  rw [← hxv]
  exact runs_rotr63 rfl hm.ready hf hp hx room

/-! The steps of G (R235): in each, the second command works on the result of the first. -/

theorem set_set_self {α : Type} (vs : Vector α 16) (a : Fin 16) (x : α) (f : α → α) :
    (vs.set a x).set a (f (vs.set a x)[a]) = vs.set a (f x) := by
  simp

theorem MixRun.add_addp (h : MixRun s ms is r vs q) (a b x : Fin 16) :
    MixRun s ms (is ++ [.add (.v a) (.v a) (.v b)] ++ [.addp (.v a) (.m x)]) (r + 3 + 2)
      (vs.set a (vs[a] + vs[b] + ms[x])) (some a) := by
  rw [← set_set_self vs a _ (· + ms[x])]
  exact (h.add a b).addp_m a x

theorem MixRun.addp_addp (h : MixRun s ms is r vs (some p)) (a x : Fin 16) :
    MixRun s ms (is ++ [.addp (.v a) (.v a)] ++ [.addp (.v a) (.m x)]) (r + 2 + 2)
      (vs.set a (vs[a] + vs[p] + ms[x])) (some a) := by
  rw [← set_set_self vs a _ (· + ms[x])]
  exact (h.addp_v a a).addp_m a x

theorem MixRun.xorp_limbRot (h : MixRun s ms is r vs (some p)) (d : Fin 16) {k : Fin 8}
    (hi : (i, k) ∈ limbRotations (.v d) (.v d)) :
    MixRun s ms (is ++ [.xorp (.v d) (.v d)] ++ [i]) (r + 2 + 1)
      (vs.set d (rotr (vs[d] ^^^ vs[p]) (8 * k.val))) (some d) := by
  rw [← set_set_self vs d _ (rotr · (8 * k.val))]
  exact (h.xorp d d).limbRot hi

theorem MixRun.xorp_rotr63 (h : MixRun s ms is r vs (some p)) (d : Fin 16) :
    MixRun s ms (is ++ [.xorp (.v d) (.v d)] ++ [.rotr63 (.v d) (.v d)]) (r + 2 + 2)
      (vs.set d (rotr (vs[d] ^^^ vs[p]) 63)) (some d) := by
  rw [← set_set_self vs d _ (rotr · 63)]
  exact (h.xorp d d).rotr63

/-- MIX computes G (R236). -/
theorem MixRun.mix (h : MixRun s ms is r vs q) (a b c d x y : Fin 16) :
    MixRun s ms (is ++ mixInstrs a b c d x y) (r + 26) (Blake2b.g a b c d ms[x] ms[y] vs) none := by
  have h1 := h.add_addp a b x
  have h2 := h1.xorp_limbRot d (i := .rotr32 (.v d) (.v d)) (k := 4) (by simp [limbRotations])
  have h3 := h2.addp_v c c
  have h4 := h3.xorp_limbRot b (i := .rotr24 (.v b) (.v b)) (k := 3) (by simp [limbRotations])
  have h5 := h4.addp_addp a y
  have h6 := h5.xorp_limbRot d (i := .rotr16 (.v d) (.v d)) (k := 2) (by simp [limbRotations])
  have h7 := h6.addp_v c c
  have h8 := (h7.xorp_rotr63 b).forget
  simp only [List.append_assoc] at h8
  exact h8

theorem MixRun.roundMixes (h : MixRun s ms is r vs none) (n : Nat) (js : List (Fin 8)) :
    MixRun s ms (is ++ js.flatMap (roundMix n)) (r + 26 * js.length)
      (js.foldl (fun v j => Blake2b.mix ms n j v) vs) none := by
  induction js generalizing is r vs with
  | nil => simpa using h
  | cons j js ih =>
    rw [List.flatMap_cons, ← List.append_assoc, List.length_cons, Nat.mul_succ, Nat.add_comm (26 * _),
      ← Nat.add_assoc]
    exact ih (h.mix _ _ _ _ _ _)

theorem MixRun.round (h : MixRun s ms is r vs none) (n : Nat) :
    MixRun s ms (is ++ (List.finRange 8).flatMap (roundMix n)) (r + 208) (Blake2b.round ms n vs) none :=
  h.roundMixes n (List.finRange 8)

theorem MixRun.rounds (h : MixRun s ms is r vs none) (ns : List Nat) :
    MixRun s ms (is ++ ns.flatMap fun n => (List.finRange 8).flatMap (roundMix n))
      (r + 208 * ns.length) (ns.foldl (fun v n => Blake2b.round ms n v) vs) none := by
  induction ns generalizing is r vs with
  | nil => simpa using h
  | cons n ns ih =>
    rw [List.flatMap_cons, ← List.append_assoc, List.length_cons, Nat.mul_succ, Nat.add_comm (208 * _),
      ← Nat.add_assoc, List.foldl_cons]
    exact ih (h.round n)

end

/-- The 96 mixes compute the twelve rounds (R228). -/
theorem runs_allMixes {s : State} {ms vs : Vector Word 16} (hr : ReadyForWords s) (hf : s.fault = none)
    (hv : Words s.v vs) (hm : Words s.m ms) (room : Room 2496 s) :
    ∃ t, Runs allMixes 2496 s t ∧ Mixed ms (Blake2b.rounds ms vs) s t := by
  have hstart : MixRun s ms [] 0 vs none := fun _ =>
    ⟨s, .nil hf, ⟨hv, hm, hr, rfl, rfl, rfl, rfl, rfl⟩, nofun⟩
  obtain ⟨t, ht, hmixed, -⟩ := hstart.rounds (List.range 12) room
  exact ⟨t, ht, hmixed⟩

end Sys2Proof.Machine

/-! COMPRESS computes the compression function (R225, R240, R245, R246). -/

namespace Sys2Proof.Machine

section
variable {s t u : State}

/-! ## The state update (R240) -/

theorem Wrote.trans {rd : Operand} {x y : Word} (h : Wrote rd x s t) (h' : Wrote rd y t u) :
    Wrote rd y s u :=
  ⟨h'.binding, h'.p, fun o ho => (h'.others o ho).trans (h.others o ho), h'.gadget.trans h.gadget,
    h'.z.trans h.z⟩

/-- The update of one word of `h`. -/
theorem runs_update {i : Fin 8} {a b c : Binding} (hr : ReadyForWords s) (hf : s.fault = none)
    (ha : s.h[i] = some a) (hb : s.v[i.val] = some b) (hc : s.v[i.val + 8] = some c)
    (room : Room 5 s) :
    ∃ t, Runs (updateInstrs i) 5 s t ∧ Wrote (.h i) (a.val ^^^ b.val ^^^ c.val) s t := by
  obtain ⟨t, ht, hw⟩ := runs_xor (rd := .h i) (rs1 := .h i) (rs2 := .v ⟨i.val, by omega⟩) rfl hr hf ha hb
    (room.mono (by decide))
  obtain ⟨x, hx, hxv, hxk⟩ := hw.binding
  obtain ⟨u, hu, hw'⟩ := runs_xorp (rd := .h i) (rs2 := .v ⟨i.val + 8, by omega⟩) rfl
    (hw.ready ht.host hr) ht.fault (hw.p.trans hx) hxk
    ((hw.others (.v ⟨i.val + 8, by omega⟩) nofun).trans hc) (ht.room room)
  exact ⟨u, ht.append hu, hxv ▸ hw.trans hw'⟩

/-- The words of `h` named by `js` hold their updates on decomposed rows, the others are as before, and so
are the other operands. -/
structure Updated (hs : Vector Word 8) (vs : Vector Word 16) (js : List (Fin 8)) (s t : State) : Prop where
  new : ∀ i ∈ js, ∃ b, t.h[i] = some b ∧ b.val = hs[i] ^^^ vs[i.val] ^^^ vs[i.val + 8] ∧ b.kind = .row
  old : ∀ i ∉ js, t.h[i] = s.h[i]
  v : t.v = s.v
  m : t.m = s.m
  iv : t.iv = s.iv
  gadget : t.gadget = s.gadget
  z : t.z = s.z

theorem runs_updates {hs : Vector Word 8} {vs : Vector Word 16} {js : List (Fin 8)} (hjs : js.Nodup)
    (hr : ReadyForWords s) (hf : s.fault = none)
    (hh : ∀ i ∈ js, s.h[i].map Binding.val = some hs[i])
    (hv : Words s.v vs) (room : Room (5 * js.length) s) :
    ∃ t, Runs (js.flatMap updateInstrs) (5 * js.length) s t ∧ Updated hs vs js s t := by
  induction js generalizing s with
  | nil => exact ⟨s, .nil hf, nofun, fun _ _ => rfl, rfl, rfl, rfl, rfl, rfl⟩
  | cons j js ih =>
    obtain ⟨hj, hjs⟩ := List.nodup_cons.mp hjs
    obtain ⟨hhj, hh⟩ := List.forall_mem_cons.mp hh
    rw [List.length_cons, Nat.mul_succ, Nat.add_comm] at room
    obtain ⟨a, ha, hav⟩ := Option.map_eq_some_iff.mp hhj
    obtain ⟨b, hb, hbv⟩ := hv.get ⟨j.val, by omega⟩
    obtain ⟨c, hc, hcv⟩ := hv.get ⟨j.val + 8, by omega⟩
    obtain ⟨t, ht, hw⟩ := runs_update hr hf ha hb hc (room.mono (Nat.le_add_right ..))
    have hne : ∀ i, i ≠ j → t.h[i] = s.h[i] := fun i hi =>
      hw.others (.h i) fun e => hi (Operand.h.inj e)
    have htv := hw.v_eq nofun
    obtain ⟨u, hu, hup⟩ := ih hjs (hw.ready ht.host hr) ht.fault
      (fun i hi => by rw [hne i fun e => hj (e ▸ hi), hh i hi]) (htv ▸ hv) (ht.room room)
    refine ⟨u, ?_, ?_⟩
    · rw [List.length_cons, Nat.mul_succ, Nat.add_comm]
      exact ht.append hu
    · refine ⟨List.forall_mem_cons.mpr ⟨?_, hup.new⟩, fun i hi => ?_, hup.v.trans htv,
        hup.m.trans (hw.m_eq nofun), hup.iv.trans (hw.iv_eq nofun), hup.gadget.trans hw.gadget,
        hup.z.trans hw.z⟩
      · obtain ⟨x, hx, hxv, hxk⟩ := hw.binding
        refine ⟨x, (hup.old j hj).trans hx, ?_, hxk⟩
        rw [hxv, hav, hbv, hcv]
        rfl
      · obtain ⟨hij, hi⟩ := not_or.mp (mt List.mem_cons.mpr hi)
        exact (hup.old i hi).trans (hne i hij)

/-! ## VINIT -/

/-- `iv` holds the constants (R212). -/
def IvWords (s : State) : Prop := Words s.iv (Vector.ofFn ivWord)

theorem IvWords.get (h : IvWords s) (i : Fin 8) : s.iv[i].map Binding.val = some (ivWord i) := by
  simpa using Words.get h i

/-! The counter of the block is `c`, and `last` tells whether it is the final one. -/

section
variable {n c : Nat} {last : Bool} {hs : Vector Word 8} {x f : Binding}

theorem finalWord_completes (x : Binding) (hlast : isFinalBlock s.params.inputLen s.keyLen n = last)
    (room : Room (if last then 2 else 0) s) : ∃ f u, finalWord n x s = .ok (f, u) := by
  cases last with
  | false => exact ⟨_, _, finalWord_ok.mpr (.inr ⟨hlast, rfl⟩)⟩
  | true => exact ⟨_, _, finalWord_ok.mpr (.inl ⟨hlast, _, negRows_ok.mpr ⟨room, rfl⟩, rfl⟩)⟩

theorem finalWord_val (h : finalWord n x s = .ok (f, u))
    (hlast : isFinalBlock s.params.inputLen s.keyLen n = last) : f.val = if last then ~~~x.val else x.val := by
  obtain ⟨hl, t, -, he⟩ | ⟨hl, he⟩ := finalWord_ok.mp h <;> cases he <;> rw [← hlast, hl] <;> rfl

/-- The Words of the vector VINIT writes (R225). -/
theorem vectorBindings_words {r : Nat} (hh : Words s.h hs) (hiv : IvWords s) (hx : s.iv[6] = some x)
    (hc : counter s.params.inputLen s.keyLen n = c) (hf : f.val = if last then ~~~x.val else x.val) :
    Words (vectorBindings s (some ⟨counterWord s n, r, .word⟩) (some f))
      (Blake2b.initVector hs c last) := by
  have hxv : x.val = ivWord 6 :=
    Option.some.inj ((congrArg (Option.map Binding.val) hx).symm.trans (hiv.get 6))
  have hcw : counterWord s n = ivWord 4 ^^^ BitVec.ofNat 64 c := hc ▸ rfl
  intro i
  fin_cases i
  exacts [hh 0, hh 1, hh 2, hh 3, hh 4, hh 5, hh 6, hh 7, hiv.get 0, hiv.get 1, hiv.get 2, hiv.get 3,
    congrArg some hcw, hiv.get 5, congrArg some (hf.trans (by rw [hxv]; rfl)), hiv.get 7]

end

theorem runs_vinit {blk : BitVec 26} {c : Nat} {last : Bool} {hs : Vector Word 8}
    (hl : s.loaded = true) (hg : s.gadget = .processingBlock) (hf : s.fault = none)
    (hb : blk.toNat < s.blockCount) (hc : counter s.params.inputLen s.keyLen blk.toNat = c)
    (hlast : isFinalBlock s.params.inputLen s.keyLen blk.toNat = last) (hh : Words s.h hs)
    (hiv : IvWords s) (room : Room (1 + if last then 2 else 0) s) :
    ∃ t, Runs [.vinit blk] (1 + if last then 2 else 0) s t ∧ Words t.v (Blake2b.initVector hs c last) ∧
      t.m = s.m ∧ t.h = s.h ∧ t.iv = s.iv ∧ t.z = s.z ∧ t.gadget = s.gadget := by
  have hcost : rowCost (.vinit blk) s = 1 + if last then 2 else 0 := by
    show (if isFinalBlock s.params.inputLen s.keyLen blk.toNat then 3 else 1) = _
    rw [hlast]
    cases last <;> rfl
  obtain ⟨x, hx⟩ := Option.ne_none_iff_exists'.mp (Words.ne_none hiv 6)
  obtain ⟨f, u, hfin⟩ := finalWord_completes x (s :=
    (s.pushRow (fixedRow (counterWord s blk.toNat))).copy (.f s.cur) (.k s.cur)) hlast
    (by rwa [Room, ← Nat.add_assoc] at room)
  have hu : bodyOf (.vinit blk) s = _ := vinitBody_ok.mpr ⟨hb,
    fun o ho => Option.ne_none_iff_exists'.mp (forall_mem_hOperands hh.ne_none o ho),
    fun o ho => Option.ne_none_iff_exists'.mp (forall_mem_vinitIvOperands (Words.ne_none hiv) o ho),
    x, f, u, hx, room.mono (Nat.le_add_right ..), hfin, rfl⟩
  have hrun := runs_command (i := .vinit blk) rfl hl (acceptsVinit_iff.mpr hg) hf hu
  rw [hcost] at hrun
  obtain ⟨hum, huh, huiv, huz, hug, -⟩ := vinitBody_frame hu
  have hval := finalWord_val hfin hlast
  exact ⟨_, hrun, vectorBindings_words hh hiv hx hc hval, hum, huh, huiv, huz, hug⟩

/-! ## COMPRESS -/

/-- `h` holds its Words on decomposed rows. -/
def HoldsRows (hs : Vector Word 8) (s : State) : Prop :=
  ∀ i : Fin 8, ∃ b, s.h[i] = some b ∧ b.val = hs[i] ∧ b.kind = .row

theorem HoldsRows.words {hs : Vector Word 8} (h : HoldsRows hs s) : Words s.h hs := fun i => by
  obtain ⟨b, hb, hval, -⟩ := h i
  rw [hb, ← hval]
  rfl

/-- In `t` the words of `h` are those of `hs`, on decomposed rows, and `v` holds `vs`; what COMPRESS does
not write is as in `s`. -/
structure Compressed (hs : Vector Word 8) (vs : Vector Word 16) (s t : State) : Prop where
  hs : HoldsRows hs t
  vs : Words t.v vs
  m : t.m = s.m
  iv : t.iv = s.iv
  gadget : t.gadget = s.gadget
  z : t.z = s.z

/-- The rows of COMPRESS (R319), `last` for the final block. -/
def compressRows (last : Bool) : Nat := if last then 2539 else 2537

theorem compressRows_eq (last : Bool) :
    compressRows last = (1 + if last then 2 else 0) + (2496 + 5 * (List.finRange 8).length) := by
  cases last <;> rfl

theorem runs_compress {blk : BitVec 26} {c : Nat} {last : Bool} {hs : Vector Word 8} {ms : Vector Word 16}
    (hl : s.loaded = true) (hg : s.gadget = .processingBlock) (hf : s.fault = none)
    (hb : blk.toNat < s.blockCount) (hc : counter s.params.inputLen s.keyLen blk.toNat = c)
    (hlast : isFinalBlock s.params.inputLen s.keyLen blk.toNat = last) (hh : Words s.h hs)
    (hiv : IvWords s) (hm : Words s.m ms) (room : Room (compressRows last) s) :
    ∃ t, Runs (compressInstrs blk) (compressRows last) s t ∧ Compressed (Blake2b.compress hs ms c last)
      (Blake2b.rounds ms (Blake2b.initVector hs c last)) s t := by
  rw [compressRows_eq] at room ⊢
  obtain ⟨t, ht, hv, htm, hth, htiv, htz, htg⟩ := runs_vinit hl hg hf hb hc hlast hh hiv
    (room.mono (Nat.le_add_right ..))
  have hready : ReadyForWords t := ⟨ht.host.loaded.trans hl, by rw [htg, hg]; rfl⟩
  have room' := ht.room room
  obtain ⟨u, hu, hmix⟩ := runs_allMixes hready ht.fault hv (htm ▸ hm) (room'.mono (Nat.le_add_right ..))
  obtain ⟨w, hw, hup⟩ := runs_updates (js := List.finRange 8) (List.nodup_finRange 8) hmix.ready hu.fault
    (fun i _ => by rw [hmix.h, hth, hh i]) hmix.vs (hu.room room')
  refine ⟨w, ht.append (hu.append hw), fun i => ?_, hup.v ▸ hmix.vs,
    hup.m.trans (hmix.m.trans htm), hup.iv.trans (hmix.iv.trans htiv),
    hup.gadget.trans (hmix.gadget.trans htg), hup.z.trans (hmix.z.trans htz)⟩
  obtain ⟨b, hb, hval, hk⟩ := hup.new i (List.mem_finRange i)
  exact ⟨b, hb, hval.trans (by simp [Blake2b.compress]), hk⟩

end

end Sys2Proof.Machine

/-! HASH computes the keyed hash, as commands and as the host's `hash`, which runs the words of these
commands (R91–R94, R250, R251, R288, R319). -/

namespace Sys2Proof

/-- Every legal command survives encoding: its fields are read back one by one, by format (R92–R94). -/
theorem decode_encode {i : Instr} (h : i.wf = true) : decode (encode i) = .ok i := by
  cases i with
  | init | out => decide
  | ldblk blk | vinit blk => simp [decode, encode, Instr.opcode]
  | add rd rs1 rs2 | xor rd rs1 rs2 =>
    have hw : rd.writable = true := h
    simp [decode, encode, Instr.opcode, decodeThree_ok, hw]
  | addp rd rs2 | xorp rd rs2 =>
    have hw : rd.writable = true := h
    simp [decode, encode, Instr.opcode, decodeReuse_ok, hw]
  | row rd rs1 | not rd rs1 | rotr16 rd rs1 | rotr24 rd rs1 | rotr32 rd rs1 | rotr63 rd rs1 =>
    have hw : rd.writable = true := h
    simp [decode, encode, Instr.opcode, decodeUnary_ok, hw]

end Sys2Proof

namespace Sys2Proof.Machine

/-! ## Block by block -/

/-- Between INIT and OUT: the machine holds the bytes `x` and `y`, `h` holds `hs`, and `iv` and `Z` are
what INIT made them. -/
structure Hashing (x y : List Byte) (hs : Vector Word 8) (s : State) : Prop where
  loaded : s.loaded = true
  gadget : s.gadget = .constantsLoaded ∨ s.gadget = .processingBlock
  input : s.x = x.map BitVec.toNat
  key : s.y = y.map BitVec.toNat
  len : s.params.inputLen = x.length
  z : s.z.isSome = true
  hs : Words s.h hs
  iv : IvWords s

section
variable {x y : List Byte} {hs : Vector Word 8} {nn b : Nat} {s t : State}

/-- A source holds its byte (R217). -/
theorem sourceValue_eq (hx : s.x = x.map BitVec.toNat) (hy : s.y = y.map BitVec.toNat)
    (src : ByteSource) : s.sourceValue src = (Blake2b.sourceByte x y src).toNat := by
  cases src with
  | input i =>
    rw [State.sourceValue, hx]
    exact (List.getD_map x 0 BitVec.toNat :)
  | key i =>
    rw [State.sourceValue, hy]
    exact (List.getD_map y 0 BitVec.toNat :)
  | zero => rfl

theorem Hashing.keyLen (h : Hashing x y hs s) : s.keyLen = y.length := by
  rw [State.keyLen, h.key, List.length_map]

theorem Hashing.blockCount (h : Hashing x y hs s) : s.blockCount = nblocks x.length y.length := by
  rw [State.blockCount, h.keyLen, h.len]

theorem Hashing.messageByte (h : Hashing x y hs s) (b : Nat) (j : Fin 16) (i : Fin 8) :
    s.messageByte b j i =
      (Blake2b.sourceByte x y (blockSource x.length y.length b (8 * j.val + i.val))).toNat := by
  rw [State.messageByte, State.source, sourceValue_eq h.input h.key, h.len, h.keyLen]

theorem Hashing.messageByte_lt (h : Hashing x y hs s) (b : Nat) (j : Fin 16) (i : Fin 8) :
    s.messageByte b j i < 256 := h.messageByte b j i ▸ BitVec.isLt _

/-- LDBLK loads the words of the block. -/
theorem runs_ldblk {blk : BitVec 26} (h : Hashing x y hs s) (hf : s.fault = none)
    (hb : blk.toNat < nblocks x.length y.length) (room : Room 16 s) :
    ∃ t, Runs [.ldblk blk] 16 s t ∧ Hashing x y hs t ∧ t.gadget = .processingBlock ∧
      Words t.m (Blake2b.blockWords x y blk.toNat) := by
  have hsrc : s.sourcesExist = true := by
    simp only [State.sourcesExist, h.input, List.length_map, h.len, h.z, beq_self_eq_true, Bool.and_self]
  have hbytes : blockInRange s blk.toNat = true :=
    List.all_eq_true.mpr fun j _ => allBytes_iff.mpr (h.messageByte_lt _ j)
  have hu : bodyOf (.ldblk blk) s = _ :=
    ldblkBody_ok.mpr ⟨h.blockCount ▸ hb, hsrc, fun _ => hbytes, room, rfl⟩
  refine ⟨_, runs_command rfl h.loaded (acceptsLdblk_iff.mpr h.gadget) hf hu,
    ⟨h.loaded, .inr rfl, h.input, h.key, h.len, h.z, h.hs, h.iv⟩, rfl, fun j => ?_⟩
  refine (congrArg (Option.map Binding.val) (messageBindings_getElem s _ _ j)).trans ?_
  rw [Option.map_some, messageWord_of_bytes (h.messageByte_lt _ j), funext (h.messageByte _ j)]
  simp [Blake2b.blockWords]

/-- INIT establishes what the blocks need (R211, R212). -/
theorem runs_init (hl : s.loaded = true) (hg : s.gadget = .uninitialized) (hf : s.fault = none)
    (hx : s.x = x.map BitVec.toNat) (hy : s.y = y.map BitVec.toNat)
    (hlen : s.params.inputLen = x.length) (hnn : s.params.outLen = nn) (h1 : 1 ≤ nn) (h2 : nn ≤ 64)
    (hk : y.length ≤ 64) (hmax : nblocks x.length y.length ≤ maxBlocks) (room : Room 10 s) :
    ∃ t, Runs [.init] 10 s t ∧ Hashing x y (Blake2b.initState y.length nn) t := by
  have hkey : s.keyLen = y.length := by rw [State.keyLen, hy, List.length_map]
  have hxl : s.x.length = s.params.inputLen := by rw [hx, List.length_map, hlen]
  have hcount : s.blockCount ≤ maxBlocks := by rwa [State.blockCount, hkey, hlen]
  have hu : bodyOf .init s = _ :=
    initBody_ok.mpr ⟨hnn ▸ ⟨h1, h2⟩, hkey ▸ hk, hxl, hcount, room, rfl⟩
  refine ⟨_, runs_command rfl hl (hg ▸ rfl) hf hu, hl, .inl rfl, hx, hy, hlen, rfl,
    fun i => ?_, fun i => ?_⟩
  · simp only [hkey, hnn, hBindings, Blake2b.initState, Fin.getElem_fin, Vector.getElem_ofFn]
    split <;> rfl
  · simp [ivBindings]

/-- The commands of a block. -/
def blockInstrs (b : Nat) : List Instr :=
  .ldblk (BitVec.ofNat 26 b) :: compressInstrs (BitVec.ofNat 26 b)

theorem hashInstrs_eq (n kk : Nat) :
    hashInstrs n kk = .init :: (List.range (nblocks n kk)).flatMap blockInstrs ++ [.out] := rfl

/-- A block is compressed into `h` (R245, R246). -/
theorem runs_block (h : Hashing x y hs s) (hf : s.fault = none) (hb : b < nblocks x.length y.length)
    (hmax : nblocks x.length y.length ≤ maxBlocks)
    (room : Room (16 + compressRows (isFinalBlock x.length y.length b)) s) :
    ∃ t, Runs (blockInstrs b) (16 + compressRows (isFinalBlock x.length y.length b)) s t ∧
      Hashing x y (Blake2b.compress hs (Blake2b.blockWords x y b) (counter x.length y.length b)
        (isFinalBlock x.length y.length b)) t ∧ t.gadget = .processingBlock ∧
      HoldsRows (Blake2b.compress hs (Blake2b.blockWords x y b) (counter x.length y.length b)
        (isFinalBlock x.length y.length b)) t := by
  have hblk : (BitVec.ofNat 26 b).toNat = b := by
    rw [BitVec.toNat_ofNat]
    exact Nat.mod_eq_of_lt (hb.trans_le hmax)
  obtain ⟨t, ht, h', hg, hm⟩ := runs_ldblk (blk := BitVec.ofNat 26 b) h hf (hblk.symm ▸ hb)
    (room.mono (Nat.le_add_right ..))
  obtain ⟨u, hu, hu'⟩ := runs_compress h'.loaded hg ht.fault (by rw [h'.blockCount, hblk]; exact hb)
    (by rw [h'.len, h'.keyLen, hblk]) (by rw [h'.len, h'.keyLen, hblk]) h'.hs h'.iv (hblk ▸ hm)
    (ht.room room)
  refine ⟨u, ht.append hu, ⟨?_, .inr (hu'.gadget.trans hg), ?_, ?_, ?_, ?_, hu'.hs.words, ?_⟩,
    hu'.gadget.trans hg, hu'.hs⟩
  · exact hu.host.loaded.trans h'.loaded
  · exact hu.host.x.trans h'.input
  · exact hu.host.y.trans h'.key
  · rw [hu.host.params, h'.len]
  · rw [hu'.z, h'.z]
  · unfold IvWords
    exact hu'.iv ▸ h'.iv

theorem stateAfter_succ (x y : List Byte) (nn k : Nat) : Blake2b.stateAfter x y nn (k + 1) =
    Blake2b.compress (Blake2b.stateAfter x y nn k) (Blake2b.blockWords x y k)
      (counter x.length y.length k) (isFinalBlock x.length y.length k) := by
  simp only [Blake2b.stateAfter, List.range_succ, List.foldl_append, List.foldl_cons, List.foldl_nil]

theorem isFinalBlock_eq_false {n kk k : Nat} (h : k + 1 < nblocks n kk) :
    isFinalBlock n kk k = false := beq_false_of_ne h.ne

/-- The blocks before the last one. -/
theorem runs_blocks (h : Hashing x y (Blake2b.stateAfter x y nn 0) s) (hf : s.fault = none)
    (hmax : nblocks x.length y.length ≤ maxBlocks) (k : Nat) (hk : k < nblocks x.length y.length)
    (room : Room (2553 * k) s) :
    ∃ t, Runs ((List.range k).flatMap blockInstrs) (2553 * k) s t ∧
      Hashing x y (Blake2b.stateAfter x y nn k) t := by
  induction k with
  | zero => exact ⟨s, .nil hf, h⟩
  | succ k ih =>
    obtain ⟨t, ht, h'⟩ := ih (Nat.lt_of_succ_lt hk) (room.mono (Nat.mul_le_mul_left _ (Nat.le_succ k)))
    have hrows : 16 + compressRows (isFinalBlock x.length y.length k) = 2553 := by
      rw [isFinalBlock_eq_false hk]
      rfl
    obtain ⟨u, hu, hu', -⟩ := runs_block h' ht.fault (Nat.lt_of_succ_lt hk) hmax
      (hrows.symm ▸ ht.room room)
    rw [List.range_succ, List.flatMap_append, List.flatMap_singleton, stateAfter_succ]
    exact ⟨u, hrows ▸ ht.append hu, hu'⟩

/-! ## The digest -/

/-- OUT of words on decomposed rows emits no row (R248). -/
theorem runs_out (hl : s.loaded = true) (hg : s.gadget = .processingBlock) (hf : s.fault = none)
    (h : HoldsRows hs s) :
    ∃ t, Runs [.out] 0 s t ∧ t.gadget = .finalized ∧ HoldsRows hs t := by
  have hrows : ∀ i : Fin 8, ∃ b, s.h[i] = some b ∧ b.kind = .row := fun i => by
    obtain ⟨b, hb, -, hk⟩ := h i
    exact ⟨b, hb, hk⟩
  have hbound := fun o ho => Option.ne_none_iff_exists'.mp
    (forall_mem_hOperands h.words.ne_none o ho)
  have hu : bodyOf .out s = _ := outBody_ok.mpr ⟨hbound, s, decomposeH_of_rows hrows, rfl⟩
  have hcost : rowCost .out s = 0 := Nat.add_left_cancel (bodyOf_cur hu).symm
  have hrun := runs_command (i := .out) rfl hl (acceptsOut_iff.mpr hg) hf hu
  rw [hcost] at hrun
  exact ⟨_, hrun, rfl, h⟩

/-- What a finalised machine without a fault returns (R65, R248). -/
theorem output_of_holdsRows (hg : s.gadget = .finalized) (hf : s.fault = none) (h : HoldsRows hs s) :
    ∃ cells, s.output = some (cells, (List.finRange 64).map fun k =>
        byteAt hs[k.val / 8] ⟨k.val % 8, by omega⟩) ∧
      cells.length = 64 ∧ ∀ k : Fin 64, ∃ b, s.h[k.val / 8] = some b ∧
        cells[k.val]? = some (.l ⟨k.val % 8, by omega⟩ b.row) := by
  choose b hb hval _ using h
  have hcell : s.digestCell? = some ∘ fun k => Cell.l (digestLane k) (b (digestWord k)).row :=
    funext fun k => congrArg (Option.map _) (hb (digestWord k))
  have hbyte : s.digestByte? = some ∘ fun k => byteAt hs[digestWord k] (digestLane k) :=
    funext fun k => (congrArg (Option.map _) (hb (digestWord k))).trans
      (by rw [Option.map_some, hval]; rfl)
  refine ⟨(List.finRange 64).map fun k => Cell.l (digestLane k) (b (digestWord k)).row, ?_, by simp,
    fun k => ⟨b (digestWord k), hb (digestWord k), by simp [digestLane]⟩⟩
  simp only [State.output, hf, hg, hcell, hbyte, List.filterMap_eq_map]
  rfl

theorem nblocks_pos (n kk : Nat) : 0 < nblocks n kk := by
  unfold nblocks
  split
  · exact Nat.one_pos
  · split <;> omega

/-- HASH as commands (R250, R251). -/
theorem runs_hash (hl : s.loaded = true) (hg : s.gadget = .uninitialized) (hf : s.fault = none)
    (hx : s.x = x.map BitVec.toNat) (hy : s.y = y.map BitVec.toNat)
    (hlen : s.params.inputLen = x.length) (hnn : s.params.outLen = nn) (h1 : 1 ≤ nn) (h2 : nn ≤ 64)
    (hk : y.length ≤ 64) (hmax : nblocks x.length y.length ≤ maxBlocks)
    (room : Room (12 + 2553 * nblocks x.length y.length) s) :
    ∃ t, Runs (hashInstrs x.length y.length) (12 + 2553 * nblocks x.length y.length) s t ∧
      t.gadget = .finalized ∧
      HoldsRows (Blake2b.stateAfter x y nn (nblocks x.length y.length)) t := by
  obtain ⟨n, hn⟩ : ∃ n, nblocks x.length y.length = n + 1 :=
    Nat.exists_eq_succ_of_ne_zero (nblocks_pos _ _).ne'
  have hlast : isFinalBlock x.length y.length n = true := beq_iff_eq.mpr hn.symm
  have hrows : 12 + 2553 * nblocks x.length y.length =
      10 + (2553 * n + (16 + compressRows true + 0)) := by
    have : compressRows true = 2539 := rfl
    omega
  rw [hrows] at room ⊢
  obtain ⟨s₁, hr₁, hs₁⟩ := runs_init hl hg hf hx hy hlen hnn h1 h2 hk hmax
    (room.mono (Nat.le_add_right ..))
  have room₁ := hr₁.room room
  obtain ⟨s₂, hr₂, hs₂⟩ := runs_blocks (nn := nn) hs₁ hr₁.fault hmax n (by omega)
    (room₁.mono (Nat.le_add_right ..))
  obtain ⟨s₃, hr₃, hs₃, hg₃, hh₃⟩ := runs_block (b := n) hs₂ hr₂.fault (by omega) hmax
    (by rw [hlast]; exact hr₂.room room₁)
  rw [hlast] at hr₃
  obtain ⟨t, ht, hgt, hht⟩ := runs_out hs₃.loaded hg₃ hr₃.fault hh₃
  refine ⟨t, ?_, hgt, ?_⟩
  · rw [hashInstrs_eq, hn, List.range_succ, List.flatMap_append, List.flatMap_singleton]
    have := hr₁.append (hr₂.append (hr₃.append ht))
    simpa using this
  · rw [hn, stateAfter_succ, hlast]
    rwa [hlast] at hht

end

/-! ## The program of HASH -/

theorem length_blockInstrs (b : Nat) : (blockInstrs b).length = 1362 := by
  have hmix : allMixes.length = 1344 := by
    simp [allMixes, roundMix, mixInstrs]
  simp [blockInstrs, compressInstrs, hmix, updateInstrs]

theorem length_hashInstrs (n kk : Nat) : (hashInstrs n kk).length = 2 + 1362 * nblocks n kk := by
  simp [hashInstrs_eq, length_blockInstrs]
  omega

theorem mixInstrs_wf (a b c d x y : Fin 16) : ∀ i ∈ mixInstrs a b c d x y, i.wf = true := by
  simp [mixInstrs, Instr.wf, Instr.dest?, Operand.writable]

theorem compressInstrs_wf (blk : BitVec 26) : ∀ i ∈ compressInstrs blk, i.wf = true := by
  refine List.forall_mem_cons.mpr ⟨rfl, List.forall_mem_append.mpr
    ⟨List.forall_mem_flatMap.mpr fun n _ => List.forall_mem_flatMap.mpr fun j _ =>
      mixInstrs_wf _ _ _ _ _ _, List.forall_mem_flatMap.mpr fun j _ => ?_⟩⟩
  simp [updateInstrs, Instr.wf, Instr.dest?, Operand.writable]

theorem hashInstrs_wf (n kk : Nat) : ∀ i ∈ hashInstrs n kk, i.wf = true :=
  List.forall_mem_append.mpr ⟨List.forall_mem_cons.mpr ⟨rfl, List.forall_mem_flatMap.mpr fun _ _ =>
    List.forall_mem_cons.mpr ⟨rfl, compressInstrs_wf _⟩⟩, List.forall_mem_singleton.mpr rfl⟩

/-- A command that completes moves on in its program. -/
theorem exec_program_pc {i : Instr} {s t : State} (h : exec i s = .next t) (hf : t.fault = none) :
    t.program = s.program ∧ t.pc = s.pc + 1 := by
  obtain ⟨e, rfl⟩ | ⟨-, -, -, u, hu, rfl⟩ := exec_next h
  · cases hf
  · exact ⟨(bodyOf_builds hu).sameHost.program, congrArg (· + 1) (bodyOf_builds hu).pc_eq⟩

/-- Settles O60: INIT, the blocks and OUT run one after the other (`runs_hash`), and the host's `hash` runs
the words of these commands. -/
theorem hashComputesKeyedBlake2b : Obligations.HashComputesKeyedBlake2b := by
  refine ⟨fun x y nn s hl hg hf hx hy hlen hnn h1 h2 hk hmax room => ?_,
    fun x y nn s input key hl hf hx hy h1 h2 hk hmax room => ?_⟩
  · obtain ⟨t, ht, hgt, hh⟩ := runs_hash hl hg hf hx hy hlen hnn h1 h2 hk hmax room
    obtain ⟨cells, hout, -⟩ := output_of_holdsRows hgt ht.fault hh
    refine ⟨t, ht.run, ht.fault, hgt, by rw [hout]; rfl, ?_, ?_⟩
    · rw [ht.pc, length_hashInstrs, Nat.add_assoc]
    · rw [ht.cur, Nat.add_assoc]
  · have hxl : input.length = x.length := by simpa using congrArg List.length hx
    have hyl : key.length = y.length := by simpa using congrArg List.length hy
    have hprep := prepareHash_of_no_fault hf input key nn
    rw [hxl, hyl] at hprep
    obtain ⟨t, ht, hgt, hh⟩ := runs_hash (x := x) (y := y) (nn := nn) (s := s.prepareHash input key nn)
      (hprep ▸ hl) (hprep ▸ rfl) (hprep ▸ rfl) (hprep ▸ hx) (hprep ▸ hy) (hprep ▸ rfl) (hprep ▸ rfl) h1 h2
      hk hmax (hprep ▸ (Nat.zero_add _).le.trans room)
    obtain ⟨cells, hout, hlen, hcells⟩ := output_of_holdsRows hgt ht.fault hh
    have hpc : (s.prepareHash input key nn).pc = 0 := hprep ▸ rfl
    have hcur : (s.prepareHash input key nn).cur = 0 := hprep ▸ rfl
    have hprog : (s.prepareHash input key nn).program = assemble (hashInstrs x.length y.length) :=
      hprep ▸ rfl
    refine ⟨t, cells, ?_, ?_, hlen, hcells, ?_, ?_⟩
    · exact (run_of_assemble hpc hprog (fun i hi => decode_encode (hashInstrs_wf _ _ i hi))
        fun i _ a b hab hfb => exec_program_pc hab hfb).trans ht.run
    · simp only [State.reply, ht.fault, hout]
      rfl
    · rw [ht.pc, hpc, ht.host.program, hprog, assemble, List.length_map, Nat.zero_add]
    · rw [ht.cur, hcur, Nat.zero_add]

end Sys2Proof.Machine

/-! Encoding: decoder and encoder are inverse (R91–R98), the words that decode are those of the opcode map
(R95, R97), and what a step does with a word of either sort (R90, R97). -/

namespace Sys2Proof

/-! ## When a word is the word of given fields (R91) -/

theorem eq_formatR_iff {w : CommandWord} {op rd rs1 rs2 : BitVec 6} :
    w = formatR op rd rs1 rs2 ↔ opcodeField w = op ∧ rdField w = rd ∧ rs1Field w = rs1 ∧
      rs2Field w = rs2 ∧ zeroField w = 0 := by
  constructor
  · rintro rfl
    simp
  · rintro ⟨rfl, rfl, rfl, rfl, hzero⟩
    exact (formatR_fields hzero).symm

theorem eq_formatB_iff {w : CommandWord} {op : BitVec 6} {blk : BitVec 26} :
    w = formatB op blk ↔ opcodeField w = op ∧ blkField w = blk := by
  constructor
  · rintro rfl
    simp
  · rintro ⟨rfl, rfl⟩
    exact (formatB_fields w).symm

/-! ## The word of a command that was decoded (R92–R94) -/

theorem decodeN_legal {w : CommandWord} {i j : Instr} {op : BitVec 6}
    (hop : (opcodeField w).toNat = op.toNat) (hwf : i.wf = true) (henc : encode i = formatB op 0)
    (h : decodeN i w = .ok j) : j.wf = true ∧ encode j = w := by
  obtain ⟨hblk, rfl⟩ := decodeN_ok.mp h
  exact ⟨hwf, henc.trans (eq_formatB_iff.mpr ⟨BitVec.eq_of_toNat_eq hop, hblk⟩).symm⟩

theorem decodeThree_legal {w : CommandWord} {i : Instr} {op : BitVec 6}
    {mk : Operand → Operand → Operand → Instr} (hop : (opcodeField w).toNat = op.toNat)
    (hwf : ∀ rd rs1 rs2, (mk rd rs1 rs2).wf = rd.writable)
    (henc : ∀ rd rs1 rs2, encode (mk rd rs1 rs2) = formatR op rd.index rs1.index rs2.index)
    (h : decodeThree mk w = .ok i) : i.wf = true ∧ encode i = w := by
  obtain ⟨hzero, rd, rs1, rs2, hrd, hw, hrs1, hrs2, rfl⟩ := decodeThree_ok.mp h
  exact ⟨(hwf rd rs1 rs2).trans hw, (henc rd rs1 rs2).trans (eq_formatR_iff.mpr
    ⟨BitVec.eq_of_toNat_eq hop, (index_of_ofIndex hrd).symm, (index_of_ofIndex hrs1).symm,
      (index_of_ofIndex hrs2).symm, hzero⟩).symm⟩

theorem decodeUnary_legal {w : CommandWord} {i : Instr} {op : BitVec 6} {mk : Operand → Operand → Instr}
    (hop : (opcodeField w).toNat = op.toNat) (hwf : ∀ rd rs1, (mk rd rs1).wf = rd.writable)
    (henc : ∀ rd rs1, encode (mk rd rs1) = formatR op rd.index rs1.index 0)
    (h : decodeUnary mk w = .ok i) : i.wf = true ∧ encode i = w := by
  obtain ⟨hzero, hrs2, rd, rs1, hrd, hw, hrs1, rfl⟩ := decodeUnary_ok.mp h
  exact ⟨(hwf rd rs1).trans hw, (henc rd rs1).trans (eq_formatR_iff.mpr
    ⟨BitVec.eq_of_toNat_eq hop, (index_of_ofIndex hrd).symm, (index_of_ofIndex hrs1).symm, hrs2,
      hzero⟩).symm⟩

theorem decodeReuse_legal {w : CommandWord} {i : Instr} {op : BitVec 6} {mk : Operand → Operand → Instr}
    (hop : (opcodeField w).toNat = op.toNat) (hwf : ∀ rd rs2, (mk rd rs2).wf = rd.writable)
    (henc : ∀ rd rs2, encode (mk rd rs2) = formatR op rd.index 0 rs2.index)
    (h : decodeReuse mk w = .ok i) : i.wf = true ∧ encode i = w := by
  obtain ⟨hzero, hrs1, rd, rs2, hrd, hw, hrs2, rfl⟩ := decodeReuse_ok.mp h
  exact ⟨(hwf rd rs2).trans hw, (henc rd rs2).trans (eq_formatR_iff.mpr
    ⟨BitVec.eq_of_toNat_eq hop, (index_of_ofIndex hrd).symm, hrs1, (index_of_ofIndex hrs2).symm,
      hzero⟩).symm⟩

/-- A word that decodes is the word of a legal command: by its opcode, and then by its format. -/
theorem decode_legal {w : CommandWord} {i : Instr} (h : decode w = .ok i) :
    i.wf = true ∧ encode i = w := by
  unfold decode at h
  split at h
  next hop => exact decodeN_legal (op := 0x01) hop rfl rfl h
  next hop =>
    obtain rfl := Except.ok.inj h
    exact ⟨rfl, (eq_formatB_iff.mpr ⟨opcodeField_of_toNat hop, rfl⟩).symm⟩
  next hop =>
    obtain rfl := Except.ok.inj h
    exact ⟨rfl, (eq_formatB_iff.mpr ⟨opcodeField_of_toNat hop, rfl⟩).symm⟩
  next hop => exact decodeN_legal (op := 0x04) hop rfl rfl h
  next hop => exact decodeUnary_legal (op := 0x05) hop (fun _ _ => rfl) (fun _ _ => rfl) h
  next hop => exact decodeThree_legal (op := 0x08) hop (fun _ _ _ => rfl) (fun _ _ _ => rfl) h
  next hop => exact decodeReuse_legal (op := 0x09) hop (fun _ _ => rfl) (fun _ _ => rfl) h
  next hop => exact decodeThree_legal (op := 0x0A) hop (fun _ _ _ => rfl) (fun _ _ _ => rfl) h
  next hop => exact decodeReuse_legal (op := 0x0B) hop (fun _ _ => rfl) (fun _ _ => rfl) h
  next hop => exact decodeUnary_legal (op := 0x0C) hop (fun _ _ => rfl) (fun _ _ => rfl) h
  next hop => exact decodeUnary_legal (op := 0x10) hop (fun _ _ => rfl) (fun _ _ => rfl) h
  next hop => exact decodeUnary_legal (op := 0x11) hop (fun _ _ => rfl) (fun _ _ => rfl) h
  next hop => exact decodeUnary_legal (op := 0x12) hop (fun _ _ => rfl) (fun _ _ => rfl) h
  next hop => exact decodeUnary_legal (op := 0x13) hop (fun _ _ => rfl) (fun _ _ => rfl) h
  next => cases h

/-- The words that decode are the words of the legal commands. -/
theorem decode_eq_ok_iff {w : CommandWord} {i : Instr} :
    decode w = .ok i ↔ i.wf = true ∧ encode i = w :=
  ⟨decode_legal, fun ⟨hwf, hw⟩ => hw ▸ decode_encode hwf⟩

/-! ## Which words each format decodes (R97) -/

theorem exists_decodeN {i : Instr} {w : CommandWord} :
    (∃ j, decodeN i w = .ok j) ↔ blkField w = 0 := by
  simp only [decodeN_ok, exists_and_left, exists_eq, and_true]

theorem exists_decodeThree {mk : Operand → Operand → Operand → Instr} {w : CommandWord} :
    (∃ i, decodeThree mk w = .ok i) ↔ zeroField w = 0 ∧ (rdField w).toNat < 40 ∧
      (rs1Field w).toNat < 48 ∧ (rs2Field w).toNat < 48 := by
  simp only [decodeThree_ok, ← exists_writable_ofIndex, ← exists_ofIndex]
  constructor
  · rintro ⟨i, hzero, rd, rs1, rs2, hrd, hw, hrs1, hrs2, -⟩
    exact ⟨hzero, ⟨rd, hrd, hw⟩, ⟨rs1, hrs1⟩, rs2, hrs2⟩
  · rintro ⟨hzero, ⟨rd, hrd, hw⟩, ⟨rs1, hrs1⟩, rs2, hrs2⟩
    exact ⟨_, hzero, rd, rs1, rs2, hrd, hw, hrs1, hrs2, rfl⟩

theorem exists_decodeUnary {mk : Operand → Operand → Instr} {w : CommandWord} :
    (∃ i, decodeUnary mk w = .ok i) ↔ rs2Field w = 0 ∧ zeroField w = 0 ∧
      (rdField w).toNat < 40 ∧ (rs1Field w).toNat < 48 := by
  simp only [decodeUnary_ok, ← exists_writable_ofIndex, ← exists_ofIndex]
  constructor
  · rintro ⟨i, hzero, hrs2, rd, rs1, hrd, hw, hrs1, -⟩
    exact ⟨hrs2, hzero, ⟨rd, hrd, hw⟩, rs1, hrs1⟩
  · rintro ⟨hrs2, hzero, ⟨rd, hrd, hw⟩, rs1, hrs1⟩
    exact ⟨_, hzero, hrs2, rd, rs1, hrd, hw, hrs1, rfl⟩

theorem exists_decodeReuse {mk : Operand → Operand → Instr} {w : CommandWord} :
    (∃ i, decodeReuse mk w = .ok i) ↔ rs1Field w = 0 ∧ zeroField w = 0 ∧
      (rdField w).toNat < 40 ∧ (rs2Field w).toNat < 48 := by
  simp only [decodeReuse_ok, ← exists_writable_ofIndex, ← exists_ofIndex]
  constructor
  · rintro ⟨i, hzero, hrs1, rd, rs2, hrd, hw, hrs2, -⟩
    exact ⟨hrs1, hzero, ⟨rd, hrd, hw⟩, rs2, hrs2⟩
  · rintro ⟨hrs1, hzero, ⟨rd, hrd, hw⟩, rs2, hrs2⟩
    exact ⟨_, hzero, hrs1, rd, rs2, hrd, hw, hrs2, rfl⟩

/-! ## Masked words, field by field (R91, R95) -/

theorem zeroField_and (w m : CommandWord) : zeroField (w &&& m) = zeroField w &&& zeroField m :=
  BitVec.extractLsb'_and

theorem rdField_and (w m : CommandWord) : rdField (w &&& m) = rdField w &&& rdField m :=
  BitVec.extractLsb'_and

theorem rs1Field_and (w m : CommandWord) : rs1Field (w &&& m) = rs1Field w &&& rs1Field m :=
  BitVec.extractLsb'_and

theorem rs2Field_and (w m : CommandWord) : rs2Field (w &&& m) = rs2Field w &&& rs2Field m :=
  BitVec.extractLsb'_and

theorem opcodeField_and (w m : CommandWord) :
    opcodeField (w &&& m) = opcodeField w &&& opcodeField m :=
  BitVec.extractLsb'_and

theorem blkField_and (w m : CommandWord) : blkField (w &&& m) = blkField w &&& blkField m :=
  BitVec.extractLsb'_and

end Sys2Proof

namespace Sys2Proof.Machine

/-! ## The rows of the opcode map, by format (R92–R95) -/

/-- The word is one the row spells (R95, R97 (c), (d)): what `spellsCommand` asks of a row. -/
def OpcodeRow.Spells (row : OpcodeRow) (w : CommandWord) : Prop :=
  w &&& row.mask = row.bits ∧
    (row.usesRd = true → (rdField w).toNat < 40) ∧
    (row.usesRs1 = true → (rs1Field w).toNat < 48) ∧
    (row.usesRs2 = true → (rs2Field w).toNat < 48)

theorem spellsCommand_iff {w : CommandWord} : spellsCommand w ↔ ∃ row ∈ opcodeMap, row.Spells w :=
  Iff.rfl

/-- The mask of a field: all of its bits when it must be zero, none when the command uses it (R98). -/
def fieldMask (n : Nat) (used : Bool) : BitVec n := if used then 0 else BitVec.allOnes n

theorem and_fieldMask {n : Nat} {used : Bool} {x : BitVec n} :
    x &&& fieldMask n used = 0 ↔ (used = false → x = 0) := by
  cases used <;> simp [fieldMask]

/-- The mask of format B or, when the block index is not used, of format N. -/
def formatBMask (usesBlk : Bool) : CommandWord := formatB (BitVec.allOnes 6) (fieldMask 26 usesBlk)

/-- The mask of format R. -/
def formatRMask (usesRs1 usesRs2 : Bool) : CommandWord :=
  formatR (BitVec.allOnes 6) 0 (fieldMask 6 usesRs1) (fieldMask 6 usesRs2) ||| 0xFF

theorem formatRMask_fields (usesRs1 usesRs2 : Bool) :
    opcodeField (formatRMask usesRs1 usesRs2) = BitVec.allOnes 6 ∧
      rdField (formatRMask usesRs1 usesRs2) = 0 ∧
      rs1Field (formatRMask usesRs1 usesRs2) = fieldMask 6 usesRs1 ∧
      rs2Field (formatRMask usesRs1 usesRs2) = fieldMask 6 usesRs2 ∧
      zeroField (formatRMask usesRs1 usesRs2) = BitVec.allOnes 8 := by
  revert usesRs1 usesRs2
  decide

/-- The row of an opcode of format B or N. -/
def OpcodeRow.formB (op : BitVec 6) (usesBlk : Bool) : OpcodeRow :=
  ⟨formatB op 0, formatBMask usesBlk, false, false, false⟩

/-- The row of an opcode of format R. -/
def OpcodeRow.formR (op : BitVec 6) (usesRs1 usesRs2 : Bool) : OpcodeRow :=
  ⟨formatR op 0 0 0, formatRMask usesRs1 usesRs2, true, usesRs1, usesRs2⟩

theorem opcodeMap_eq_forms : opcodeMap =
    [.formB 0x01 false, .formB 0x02 true, .formB 0x03 true, .formB 0x04 false, .formR 0x05 true false,
      .formR 0x08 true true, .formR 0x09 false true, .formR 0x0A true true, .formR 0x0B false true,
      .formR 0x0C true false, .formR 0x10 true false, .formR 0x11 true false, .formR 0x12 true false,
      .formR 0x13 true false] := by decide

theorem spells_formB {op : BitVec 6} {usesBlk : Bool} {w : CommandWord} :
    (OpcodeRow.formB op usesBlk).Spells w ↔
      opcodeField w = op ∧ (usesBlk = false → blkField w = 0) := by
  have hmask : w &&& formatBMask usesBlk = formatB op 0 ↔
      opcodeField w = op ∧ (usesBlk = false → blkField w = 0) := by
    rw [eq_formatB_iff, opcodeField_and, blkField_and, formatBMask, opcodeField_formatB,
      blkField_formatB, BitVec.and_allOnes, and_fieldMask]
  simp only [OpcodeRow.Spells, OpcodeRow.formB, hmask]
  simp

theorem spells_formR {op : BitVec 6} {usesRs1 usesRs2 : Bool} {w : CommandWord} :
    (OpcodeRow.formR op usesRs1 usesRs2).Spells w ↔
      opcodeField w = op ∧ (usesRs1 = false → rs1Field w = 0) ∧ (usesRs2 = false → rs2Field w = 0) ∧
        zeroField w = 0 ∧ (rdField w).toNat < 40 ∧ (usesRs1 = true → (rs1Field w).toNat < 48) ∧
        (usesRs2 = true → (rs2Field w).toNat < 48) := by
  obtain ⟨hop, hrd, hrs1, hrs2, hzero⟩ := formatRMask_fields usesRs1 usesRs2
  have hmask : w &&& formatRMask usesRs1 usesRs2 = formatR op 0 0 0 ↔
      opcodeField w = op ∧ (usesRs1 = false → rs1Field w = 0) ∧ (usesRs2 = false → rs2Field w = 0) ∧
        zeroField w = 0 := by
    rw [eq_formatR_iff, opcodeField_and, rdField_and, rs1Field_and, rs2Field_and, zeroField_and, hop,
      hrd, hrs1, hrs2, hzero, BitVec.and_allOnes, and_fieldMask, and_fieldMask, BitVec.and_allOnes]
    simp
  simp only [OpcodeRow.Spells, OpcodeRow.formR, hmask, forall_const, and_assoc]

/-- A word decodes when a row of the opcode map spells it: by its opcode, and then by its format. -/
theorem exists_decode_iff (w : CommandWord) : (∃ i, decode w = .ok i) ↔ spellsCommand w := by
  rw [spellsCommand_iff, opcodeMap_eq_forms]
  simp only [List.exists_mem_cons_iff, spells_formB, spells_formR, ← BitVec.toNat_inj (x := opcodeField w)]
  unfold decode
  split
  case h_15 => simp_all -- R99: a reserved opcode is that of no row
  all_goals
    rename_i hop
    simp [hop, exists_decodeN, exists_decodeThree, exists_decodeUnary, exists_decodeReuse]

/-! ## Fetching a word (R28, R90, R97) -/

theorem placeWord_getElem? (n : Nat) (w : CommandWord) (p : List CommandWord) :
    (placeWord n w p)[n]? = some w :=
  List.getElem?_set_self (by simp; omega)

theorem fetch_withFetchWord (s : State) (nbits w : Nat) :
    (s.withFetchWord nbits w).fetch = some (BitVec.ofNat 32 (w % 2 ^ nbits)) :=
  fetch_eq_some.mpr ⟨rfl, placeWord_getElem? _ _ _⟩

theorem decode_of_decodeTableWord {nbits w : Nat} {i : Instr} (h : decodeTableWord nbits w = some i) :
    decode (BitVec.ofNat 32 (w % 2 ^ nbits)) = .ok i := by
  cases hd : decode (BitVec.ofNat 32 (w % 2 ^ nbits)) with
  | ok j => simpa [decodeTableWord, hd, Except.toOption] using h
  | error e => simp [decodeTableWord, hd, Except.toOption] at h

theorem step_of_decode_ok {s : State} {w : CommandWord} {i : Instr} (hfetch : s.fetch = some w)
    (hd : decode w = .ok i) : step s = exec i s := by
  simp only [step, hfetch, hd]

theorem step_of_decode_error {s : State} {w : CommandWord} {e : DecodeError}
    (hfetch : s.fetch = some w) (hd : decode w = .error e) :
    step s = .next (raiseFault .illegalCommand s) := by
  simp only [step, hfetch, hd]

theorem exec_of_not_wf {i : Instr} (s : State) (h : i.wf = false) :
    exec i s = .next (raiseFault .illegalCommand s) := by
  rw [exec_eq_command, h, command_illegal]

/-! ## The obligations -/

/-- Settles O1: the fields of the word are read back one by one (`decode_encode`). -/
theorem decodeEncodeRoundTrip : Obligations.DecodeEncodeRoundTrip :=
  fun _ => decode_encode

/-- Settles O2: each format's decoder reads every field of the word or finds it zero (`decode_legal`). -/
theorem decodedWordIsItsEncoding : Obligations.DecodedWordIsItsEncoding :=
  fun _ _ => decode_legal

/-- Settles O3: the masks of the map are those of the formats, and a masked word is compared field by
field. -/
theorem legalWordsAreTheOpcodeMap : Obligations.LegalWordsAreTheOpcodeMap :=
  exists_decode_iff

/-- Settles O4: the commands are legal and encode to their words, so the words decode to them. -/
theorem workedWordsDecode : Obligations.WorkedWordsDecode := by
  unfold Obligations.WorkedWordsDecode
  simp only [decode_eq_ok_iff]
  decide

/-- Settles O5: both machines fetch a word that decodes, the second the one that was placed. -/
theorem stepRunsDecodedCommand : Obligations.StepRunsDecodedCommand :=
  ⟨fun _ _ _ hf hw hd => step_of_decode_ok (fetch_eq_some.mpr ⟨hf, hw⟩) hd,
    fun s nbits w _ hd => step_of_decode_ok (fetch_withFetchWord s nbits w) (decode_of_decodeTableWord hd)⟩

/-- Settles O6: legality is the first check of every command, ahead of the tables and the gadget state. -/
theorem illegalCommandsFault : Obligations.IllegalCommandsFault :=
  ⟨fun _ _ _ hf hw hd => step_of_decode_error (fetch_eq_some.mpr ⟨hf, hw⟩) hd,
    fun s _ h => exec_of_not_wf s h⟩

end Sys2Proof.Machine

/-! Decomposition: what ROW leaves when it completes (R123, R124), and the soundness of its gate (R126). -/

namespace Sys2Proof.Machine

/-- The result of a decomposition, as one `publish` over one longer state. -/
theorem rowBody_grow {rd rs1 : Operand} {b : Binding} {s : State} (hb : s.binding rs1 = some b)
    (hroom : Room 1 s) : rowBody rd rs1 s = .ok (publish rd ⟨b.val, s.cur, .row⟩
      (s.grow (s.trace ++ [decRow b.val]) (s.cur + 1) (s.eq ++ [(.f s.cur, b.cell)]))) := by
  refine rowBody_ok.mpr ⟨b, hb, hroom, ?_⟩
  rw [pushRow_as_grow _ s, copy_grow]

/-- Settles O17: ROW publishes the decomposed row it appends and the copy of its F cell (`rowBody_grow`). -/
theorem rowCompletes : Obligations.RowCompletes := by
  intro rd rs1 b s hwf hr hb hroom
  rw [exec_publish (i := .row rd rs1) hwf hr rfl (rowBody_grow hb hroom)]
  simp only [decRow]

/-- Settles O39: the lookups make the limbs Bytes, and their sum, like F, is below the field's size, so
that the two are equal and not only congruent (`gateDec_sound`). -/
theorem decompositionGateIsSound : Obligations.DecompositionGateIsSound := by
  intro s w r _ hp hw hgate
  obtain ⟨hbytes, hsum⟩ := gateDec_sound hp hw hgate
  exact ⟨hbytes, hsum, gateDec_word hp hw hgate⟩

end Sys2Proof.Machine

/-! Addition: the soundness of its gate (R145), the hazards of the reuse forms (R148, R169), what ADD leaves
when it completes (R140–R146), and that ADDP and XORP compute what ADD and XOR do (R149, R170). -/

namespace Sys2Proof.Machine

/-- Settles O40: two Words sum to less than 2^65, so the gate's equation modulo `FIELD_P` is one of integers
(`gateAdd_sound`). -/
theorem additionGateIsSound : Obligations.AdditionGateIsSound := by
  intro s w r _ hprime hp hw ha hb hdec hadd
  obtain ⟨hsum, hcarry⟩ := gateAdd_sound (a := .ofNatLT _ ha) (b := .ofNatLT _ hb) hprime hp hw rfl rfl
    (gateDec_word hp hw hdec) hadd
  rw [BitVec.toNat_add] at hsum
  exact ⟨hsum, hcarry⟩

/-! ## Reuse hazards (R148, R169, R306) -/

section
variable {rd rs2 : Operand} {s : State}

theorem addpBody_of_no_p (hb : s.binding rs2 ≠ none) (hp : s.p = none) :
    addpBody rd rs2 s = .error .reuseHazard := by
  obtain ⟨b, hb⟩ := Option.ne_none_iff_exists'.mp hb
  rw [addpBody, readOperand_ok.mpr hb, hp]
  rfl

theorem xorpBody_of_no_row (hb : s.binding rs2 ≠ none) (hp : ∀ a, s.p = some a → a.kind = .word) :
    xorpBody rd rs2 s = .error .reuseHazard := by
  obtain ⟨b, hb⟩ := Option.ne_none_iff_exists'.mp hb
  rw [xorpBody, readOperand_ok.mpr hb]
  cases ha : s.p with
  | none => rfl
  | some a => simp only [hp a ha]; rfl

end

/-- Settles O13: the source is bound, so what `P` holds is the next check. -/
theorem reuseHazards : Obligations.ReuseHazards :=
  fun _ _ _ hwf hr hb => ⟨fun hp => exec_error hwf hr.1 hr.2 (addpBody_of_no_p hb hp),
    fun hp => exec_error hwf hr.1 hr.2 (xorpBody_of_no_row hb hp)⟩

/-! ## ADD -/

/-- A row that has just been appended, changed in place. -/
theorem modify_cur_append {s : State} (hs : s.traceWf = true) (row : TraceRow) (f : TraceRow → TraceRow) :
    (s.trace ++ [row]).modify s.cur f = s.trace ++ [f row] := by
  rw [((traceWf_iff s).mp hs).1, modify_append_length]
  rfl

/-- The result of an addition that copies both operands: its first row gets the selector (R141, R146). -/
theorem addBody_grow {rd rs1 rs2 : Operand} {a b : Binding} {s : State} (ha : s.binding rs1 = some a)
    (hb : s.binding rs2 = some b) (hroom : Room 3 s) (hs : s.traceWf = true) : addBody rd rs1 rs2 s =
      .ok (publish rd ⟨a.val + b.val, s.cur + 2, .row⟩ (s.grow
        (s.trace ++ [{ wordRow a.val with sel := { qAdd := true } },
          carryRow b.val (carryOf a.val b.val), decRow (a.val + b.val)])
        (s.cur + 3) (s.eq ++ [(.f s.cur, a.cell), (.f (s.cur + 1), b.cell)]))) := by
  refine addBody_ok.mpr ⟨a, b, ha, hb, ?_⟩
  rw [addOnto_grow (pushRow_copy_cur_lt _ _ _ hs le_rfl) hroom, copy_trace, pushRow_trace,
    modify_cur_append hs, List.append_assoc, copy_eq, List.append_assoc]
  rfl

/-- Settles O18: ADD is the addition onto the copy of its lhs (`addBody_grow`). -/
theorem addCompletes : Obligations.AddCompletes := by
  intro rd rs1 rs2 a b s hwf hr ha hb hroom hs
  rw [exec_publish (i := .add rd rs1 rs2) hwf hr rfl (addBody_grow ha hb hroom hs), carryOf_eq_ite]
  simp only [carryRow, wordRow, decRow, BitVec.toNat_add]

/-! ## The reuse forms (R149, R170) -/

section
variable {i : Instr} {rd : Operand} {a : Word} {b : Binding} {r : Nat} {s t u : State}

/-- A command that ends without a fault recorded has completed its own rule. -/
theorem exec_completed (h : exec i s = .next t) (hf : t.fault = none) :
    ∃ u, bodyOf i s = .ok u ∧ t = { u with pc := u.pc + 1 } := by
  obtain ⟨e, rfl⟩ | ⟨-, -, -, hu⟩ := exec_next h
  · cases hf
  · exact hu

theorem publish_val (rd : Operand) (b : Binding) (s : State) :
    ((publish rd b s).binding rd).map Binding.val = some b.val := by
  rw [publish_binding, binding_bind_self, Option.map_some]

theorem addOnto_val (h : addOnto rd a b r s = .ok u) :
    (u.binding rd).map Binding.val = some (a + b.val) := by
  obtain ⟨-, rfl⟩ := addOnto_ok.mp h
  exact publish_val ..

theorem xorOnto_val (h : xorOnto rd a b r s = .ok u) :
    (u.binding rd).map Binding.val = some (a ^^^ b.val) := by
  obtain ⟨-, rfl⟩ := xorOnto_ok.mp h
  exact publish_val ..

end

/-- Settles O33: both forms end in the same operation, on the same two values. -/
theorem reuseComputesTheSameValue : Obligations.ReuseComputesTheSameValue := by
  intro rd q rs2 s t u hp _ htf huf
  refine ⟨fun ht hu => ?_, fun ht hu => ?_⟩
  · obtain ⟨t', ht', rfl⟩ := exec_completed ht htf
    obtain ⟨u', hu', rfl⟩ := exec_completed hu huf
    obtain ⟨a, b, ha, hb, honto⟩ := addpBody_ok.mp ht'
    obtain ⟨a', b', ha', hb', honto'⟩ := addBody_ok.mp hu'
    obtain rfl := Option.some.inj (ha.symm.trans (hp.trans ha'))
    obtain rfl := Option.some.inj (hb.symm.trans hb')
    exact (addOnto_val honto).trans (addOnto_val honto').symm
  · obtain ⟨t', ht', rfl⟩ := exec_completed ht htf
    obtain ⟨u', hu', rfl⟩ := exec_completed hu huf
    obtain ⟨a, b, ha, -, hb, honto⟩ := xorpBody_ok.mp ht'
    obtain ⟨a', b', ha', hb', honto'⟩ := xorBody_ok.mp hu'
    obtain rfl := Option.some.inj (ha.symm.trans (hp.trans ha'))
    obtain rfl := Option.some.inj (hb.symm.trans hb')
    exact (xorOnto_val honto).trans (xorOnto_val honto').symm

end Sys2Proof.Machine

/-! The exclusive or: the soundness of its gate (R166), what XOR leaves when it completes (R161, R167), and
that XOR and XORP act byte lane by byte lane (R162). -/

namespace Sys2Proof.Machine

/-- Settles O41: the F cells of the two operand rows hold Words, and the gate is sound on Words
(`gateXor_sound`). -/
theorem xorGateIsSound : Obligations.XorGateIsSound := by
  intro s w r _ hp hw h0 h1 h2 hxor
  rw [gateXor_sound (a := .ofNatLT _ (gateDec_word hp hw h0)) (b := .ofNatLT _ (gateDec_word hp hw h1))
    hp hw rfl rfl h0 h1 h2 hxor, BitVec.toNat_xor, BitVec.toNat_ofNatLT, BitVec.toNat_ofNatLT]

/-! ## XOR -/

/-- The result of an exclusive or that copies both operands: its first row gets the selector (R161, R167). -/
theorem xorBody_grow {rd rs1 rs2 : Operand} {a b : Binding} {s : State} (ha : s.binding rs1 = some a)
    (hb : s.binding rs2 = some b) (hroom : Room 3 s) (hs : s.traceWf = true) : xorBody rd rs1 rs2 s =
      .ok (publish rd ⟨a.val ^^^ b.val, s.cur + 2, .row⟩ (s.grow
        (s.trace ++ [{ decRow a.val with sel := { qDec := true, qXor := true } },
          decRow b.val, decRow (a.val ^^^ b.val)])
        (s.cur + 3) (s.eq ++ [(.f s.cur, a.cell), (.f (s.cur + 1), b.cell)]))) := by
  refine xorBody_ok.mpr ⟨a, b, ha, hb, ?_⟩
  rw [xorOnto_grow (pushRow_copy_cur_lt _ _ _ hs le_rfl) hroom, copy_trace, pushRow_trace,
    modify_cur_append hs, List.append_assoc, copy_eq, List.append_assoc]
  rfl

/-- Settles O20: XOR is the exclusive or onto the copy of its lhs (`xorBody_grow`). -/
theorem xorCompletes : Obligations.XorCompletes := by
  intro rd rs1 rs2 a b s hwf hr ha hb hroom hs
  rw [exec_publish (i := .xor rd rs1 rs2) hwf hr rfl (xorBody_grow ha hb hroom hs)]
  simp only [decRow, BitVec.toNat_xor]

/-! ## Byte lanes (R162) -/

/-- R162 on a byte lane of a Word. -/
theorem xor_lane (a b : Word) (i : Fin 8) : (a ^^^ b).toNat / 256 ^ i.val % 256 =
    (a.toNat / 256 ^ i.val % 256) ^^^ (b.toNat / 256 ^ i.val % 256) := by
  simpa only [byteAt_toNat] using byteAt_xor a b i

section
variable {i : Instr} {rd : Operand} {a : Word} {b : Binding} {q : Nat} {s t u : State}

/-- The destination of an exclusive or is bound to its result, on a row whose limbs hold its bytes. -/
theorem xorOnto_binding (ht : t.traceWf = true) (h : xorOnto rd a b q t = .ok u) :
    u.binding rd = some ⟨a ^^^ b.val, t.cur + 1, .row⟩ ∧ BindingHolds u ⟨a ^^^ b.val, t.cur + 1, .row⟩ := by
  obtain ⟨-, c, hc, -, hholds⟩ := xorOnto_publishes ht (Nat.zero_le q) h
  obtain ⟨-, rfl⟩ := xorOnto_ok.mp h
  obtain rfl := Option.some.inj ((publish_p ..).symm.trans hc)
  exact ⟨(publish_binding ..).trans (binding_bind_self ..), hholds⟩

/-- A command that ends in the exclusive or of `a` and `b`, in state `t`, writes it lane by lane. -/
theorem exec_xorOnto_lanes (hwf : i.wf = true) (hr : ReadyForWords s) (ha : acceptsOf i = acceptsWord)
    (ht : t.traceWf = true) (hroom : Room 2 t)
    (hbody : ∀ u, xorOnto rd a b q t = .ok u → bodyOf i s = .ok u) :
    ∃ v c, exec i s = .next v ∧ v.binding rd = some c ∧ c.row = t.cur + 1 ∧ ∀ j : Fin 8,
      c.val.toNat / 256 ^ j.val % 256 =
        (a.toNat / 256 ^ j.val % 256) ^^^ (b.val.toNat / 256 ^ j.val % 256) ∧
      v.cell? (.l j (t.cur + 1)) =
        some ((a.toNat / 256 ^ j.val % 256) ^^^ (b.val.toNat / 256 ^ j.val % 256)) := by
  have honto := xorOnto_ok (rd := rd) (a := a) (b := b) (r0 := q).mpr ⟨hroom, rfl⟩
  obtain ⟨hrd, hholds⟩ := xorOnto_binding ht honto
  refine ⟨_, _, exec_ok hwf hr.1 (ha ▸ hr.2) (hbody _ honto),
    (binding_congr rfl rfl rfl rfl rd).trans hrd, rfl, fun j => ⟨xor_lane a b.val j, ?_⟩⟩
  rw [← xor_lane, ← byteAt_toNat]
  exact hholds.limb rfl j

end

/-- Settles O35: both forms end in the same operation, and a byte of an exclusive or is that of the bytes
(`exec_xorOnto_lanes`). -/
theorem xorActsLaneByLane : Obligations.XorActsLaneByLane := by
  intro rd rs2 a b s hwf hr hb hs
  refine ⟨fun rs1 ha hroom => ?_, fun hp hk hroom => ?_⟩
  · have hcur : s.cur < s.params.circuitRows := Nat.lt_of_lt_of_le (by omega) hroom
    exact exec_xorOnto_lanes (i := .xor rd rs1 rs2) hwf hr rfl (pushRow_copy_traceWf _ _ _ hs hcur) hroom
      fun _ honto => xorBody_ok.mpr ⟨a, b, ha, hb, honto⟩
  · exact exec_xorOnto_lanes (i := .xorp rd rs2) hwf hr rfl hs hroom
      fun _ honto => xorpBody_ok.mpr ⟨a, b, hp, hk, hb, honto⟩

end Sys2Proof.Machine

/-! Rotation: what R181 does to the bytes (R182), R191 on integers, the soundness of the copy constraints of
a limb rotation (R185) and of the gate of the rotation by 63 (R192), and what the four commands leave when
they complete (R181, R186–R189, R193). -/

namespace Sys2Proof.Machine

/-! ## Bits and bytes of a rotation (R13, R182, R191) -/

/-- A rotation moves bit `(j + n) mod 64` to bit `j` (R13). -/
theorem getLsbD_rotr (a : Word) {n j : Nat} (hn : n < 64) (hj : j < 64) :
    (rotr a n).getLsbD j = a.getLsbD ((j + n) % 64) := by
  rw [rotr, BitVec.getLsbD_or, BitVec.getLsbD_ushiftRight, BitVec.getLsbD_shiftLeft, Nat.add_comm n j]
  by_cases hlow : j + n < 64
  · simp [Nat.mod_eq_of_lt hlow, show j < 64 - n by omega]
  · rw [BitVec.getLsbD_of_ge a (j + n) (by omega), show (j + n) % 64 = j - (64 - n) by omega]
    simp [hj, show 64 - n ≤ j by omega]

/-- R182 for every number of limbs. -/
theorem byteAt_rotr_limbs (a : Word) (k i : Fin 8) :
    byteAt (rotr a (8 * k.val)) i = byteAt a (i + k) := by
  refine BitVec.eq_of_getLsbD_eq fun j hj => ?_
  have hpos : (8 * i.val + j + 8 * k.val) % 64 = 8 * (i + k).val + j := by rw [Fin.val_add]; omega
  simp only [byteAt, BitVec.getLsbD_extractLsb', hj, decide_true, Bool.true_and]
  rw [getLsbD_rotr a (by omega) (by omega), hpos]

/-- Settles O36: the bit at place `8i + j` comes from place `8(i + k) + j` modulo 64 (`byteAt_rotr_limbs`);
the second reading is the first one at `j − k`. -/
theorem limbRotationPermutesBytes : Obligations.LimbRotationPermutesBytes := by
  refine fun a k _ => ⟨byteAt_rotr_limbs a k, fun j => ?_⟩
  rw [byteAt_rotr_limbs, sub_add_cancel]

/-- Settles O37: the first formula is the definition of `rotr`, the second is `rotr63_toNat`. -/
theorem rotr63IsRotationLeftByOne : Obligations.Rotr63IsRotationLeftByOne := by
  refine fun a => ⟨BitVec.or_comm .., ?_⟩
  have hval : (rotr a 63).toNat + (a.toNat >>> 63) * (2 ^ 64 - 1) = 2 * a.toNat := rotr63_toNat a
  omega

/-! ## Soundness (R185, R192) -/

/-- A field element below 2^64 is the integer of the Word it spells. -/
theorem eq_toNat_ofNat {n : Nat} (h : n < 2 ^ 64) : n = (BitVec.ofNat 64 n).toNat := by
  rw [BitVec.toNat_ofNat, Nat.mod_eq_of_lt h]

/-- Settles O42: the decomposed source row holds a Word, and the limbs of the output row are that Word's,
rotated (`limbCopies_sound`). -/
theorem limbRotationIsSound : Obligations.LimbRotationIsSound := by
  intro s w k r o hk _ hp hw hcopies hr ho
  exact limbCopies_sound hk hp hw (eq_toNat_ofNat (gateDec_word hp hw hr)) hr ho hcopies

/-- Settles O43: the high bit is a Bit in a prime field, and then the gate's equation is one of integers
(`gateRot63_sound`). -/
theorem rotation63GateIsSound : Obligations.Rotation63GateIsSound := by
  intro s w r _ hprime hp hw ha hdec hrot
  have hword := eq_toNat_ofNat ha
  obtain ⟨hres, hbit⟩ := gateRot63_sound hprime hp hw hword (gateDec_word hp hw hdec) hrot
  rw [highBit, ← hword] at hbit
  exact ⟨hbit, hres⟩

/-! ## Rotations by limbs (R181, R186–R188) -/

theorem limbCopies_eq_map (k : Fin 8) (o r : Nat) :
    limbCopies k o r = (List.finRange 8).map fun j => (.l j o, .l (j + k) r) := rfl

section
variable {i : Instr} {k : Fin 8} {rd rs1 : Operand} {b : Binding} {s : State}

/-- The three rotations by limbs differ in the number of limbs only. -/
theorem limbRotations_share_rule (hi : (i, k) ∈ limbRotations rd rs1) :
    i.wf = rd.writable ∧ acceptsOf i = acceptsWord ∧ bodyOf i = limbRotBody k rd rs1 := by
  simp only [limbRotations, List.mem_cons, Prod.mk.injEq, List.not_mem_nil, or_false] at hi
  obtain ⟨rfl, rfl⟩ | ⟨rfl, rfl⟩ | ⟨rfl, rfl⟩ := hi <;> exact ⟨rfl, rfl, rfl⟩

/-- The state after a rotation by limbs that the machine accepts. -/
theorem exec_limbRot {c : Binding} {tr : List TraceRow} {n : Nat} {e : List (Cell × Cell)}
    (hi : (i, k) ∈ limbRotations rd rs1) (hw : rd.writable = true) (hr : ReadyForWords s)
    (h : limbRotBody k rd rs1 s = .ok (publish rd c (s.grow tr n e))) :
    exec i s = .next { s.bind rd c with p := some c, pc := s.pc + 1, cur := n, trace := tr, eq := e } := by
  obtain ⟨hwf, ha, hbody⟩ := limbRotations_share_rule hi
  exact exec_publish (hwf.trans hw) hr ha (hbody ▸ h)

/-- The result of a rotation by limbs of a source of kind `Row`, whose own limbs are tied. -/
theorem limbRotBody_row_grow (hb : s.binding rs1 = some b) (hk : b.kind = .row) (hroom : Room 1 s) :
    limbRotBody k rd rs1 s = .ok (publish rd ⟨rotr b.val (8 * k.val), s.cur, .row⟩ (s.grow
      (s.trace ++ [decRow (rotr b.val (8 * k.val))]) (s.cur + 1) (s.eq ++ limbCopies k s.cur b.row))) := by
  refine limbRotBody_ok.mpr ⟨b, b.row, s, hb, decomposedSource_ok.mpr (.inl ⟨hk, rfl⟩), hroom, ?_⟩
  rw [pushRow_as_grow, copyAll_grow]

/-- The result of a rotation by limbs of a source of kind `Word`: the limbs of a new copy are tied. -/
theorem limbRotBody_word_grow (hb : s.binding rs1 = some b) (hk : b.kind = .word) (hroom : Room 2 s) :
    limbRotBody k rd rs1 s = .ok (publish rd ⟨rotr b.val (8 * k.val), s.cur + 1, .row⟩ (s.grow
      (s.trace ++ [decRow b.val, decRow (rotr b.val (8 * k.val))]) (s.cur + 2)
      (s.eq ++ (.f s.cur, b.cell) :: limbCopies k (s.cur + 1) s.cur))) := by
  have hsource := decomposedSource_ok.mpr (.inr ⟨hk, Nat.lt_of_lt_of_le (by omega) hroom, rfl⟩)
  refine limbRotBody_ok.mpr ⟨b, s.cur, _, hb, hsource, hroom, ?_⟩
  rw [pushRow_as_grow _ s, copy_grow, pushRow_grow, copyAll_grow, List.append_assoc, List.append_assoc]
  rfl

end

/-- Settles O23: the three commands share one rule, and it appends one row (`limbRotBody_row_grow`). -/
theorem limbRotationsCompleteFromRow : Obligations.LimbRotationsCompleteFromRow := by
  intro rd rs1 i k b s hi hw hr hb hk hroom
  rw [exec_limbRot hi hw hr (limbRotBody_row_grow hb hk hroom), limbCopies_eq_map]
  simp only [decRow]

/-- Settles O24: the three commands share one rule, and it appends the copy and the result
(`limbRotBody_word_grow`). -/
theorem limbRotationsCompleteFromWord : Obligations.LimbRotationsCompleteFromWord := by
  intro rd rs1 i k b s hi hw hr hb hk hroom
  rw [exec_limbRot hi hw hr (limbRotBody_word_grow hb hk hroom), limbCopies_eq_map]
  simp only [decRow]

/-! ## ROTR63 on a copy (R189, R193) -/

/-- The result of a rotation by 63 of an operand that `P` is not bound to: the copy gets the selector. -/
theorem rotr63Body_copy_grow {rd rs1 : Operand} {b : Binding} {s : State} (hb : s.binding rs1 = some b)
    (hp : ∀ a, s.p = some a → a.row ≠ b.row) (hroom : Room 3 s) (hs : s.traceWf = true) :
    rotr63Body rd rs1 s = .ok (publish rd ⟨rotr b.val 63, s.cur + 2, .row⟩ (s.grow
      (s.trace ++ [{ wordRow b.val with sel := { qRot63 := true } }, highBitRow b.val,
        decRow (rotr b.val 63)])
      (s.cur + 3) (s.eq ++ [(.f s.cur, b.cell)]))) := by
  have hsource := rot63Source_ok.mpr (.inr ⟨hp, Nat.lt_of_lt_of_le (by omega) hroom, rfl⟩)
  refine rotr63Body_ok.mpr ⟨b, s.cur, _, hb, hsource, hroom, ?_⟩
  have hcur : s.cur < (s.trace ++ [wordRow b.val]).length :=
    pushRow_copy_cur_lt _ (.f s.cur) b.cell hs le_rfl
  rw [pushRow_as_grow _ s, copy_grow, pushRow_grow, pushRow_grow, sel_grow, modify_append_two hcur,
    modify_cur_append hs, List.append_assoc]
  rfl

/-- Settles O26: a cell of `P` other than the source's is on another row, so the source is copied
(`rotr63Body_copy_grow`). -/
theorem rotr63CompletesOnCopy : Obligations.Rotr63CompletesOnCopy := by
  intro rd rs1 b s hwf hr hb hne hroom hs
  have hp : ∀ a, s.p = some a → a.row ≠ b.row := fun a ha h => hne a ha (congrArg Cell.f h)
  rw [exec_publish (i := .rotr63 rd rs1) hwf hr rfl (rotr63Body_copy_grow hb hp hroom hs)]
  simp only [wordRow, decRow, highBitRow, highBit_eq_ite]

end Sys2Proof.Machine

/-! Negation: the soundness of its gate (R204), and what NOT leaves when it completes (R200, R201, R205). -/

namespace Sys2Proof.Machine

/-- Settles O44: F[r] is the integer of a Word, and the gate is sound on Words (`gateNot_sound`). -/
theorem negationGateIsSound : Obligations.NegationGateIsSound := by
  intro p w r hp hw hx hgate
  have hnot := gateNot_sound hp hw (eq_toNat_ofNat hx) hgate
  refine ⟨?_, hnot, hnot ▸ BitVec.isLt _⟩
  rw [hnot, BitVec.toNat_not, ← eq_toNat_ofNat hx]

/-- R201: the two rows of a negation, the selector on the first, as one longer state. -/
theorem negRows_eq_grow (x : Binding) {s : State} (hroom : Room 2 s) (hs : s.traceWf = true) :
    negRows x s = .ok (s.grow
      (s.trace ++ [{ wordRow x.val with sel := { qNot := true } }, wordRow (~~~x.val)])
      (s.cur + 2) (s.eq ++ [(.f s.cur, x.cell)])) := by
  refine negRows_ok.mpr ⟨hroom, ?_⟩
  have hcur : s.cur < (s.trace ++ [wordRow x.val]).length :=
    pushRow_copy_cur_lt _ (.f s.cur) x.cell hs le_rfl
  rw [pushRow_as_grow _ s, copy_grow, pushRow_grow, sel_grow, modify_append_lt hcur,
    modify_cur_append hs, List.append_assoc]
  rfl

/-- Settles O22: NOT publishes the second of the negation's two rows (`negRows_eq_grow`). -/
theorem notCompletes : Obligations.NotCompletes := by
  intro rd rs1 x s hwf hr hx hroom hs
  have hbody := notBody_ok (rd := rd).mpr ⟨x, _, hx, negRows_eq_grow x hroom hs, rfl⟩
  rw [exec_publish (i := .not rd rs1) hwf hr rfl hbody]
  simp only [wordRow, BitVec.toNat_not]

end Sys2Proof.Machine

/-! What MIX and COMPRESS compute as sequences of commands (R236–R238, R245, R246). -/

namespace Sys2Proof.Machine

/-- The fourteen commands of MIX as one run (R236, R237). -/
theorem runs_mix {s : State} {ms vs : Vector Word 16} (a b c d x y : Fin 16) (hr : ReadyForWords s)
    (hf : s.fault = none) (hv : Words s.v vs) (hm : Words s.m ms) (room : Room 26 s) :
    ∃ t, Runs (mixInstrs a b c d x y) 26 s t ∧ Mixed ms (Blake2b.g a b c d ms[x] ms[y] vs) s t := by
  have hstart : MixRun s ms [] 0 vs none := fun _ =>
    ⟨s, .nil hf, ⟨hv, hm, hr, rfl, rfl, rfl, rfl, rfl⟩, nofun⟩
  obtain ⟨t, ht, hmixed, -⟩ := hstart.mix a b c d x y room
  exact ⟨t, ht, hmixed⟩

/-- Settles O58: the run of the fourteen commands (`runs_mix`). -/
theorem mixComputesG : Obligations.MixComputesG := by
  intro a b c d x y vs ms s hr hf room hv hm
  obtain ⟨t, ht, hmixed⟩ := runs_mix a b c d x y hr hf hv hm room
  exact ⟨t, ht.run, ht.fault, hmixed.vs, hmixed.m, hmixed.h, hmixed.iv, hmixed.gadget, ht.cur, ht.pc⟩

theorem length_compressInstrs (blk : BitVec 26) : (compressInstrs blk).length = 1361 := by
  simpa [blockInstrs] using length_blockInstrs blk.toNat

/-- Settles O59: VINIT, the twelve rounds and the state update as one run (`runs_compress`). -/
theorem compressComputesF : Obligations.CompressComputesF := by
  intro blk hs ms s hl hg hf hb room hh hiv hm
  have hiv' : IvWords s := fun i => by simpa using hiv i
  obtain ⟨t, ht, hcomp⟩ := runs_compress hl hg hf hb rfl rfl hh hiv' hm room
  exact ⟨t, ht.run, ht.fault, hcomp.hs.words, hcomp.vs, hcomp.m, hcomp.iv, hcomp.gadget.trans hg,
    length_compressInstrs blk ▸ ht.pc, ht.cur⟩

end Sys2Proof.Machine

/-! INIT and VINIT when they complete (R210–R214, R221–R226), and the faults of INIT, LDBLK and VINIT in the
order of R278. -/

namespace Sys2Proof.Machine

/-! ## INIT (R210–R214) -/

/-- The constants INIT assigns, the IV in index order. -/
theorem initConstants_eq (kk nn : Nat) :
    initConstants kk nn = (List.finRange 8).map ivWord ++ [paramWord kk nn, 0] := rfl

theorem ivBindings_getElem (r : Nat) (i : Fin 8) :
    (ivBindings r)[i] = some ⟨ivWord i, r + i.val, .word⟩ := by
  simp [ivBindings]

/-- From the second on, a word of `h` shares the binding of its IV word (R212). -/
theorem hBindings_getElem_of_ne_zero (p : Word) (r : Nat) {i : Fin 8} (hi : i ≠ 0) :
    (hBindings p r)[i] = (ivBindings r)[i] := by
  simp [hBindings, ivBindings, hi]

/-- Settles O27: the checks pass and the ten rows fit, so the rule of INIT completes (`initBody_ok`). -/
theorem initCompletes : Obligations.InitCompletes := by
  intro s hl hg h1 h2 hk hx hmax hroom
  have hu : bodyOf .init s = _ := initBody_ok.mpr ⟨⟨h1, h2⟩, hk, hx, hmax, hroom, rfl⟩
  refine ⟨_, exec_ok rfl hl (hg ▸ rfl) hu, rfl, rfl, rfl, rfl, rfl, ivBindings_getElem s.cur, rfl,
    fun i hi => hBindings_getElem_of_ne_zero _ s.cur hi, ?_, rfl⟩
  rw [← initConstants_eq]
  rfl

/-! ## VINIT (R221–R226) -/

section
variable {s u : State} {x f : Binding} {blk : BitVec 26}

/-- VINIT whose checks pass: `v` is bound over the state that the constant row and `v14` leave. -/
theorem exec_vinit (hl : s.loaded = true) (hg : s.gadget = .processingBlock)
    (hb : blk.toNat < s.blockCount) (hh : ∀ i : Fin 8, s.h[i] ≠ none)
    (hiv : ∀ i : Fin 8, s.iv[i] ≠ none) (hx : s.iv[6] = some x) (hroom : Room 1 s)
    (hfin : finalWord blk.toNat x
      ((s.pushRow (fixedRow (counterWord s blk.toNat))).copy (.f s.cur) (.k s.cur)) = .ok (f, u)) :
    exec (.vinit blk) s = .next { u with
      v := vectorBindings s (some ⟨counterWord s blk.toNat, s.cur, .word⟩) (some f)
      p := none
      pc := u.pc + 1 } :=
  exec_ok (i := .vinit blk) rfl hl (acceptsVinit_iff.mpr hg) (vinitBody_ok.mpr ⟨hb,
    fun o ho => Option.ne_none_iff_exists'.mp (forall_mem_hOperands hh o ho),
    fun o ho => Option.ne_none_iff_exists'.mp (forall_mem_vinitIvOperands hiv o ho),
    x, f, u, hx, hroom, hfin, rfl⟩)

/-- The constant of a block that is not the final one (R221, R222). -/
theorem counterWord_of_not_final {b : Nat}
    (h : isFinalBlock s.params.inputLen s.keyLen b = false) :
    counterWord s b = ivWord 4 ^^^ BitVec.ofNat 64 (128 * (b + 1)) := by
  simp [counterWord, counter, h]

/-- The constant of the final block (R221, R222). -/
theorem counterWord_of_final {b : Nat} (h : isFinalBlock s.params.inputLen s.keyLen b = true) :
    counterWord s b =
      ivWord 4 ^^^ BitVec.ofNat 64 (s.params.inputLen + if 0 < s.keyLen then 128 else 0) := by
  simp [counterWord, counter, h]

end

/-- Settles O29: before the final block `v14` is `iv6`, and the constant row is the only one
(`exec_vinit`). -/
theorem vinitCompletes : Obligations.VinitCompletes := by
  intro blk s hl hg hb hh hiv hroom
  have hfinal : isFinalBlock s.params.inputLen s.keyLen blk.toNat = false := isFinalBlock_eq_false hb
  obtain ⟨x, hx⟩ := Option.ne_none_iff_exists'.mp (hiv 6)
  rw [exec_vinit hl hg (Nat.lt_of_succ_lt hb) hh hiv hx hroom (finalWord_ok.mpr (.inr ⟨hfinal, rfl⟩)),
    counterWord_of_not_final hfinal, ← hx]
  rfl

/-- Settles O30: the negation of `iv6` stands on the two rows after the constant row (`exec_vinit`,
`negRows_eq_grow`). -/
theorem vinitOfFinalBlockCompletes : Obligations.VinitOfFinalBlockCompletes := by
  intro blk x s hl hg hb hh hiv hx hroom hs
  have hfinal : isFinalBlock s.params.inputLen s.keyLen blk.toNat = true := beq_iff_eq.mpr hb
  have hroom1 : Room 1 s := hroom.mono (by decide)
  have hneg := negRows_eq_grow x
    (s := (s.pushRow (fixedRow (counterWord s blk.toNat))).copy (.f s.cur) (.k s.cur))
    (show Room 2 _ from hroom) (pushRow_copy_traceWf _ _ _ hs hroom1)
  rw [exec_vinit hl hg (by omega) hh hiv hx hroom1 (finalWord_ok.mpr (.inl ⟨hfinal, _, hneg, rfl⟩)),
    counterWord_of_final hfinal]
  simp [vectorBindings, State.grow, State.copy, State.pushRow, wordRow, BitVec.toNat_not]

/-! ## Faults of INIT, LDBLK and VINIT (R211, R218, R220, R226, R278) -/

section
variable {s : State} {c : Bool} {e : Fault} {f : Unit → Except Fault State}

theorem require_bind_of_true (h : c = true) : (require c e >>= f) = f () := by
  rw [require_of_true e h]
  rfl

theorem require_bind_of_false (h : c = false) : (require c e >>= f) = .error e := by
  rw [require_of_false e h]
  rfl

end

/-- Settles O14: the checks of INIT are made one after the other, and the first that fails names the
fault. -/
theorem initPreconditionFaults : Obligations.InitPreconditionFaults := by
  intro s hl hg
  have hfault : ∀ {e}, initBody s = .error e → exec .init s = .next { s with fault := some e } :=
    exec_error (i := .init) rfl hl (hg ▸ rfl)
  refine ⟨fun hnn => hfault (require_bind_of_false (by simpa using hnn)), fun hnn => ?_⟩
  have hcheck : (decide (1 ≤ s.params.outLen) && decide (s.params.outLen ≤ 64)) = true := by simpa using hnn
  refine ⟨fun hk => hfault ?_, fun hk => ⟨fun hx => hfault ?_, fun hx hmax => hfault ?_⟩⟩
  · exact (require_bind_of_true hcheck).trans (require_bind_of_false (by simpa using hk))
  · exact (require_bind_of_true hcheck).trans <| (require_bind_of_true (by simpa using hk)).trans
      (require_bind_of_false (by simpa using hx))
  · exact (require_bind_of_true hcheck).trans <| (require_bind_of_true (by simpa using hk)).trans <|
      (require_bind_of_true (by simpa using hx)).trans (require_bind_of_false (by simpa using hmax))

/-- Settles O15: the block index is checked first, and of LDBLK's other checks the host's comes last. -/
theorem blockCommandFaults : Obligations.BlockCommandFaults := by
  intro blk s hl
  refine ⟨fun hb hg => ?_, fun hg => ?_⟩
  · exact exec_error (i := .vinit blk) rfl hl (acceptsVinit_iff.mpr hg)
      (require_bind_of_false (by simpa using hb))
  · have hfault : ∀ {e}, ldblkBody blk.toNat s = .error e →
        exec (.ldblk blk) s = .next { s with fault := some e } :=
      exec_error (i := .ldblk blk) rfl hl (acceptsLdblk_iff.mpr hg)
    refine ⟨fun hb => hfault (require_bind_of_false (by simpa using hb)), fun hb hsrc hcheck hk => ?_⟩
    obtain ⟨k, hk, hbyte⟩ := hk
    have hrange : blockInRange s blk.toNat = false :=
      Bool.eq_false_iff.mpr fun h => (blockInRange_iff.mp h k hk).not_ge hbyte
    exact hfault <| (require_bind_of_true (by simpa using hb)).trans <|
      (require_bind_of_true hsrc).trans (require_bind_of_false (by rw [hcheck, hrange]; rfl))

end Sys2Proof.Machine

/-! Which cell a block position reads: data first, then padding, and every input and key cell at one position
(R215–R217, R219). -/

namespace Sys2Proof.Machine

section
variable {n kk b k i : Nat}

theorem isKeyBlock_iff : isKeyBlock kk b = true ↔ 0 < kk ∧ b = 0 := by
  simp [isKeyBlock]

theorem isKeyBlock_eq_false_iff : isKeyBlock kk b = false ↔ ¬ (0 < kk ∧ b = 0) := by
  rw [← isKeyBlock_iff, Bool.not_eq_true]

/-- The key block reads the key cells in order (R217). -/
theorem blockSource_of_key (h : isKeyBlock kk b = true) :
    blockSource n kk b k = if k < kk then .key k else .zero := if_pos h

/-- Any other block reads the input cells in order, the blocks counted after the key block (R217). -/
theorem blockSource_of_not_key (h : isKeyBlock kk b = false) : blockSource n kk b k =
    if 128 * (b - if 0 < kk then 1 else 0) + k < n then
      .input (128 * (b - if 0 < kk then 1 else 0) + k) else .zero := by
  simp only [blockSource, h, Bool.false_eq_true, if_false]

/-- The input blocks are as many as the input fills (R215). -/
theorem nblocks_eq_of_pos (hn : 0 < n) :
    nblocks n kk = (if 0 < kk then 1 else 0) + (n + 127) / 128 := by
  unfold nblocks
  split_ifs <;> omega

theorem nblocks_zero (kk : Nat) : nblocks 0 kk = 1 := rfl

/-- The data of an input block is what the input has from its first cell on (R216). -/
theorem lt_data_iff (hkey : isKeyBlock kk b = false) (hb : b < nblocks n kk) (hk : k < 128) :
    128 * (b - if 0 < kk then 1 else 0) + k < n ↔ k < 128 - padCount n kk b := by
  have hnot := isKeyBlock_eq_false_iff.mp hkey
  simp only [padCount, hkey, isFinalBlock, beq_iff_eq, Bool.false_eq_true, if_false]
  obtain rfl | hn := Nat.eq_zero_or_pos n
  · rw [nblocks_zero] at hb ⊢
    simp [show b = 0 by omega]
  · rw [nblocks_eq_of_pos hn] at hb ⊢
    by_cases hpos : 0 < kk
    · simp only [hpos, if_true] at hb ⊢
      split_ifs <;> omega
    · simp only [hpos, if_false] at hb ⊢
      split_ifs <;> omega

/-- Every position of a block: data first, then `pad(b)` zeros (R216, R217). -/
theorem blockSource_eq (hkk : kk ≤ 64) (hb : b < nblocks n kk) (hk : k < 128) : blockSource n kk b k =
    if k < 128 - padCount n kk b then
      if 0 < kk ∧ b = 0 then .key k else .input (128 * (b - if 0 < kk then 1 else 0) + k)
    else .zero := by
  cases hkey : isKeyBlock kk b with
  | true =>
    have hpad : 128 - padCount n kk b = kk := by
      simp only [padCount, hkey, if_true]
      omega
    rw [blockSource_of_key hkey, hpad, if_pos (isKeyBlock_iff.mp hkey)]
  | false =>
    rw [blockSource_of_not_key hkey, if_neg (isKeyBlock_eq_false_iff.mp hkey)]
    simp only [lt_data_iff hkey hb hk]

/-- The positions that read an input cell (R217). -/
theorem blockSource_eq_input_iff : blockSource n kk b k = .input i ↔
    ¬ (0 < kk ∧ b = 0) ∧ 128 * (b - if 0 < kk then 1 else 0) + k = i ∧ i < n := by
  rw [← isKeyBlock_iff]
  cases hkey : isKeyBlock kk b with
  | true =>
    rw [blockSource_of_key hkey]
    split_ifs <;> simp
  | false =>
    rw [blockSource_of_not_key hkey]
    generalize 128 * (b - if 0 < kk then 1 else 0) + k = j
    split_ifs with hj
    · simp only [ByteSource.input.injEq, not_false_eq_true, true_and]
      exact ⟨fun h => ⟨h, h ▸ hj⟩, And.left⟩
    · simp only [not_false_eq_true, true_and, false_iff]
      exact fun ⟨h, hi⟩ => hj (h ▸ hi)

/-- The positions that read a key cell (R217). -/
theorem blockSource_eq_key_iff : blockSource n kk b k = .key i ↔ b = 0 ∧ k = i ∧ i < kk := by
  cases hkey : isKeyBlock kk b with
  | true =>
    obtain ⟨-, rfl⟩ := isKeyBlock_iff.mp hkey
    rw [blockSource_of_key hkey]
    split_ifs with hk
    · simp only [ByteSource.key.injEq, true_and]
      exact ⟨fun h => ⟨h, h ▸ hk⟩, And.left⟩
    · simp only [true_and, false_iff]
      exact fun ⟨h, hi⟩ => hk (h ▸ hi)
  | false =>
    rw [blockSource_of_not_key hkey]
    refine iff_of_false (by split_ifs <;> simp) fun ⟨hb, _, hi⟩ => ?_
    exact isKeyBlock_eq_false_iff.mp hkey ⟨Nat.zero_lt_of_lt hi, hb⟩

/-- Input cell `i` is read at one position: the input blocks are consecutive pieces of 128 cells (R219). -/
theorem existsUnique_input_position (hi : i < n) :
    ∃! q : Nat × Nat, q.1 < nblocks n kk ∧ q.2 < 128 ∧ blockSource n kk q.1 q.2 = .input i := by
  simp only [blockSource_eq_input_iff, nblocks_eq_of_pos (Nat.zero_lt_of_lt hi)]
  refine ⟨(i / 128 + (if 0 < kk then 1 else 0), i % 128), ?_, fun ⟨b, k⟩ ⟨hb, hk, hnot, hpos, _⟩ => ?_⟩
  · dsimp only
    split_ifs with hpos
    · exact ⟨by omega, by omega, And.right, by omega, hi⟩
    · exact ⟨by omega, by omega, fun h => hpos h.1, by omega, hi⟩
  · dsimp only at hb hk hnot hpos
    rw [Prod.mk.injEq]
    split_ifs at hpos ⊢ <;> omega

/-- Key cell `i` is read at position `i` of the key block, and nowhere else (R219). -/
theorem existsUnique_key_position (hkk : kk ≤ 64) (hi : i < kk) :
    ∃! q : Nat × Nat, q.1 < nblocks n kk ∧ q.2 < 128 ∧ blockSource n kk q.1 q.2 = .key i := by
  simp only [blockSource_eq_key_iff]
  refine ⟨(0, i), ⟨nblocks_pos n kk, by omega, rfl, rfl, hi⟩, fun ⟨b, k⟩ ⟨_, _, hb, hk, _⟩ => ?_⟩
  exact Prod.ext hb hk

end

/-- Settles O38: the source of every position is known (`blockSource_eq`), and so is the one position of
every cell. -/
theorem blocksArePaddedAndCoverTheInput : Obligations.BlocksArePaddedAndCoverTheInput := by
  intro n kk hkk
  refine ⟨fun b hb k hk => ?_, fun b hb k hk => ?_, fun i hi => existsUnique_input_position hi,
    fun i hi => existsUnique_key_position hkk hi⟩
  · rw [blockSource_eq hkk hb hk, ← Nat.not_lt]
    split_ifs with hdata
    · exact iff_of_false nofun (not_not_intro hdata)
    · exact iff_of_false nofun (not_not_intro hdata)
    · exact iff_of_true rfl hdata
  · rw [blockSource_eq hkk hb (by omega), if_pos hk]

end Sys2Proof.Machine

/-! The permission table (R280): what it refuses has no other effect, no rule of a command raises
`SequenceViolation` itself, and a command that completes leaves the gadget state of the table. -/

namespace Sys2Proof.Machine

/-! ## No command's own rule raises `SequenceViolation` -/

/-- `SequenceViolation` is not the fault it raises. -/
def NeverSequence {α : Type} (x : Except Fault α) : Prop := x ≠ .error .sequenceViolation

section
variable {α β : Type} {s : State}

theorem OnlyFull.neverSequence {x : Except Fault α} (h : OnlyFull x) : NeverSequence x :=
  fun he => nomatch h _ he

theorem neverSequence_error {e : Fault} (h : e ≠ .sequenceViolation) :
    NeverSequence (.error e : Except Fault α) :=
  fun he => h (Except.error.inj he)

theorem NeverSequence.bind {x : Except Fault α} {f : α → Except Fault β} (hx : NeverSequence x)
    (hf : ∀ a, NeverSequence (f a)) : NeverSequence (x >>= f) := by
  cases x with
  | ok a => exact hf a
  | error e => exact neverSequence_error fun he => hx (congrArg Except.error he)

theorem neverSequence_require {c : Bool} {e : Fault} (h : e ≠ .sequenceViolation) :
    NeverSequence (require c e) := by
  cases c with
  | true => exact (onlyFull_require rfl).neverSequence
  | false => exact neverSequence_error h

theorem neverSequence_read (o : Operand) (s : State) : NeverSequence (s.readOperand o) := by
  cases hb : s.binding o with
  | none => exact readOperand_none hb ▸ neverSequence_error nofun
  | some b => exact (OnlyFull.of_ok (readOperand_ok.mpr hb)).neverSequence

theorem neverSequence_requireBound (os : List Operand) (s : State) :
    NeverSequence (requireBound os s) :=
  fun he => nomatch requireBound_error he

theorem neverSequence_decomposeH (js : List (Fin 8)) (s : State) :
    NeverSequence (decomposeH js s) := by
  induction js generalizing s with
  | nil => exact (onlyFull_ok s).neverSequence
  | cons j js ih =>
    refine (neverSequence_read (.h j) s).bind fun b => ?_
    cases b.kind with
    | row => exact ih s
    | word => exact (onlyFull_matRow _ _ s).neverSequence.bind fun _ => ih _

theorem neverSequence_limbRotBody (k : Fin 8) (rd rs1 : Operand) (s : State) :
    NeverSequence (limbRotBody k rd rs1 s) :=
  (neverSequence_read rs1 s).bind fun b => ((onlyFull_decomposedSource b s).bind fun _ _ =>
    (onlyFull_emitRow _ _).bind fun _ _ => onlyFull_ok _).neverSequence

/-- `SequenceViolation` is raised ahead of a command's own rule only (R278, R280). -/
theorem bodyOf_neverSequence (i : Instr) (s : State) : NeverSequence (bodyOf i s) := by
  cases i with
  | init =>
    exact (neverSequence_require (by decide)).bind fun _ => (neverSequence_require (by decide)).bind fun _ =>
      (neverSequence_require (by decide)).bind fun _ => (neverSequence_require (by decide)).bind fun _ =>
      ((onlyFull_constRows _ s).bind fun _ _ => onlyFull_ok _).neverSequence
  | ldblk blk =>
    exact (neverSequence_require (by decide)).bind fun _ => (neverSequence_require (by decide)).bind fun _ =>
      (neverSequence_require (by decide)).bind fun _ =>
      ((onlyFull_messageRows _ _ s).bind fun _ _ => onlyFull_ok _).neverSequence
  | vinit blk =>
    exact (neverSequence_require (by decide)).bind fun _ => (neverSequence_requireBound _ s).bind fun _ =>
      (neverSequence_requireBound _ s).bind fun _ => (neverSequence_read _ s).bind fun _ =>
      ((onlyFull_constRow _ s).bind fun _ _ =>
        (onlyFull_finalWord _ _ _).bind fun _ _ => onlyFull_ok _).neverSequence
  | out =>
    exact (neverSequence_requireBound _ s).bind fun _ => (neverSequence_decomposeH _ s).bind fun _ =>
      (onlyFull_ok _).neverSequence
  | row rd rs1 =>
    exact (neverSequence_read rs1 s).bind fun _ =>
      ((onlyFull_matRow _ _ s).bind fun _ _ => onlyFull_ok _).neverSequence
  | add rd rs1 rs2 =>
    exact (neverSequence_read rs1 s).bind fun _ => (neverSequence_read rs2 s).bind fun _ =>
      ((onlyFull_copyWordRow _ _ s).bind fun _ _ => onlyFull_addOnto _ _ _ _ _).neverSequence
  | addp rd rs2 =>
    refine (neverSequence_read rs2 s).bind fun _ => ?_
    cases s.p with
    | none => exact neverSequence_error nofun
    | some a => exact (onlyFull_addOnto _ _ _ _ s).neverSequence
  | xor rd rs1 rs2 =>
    exact (neverSequence_read rs1 s).bind fun _ => (neverSequence_read rs2 s).bind fun _ =>
      ((onlyFull_matRow _ _ s).bind fun _ _ => onlyFull_xorOnto _ _ _ _ _).neverSequence
  | xorp rd rs2 =>
    refine (neverSequence_read rs2 s).bind fun _ => ?_
    cases s.p with
    | none => exact neverSequence_error nofun
    | some a =>
      dsimp only
      cases a.kind with
      | word => exact neverSequence_error nofun
      | row => exact (onlyFull_xorOnto _ _ _ _ s).neverSequence
  | not rd rs1 =>
    exact (neverSequence_read rs1 s).bind fun _ =>
      ((onlyFull_negRows _ s).bind fun _ _ => onlyFull_ok _).neverSequence
  | rotr16 rd rs1 | rotr24 rd rs1 | rotr32 rd rs1 => exact neverSequence_limbRotBody _ rd rs1 s
  | rotr63 rd rs1 =>
    exact (neverSequence_read rs1 s).bind fun _ => ((onlyFull_rot63Source _ s).bind fun _ _ =>
      (onlyFull_emitRow _ _).bind fun _ _ => (onlyFull_emitRow _ _).bind fun _ _ =>
      onlyFull_ok _).neverSequence

end

/-! ## The gadget state a command leaves -/

theorem acceptsInit_iff {g : GadgetState} : acceptsInit g = true ↔ g = .uninitialized := by
  cases g <;> decide

theorem permitWord_eq_some {g : GadgetState} (h : acceptsWord g = true) : permitWord g = some g := by
  cases g with
  | uninitialized | finalized => cases h
  | constantsLoaded | processingBlock => rfl

/-- A word command leaves the gadget state alone, as the table says of it. -/
theorem wordBody_permission {i : Instr} {rd : Operand} {s u : State} (hd : i.dest? = some rd)
    (ha : acceptsWord s.gadget = true) (h : bodyOf i s = .ok u) :
    permitWord s.gadget = some u.gadget := by
  obtain ⟨b, tr, c, e, rfl, -⟩ := wordBody_ok hd h
  rw [publish_gadget, grow_gadget, permitWord_eq_some ha]

/-- A command that completes leaves the gadget state of the permission table (R280). -/
theorem bodyOf_permission {i : Instr} {s u : State} (ha : acceptsOf i s.gadget = true)
    (h : bodyOf i s = .ok u) : permission i s.gadget = some u.gadget := by
  cases i with
  | init =>
    obtain ⟨-, -, -, -, -, rfl⟩ := initBody_ok.mp h
    rw [acceptsInit_iff.mp ha]
    rfl
  | ldblk blk =>
    obtain ⟨-, -, -, -, rfl⟩ := ldblkBody_ok.mp h
    obtain hg | hg := acceptsLdblk_iff.mp ha <;> rw [hg] <;> rfl
  | vinit blk =>
    obtain ⟨-, -, -, -, hgu, -⟩ := vinitBody_frame h
    rw [hgu, acceptsVinit_iff.mp ha]
    rfl
  | out =>
    obtain ⟨-, w, -, rfl⟩ := outBody_ok.mp h
    rw [acceptsOut_iff.mp ha]
    rfl
  | row rd | add rd | addp rd | xor rd | xorp rd | not rd | rotr16 rd | rotr24 rd | rotr32 rd
  | rotr63 rd => exact wordBody_permission (rd := rd) rfl ha h

/-! ## The obligation -/

/-- Settles O11: the table is checked ahead of a command's own rule, which completes with `pc` advanced and
the gadget state of the table (`bodyOf_permission`), or raises another fault (`bodyOf_neverSequence`). -/
theorem permissionTable : Obligations.PermissionTable := by
  intro i s hwf
  refine ⟨fun h => ?_, fun hl hperm h => ?_, fun t hs h ht => ?_⟩
  · rw [exec_eq_command]
    exact command_sequence hwf (h.imp_right fun hperm => by rw [← isSome_permission, hperm]; rfl)
  · have ha := isSome_permission i s.gadget ▸ Option.isSome_iff_ne_none.mpr hperm
    cases hb : bodyOf i s with
    | ok u =>
      have ht := Host.Outcome.next.inj ((exec_ok hwf hl ha hb).symm.trans h)
      have hpc : u.pc + 1 = s.pc := congrArg State.pc ht
      rw [(bodyOf_builds hb).pc_eq] at hpc
      exact Nat.succ_ne_self _ hpc
    | error e =>
      have ht := Host.Outcome.next.inj ((exec_error hwf hl ha hb).symm.trans h)
      have he : e = .sequenceViolation := Option.some.inj (congrArg State.fault ht)
      exact bodyOf_neverSequence i s (he ▸ hb)
  · obtain ⟨e, rfl⟩ | ⟨-, hl, ha, u, hu, rfl⟩ := exec_next h
    · exact nomatch ht
    · exact ⟨hl, (bodyOf_permission ha hu :)⟩

end Sys2Proof.Machine

/-! The rows each command emits when it completes (R318). -/

namespace Sys2Proof.Machine

/-- Settles O32: a state without a fault is the one a completed rule leaves (`exec_completed`), and that rule
has emitted the rows of the table (`bodyOf_cur`). -/
theorem rowCosts : Obligations.RowCosts := by
  intro i s t _ h hf
  obtain ⟨u, hu, rfl⟩ := exec_completed h hf
  exact (bodyOf_cur hu :)

end Sys2Proof.Machine
